-- ==== Sys2Proof/Word.lean ====
section
/-! DEFINITION. Words, bytes, register numbers, the two register widths and the access widths.

A register value is an `XLEN`-bit vector (R7, R20) and `XLEN` is 32 or 64 (R6). The model holds such a
value in a 64-bit word; when `XLEN = 32` its upper half is zero in every state that a run reaches
(DESIGN CHOICE, notes/assumptions/3.md). -/

namespace Sys2Proof

/-- The cell that holds one `XLEN`-bit value. -/
abbrev Word := BitVec 64

/-- The addressable unit (R64). -/
abbrev Byte := BitVec 8

/-- One instruction word: every instruction is 32 bits long (R100). -/
abbrev InstrWord := BitVec 32

/-- A register number, `x0` to `x31` (R20). -/
abbrev RegId := Fin 32

/-- The register width, fixed at construction (R6). -/
inductive Xlen where
  | rv32
  | rv64
deriving DecidableEq, Repr

/-- `XLEN` as a number of bits. -/
def Xlen.bits : Xlen → Nat
  | .rv32 => 32
  | .rv64 => 64

/-- The widths of a data access (R64): byte, half-word, word, long. -/
inductive Width where
  | byte
  | half
  | word
  | long
deriving DecidableEq, Repr, Inhabited

end Sys2Proof
end

