-- ==== Sys2Proof/Config.lean ====
section
/-! DEFINITION. The parameters of the hardware (R6), their validity (R6, R393), the parameter values
that `State.reset` is built from, and the free values: what the spec leaves open as `any value`
(spec/93_implementation_defined.md part 1), each an opaque constant of which nothing can be proved. -/

namespace Sys2Proof

/-- The parameters of R6 that are not fixed. A field with a default has R6's own default; a field
without one is OPEN in the spec. They are chosen at construction and no step changes them
(notes/assumptions/1.md says why they are held in the state). -/
structure Params where
  /-- `XLEN`. -/
  xlen : Xlen
  /-- `ALIGNED_ADDRESSES`: reset value of the register `alignedAddresses`. -/
  alignedAddresses : Bool
  /-- `ALWAYS_CALLOC`: reset value of the register `alwaysCalloc`. -/
  alwaysCalloc : Bool := false
  /-- `MAX_STEPS`: the optional step guard (R323). -/
  maxSteps : Option Nat := none
  /-- `RUN_STOPS_AT_BREAKPOINT` (R319, conflict C1). -/
  runStopsAtBreakpoint : Bool := false
  /-- `TEXT_BASE`: instruction-space address of the first word. -/
  textBase : Nat := 0
  /-- `IMEM`: the immutable program text (R35). -/
  imem : List InstrWord
  /-- `ENTRY`: reset value of `pc`. -/
  entry : Word := BitVec.ofNat 64 textBase
  /-- `DATA_BASE`. -/
  dataBase : Nat := 0x10000000
  /-- `DATA_INIT`: the initial data bytes. -/
  dataInit : List Byte
  /-- `RESET_SP`: reset value of `x2`. -/
  resetSp : Word := 0x7FFFFFF0
  /-- `RESET_GP`: reset value of `x3`. -/
  resetGp : Word := BitVec.ofNat 64 dataBase
  /-- `EXIT_A0`. -/
  exitA0 : Word := 10
  /-- `ALLOC_MARKER`. -/
  allocMarker : Word := 0x3CC
  /-- `HAS_ALLOC_SERVICE`. -/
  hasAllocService : Bool := true
  /-- `HEAP_BASE`. -/
  heapBase : Nat := 0x10008000
  /-- `HEAP_LIMIT`: one past the last heap address. -/
  heapLimit : Nat
  /-- `HDR_SIZE`: bytes of metadata in front of each payload. -/
  hdrSize : Nat
  /-- `ALLOC_ALIGN`: granularity of request sizes. -/
  allocAlign : Nat
deriving DecidableEq, Repr

/-- The constraints R6 and R393 put on the parameters. -/
def Params.valid (p : Params) : Bool :=
  p.textBase % 4 == 0 && p.textBase + 4 * p.imem.length ≤ 2 ^ p.xlen.bits
    && p.entry.toNat % 4 == 0 && p.entry.toNat < 2 ^ p.xlen.bits
    && p.dataBase < 2 ^ p.xlen.bits
    && p.exitA0 != p.allocMarker
    && p.exitA0.toNat < 2 ^ p.xlen.bits && p.allocMarker.toNat < 2 ^ p.xlen.bits
    && p.heapBase ≤ p.heapLimit && p.heapLimit ≤ 2 ^ p.xlen.bits
    && 2 ^ p.allocAlign.log2 == p.allocAlign
    && 0 < p.hdrSize && p.hdrSize % p.allocAlign == 0 && p.heapBase % p.allocAlign == 0

/-- The parameters `State.reset` is built from: R6's defaults, and for the OPEN parameters a choice
of the model's (DESIGN CHOICE, unsafe, notes/assumptions/2.md): `XLEN = 64`, where every row of the
opcode table decodes, no alignment enforcement, no program, no data, and program P4's heap. No
statement of the model is restricted to these parameters. -/
def Params.atReset : Params :=
  { xlen := .rv64, alignedAddresses := false, imem := [], dataInit := [],
    heapLimit := 0x10010000, hdrSize := 16, allocAlign := 8 }

/-! The free values. Each is applied to the draw counter of the state, so that no two draws are known
to agree (notes/assumptions/7.md). -/

/-- A byte that an allocator operation leaves in metadata, or in reused memory (R274, U2, U11, U12). -/
opaque Config.freeByte : Nat → Byte

/-- Whether a zero-size request answers NULL (U9). -/
opaque Config.freeNull : Nat → Bool

/-- How many `ALLOC_ALIGN` units beyond the rounded request an in-place `realloc` keeps (R282, U10). -/
opaque Config.freeKeep : Nat → Nat

/-- The address in the `AlignmentError` of the service's own metadata access (R290). -/
opaque Config.freeFaultAddr : Nat → Word

/-- The width in that `AlignmentError`. -/
opaque Config.freeFaultWidth : Nat → Width

/-- Whether the access in that `AlignmentError` is a write. -/
opaque Config.freeFaultIsStore : Nat → Bool

end Sys2Proof
end

