-- ==== Sys2Proof/Syntax.lean ====
section
/-! DEFINITION. The syntax of the instructions: one constructor per mnemonic of spec/opcode_table.json
(`SLLI`, `SRLI` and `SRAI` have one row per `XLEN` and one constructor each, R109, R116).

Operands are in the order of the assembly syntax of R128. An immediate is the field the encoding
holds: `imm` of the U format is `inst[31:12]` (R106), `off` of the B and J formats is the byte offset
with its bit 0, which the encoding does not hold and which is 0 (R105, R107). -/

namespace Sys2Proof

inductive Instr where
  /-- `LUI` (R141). -/
  | lui (rd : RegId) (imm : BitVec 20)
  /-- `AUIPC` (R142). -/
  | auipc (rd : RegId) (imm : BitVec 20)
  /-- `JAL` (R203). -/
  | jal (rd : RegId) (off : BitVec 21)
  /-- `JALR` (R204). -/
  | jalr (rd rs1 : RegId) (imm : BitVec 12)
  /-- `BEQ` (R206). -/
  | beq (rs1 rs2 : RegId) (off : BitVec 13)
  /-- `BNE` (R207). -/
  | bne (rs1 rs2 : RegId) (off : BitVec 13)
  /-- `BLT` (R208). -/
  | blt (rs1 rs2 : RegId) (off : BitVec 13)
  /-- `BGE` (R209). -/
  | bge (rs1 rs2 : RegId) (off : BitVec 13)
  /-- `BLTU` (R210). -/
  | bltu (rs1 rs2 : RegId) (off : BitVec 13)
  /-- `BGEU` (R211). -/
  | bgeu (rs1 rs2 : RegId) (off : BitVec 13)
  /-- `LB` (R223). -/
  | lb (rd rs1 : RegId) (imm : BitVec 12)
  /-- `LH` (R224). -/
  | lh (rd rs1 : RegId) (imm : BitVec 12)
  /-- `LW` (R225). -/
  | lw (rd rs1 : RegId) (imm : BitVec 12)
  /-- `LD` (R229), `XLEN = 64` only. -/
  | ld (rd rs1 : RegId) (imm : BitVec 12)
  /-- `LBU` (R226). -/
  | lbu (rd rs1 : RegId) (imm : BitVec 12)
  /-- `LHU` (R227). -/
  | lhu (rd rs1 : RegId) (imm : BitVec 12)
  /-- `LWU` (R228), `XLEN = 64` only. -/
  | lwu (rd rs1 : RegId) (imm : BitVec 12)
  /-- `SB` (R230). -/
  | sb (rs2 rs1 : RegId) (imm : BitVec 12)
  /-- `SH` (R231). -/
  | sh (rs2 rs1 : RegId) (imm : BitVec 12)
  /-- `SW` (R232). -/
  | sw (rs2 rs1 : RegId) (imm : BitVec 12)
  /-- `SD` (R233), `XLEN = 64` only. -/
  | sd (rs2 rs1 : RegId) (imm : BitVec 12)
  /-- `ADDI` (R143). -/
  | addi (rd rs1 : RegId) (imm : BitVec 12)
  /-- `SLTI` (R144). -/
  | slti (rd rs1 : RegId) (imm : BitVec 12)
  /-- `SLTIU` (R145). -/
  | sltiu (rd rs1 : RegId) (imm : BitVec 12)
  /-- `XORI` (R146). -/
  | xori (rd rs1 : RegId) (imm : BitVec 12)
  /-- `ORI` (R147). -/
  | ori (rd rs1 : RegId) (imm : BitVec 12)
  /-- `ANDI` (R148). -/
  | andi (rd rs1 : RegId) (imm : BitVec 12)
  /-- `SLLI` (R149). -/
  | slli (rd rs1 : RegId) (shamt : BitVec 6)
  /-- `SRLI` (R150). -/
  | srli (rd rs1 : RegId) (shamt : BitVec 6)
  /-- `SRAI` (R151). -/
  | srai (rd rs1 : RegId) (shamt : BitVec 6)
  /-- `ADD` (R171). -/
  | add (rd rs1 rs2 : RegId)
  /-- `SUB` (R172). -/
  | sub (rd rs1 rs2 : RegId)
  /-- `SLL` (R173). -/
  | sll (rd rs1 rs2 : RegId)
  /-- `SLT` (R174). -/
  | slt (rd rs1 rs2 : RegId)
  /-- `SLTU` (R175). -/
  | sltu (rd rs1 rs2 : RegId)
  /-- `XOR` (R176). -/
  | xor (rd rs1 rs2 : RegId)
  /-- `SRL` (R177). -/
  | srl (rd rs1 rs2 : RegId)
  /-- `SRA` (R178). -/
  | sra (rd rs1 rs2 : RegId)
  /-- `OR` (R179). -/
  | or (rd rs1 rs2 : RegId)
  /-- `AND` (R180). -/
  | and (rd rs1 rs2 : RegId)
  /-- `FENCE` (R250). -/
  | fence (fm pred succ : BitVec 4) (rs1 rd : RegId)
  /-- `ECALL` (R251). -/
  | ecall
  /-- `EBREAK` (R255). -/
  | ebreak
  /-- `ADDIW` (R152), `XLEN = 64` only. -/
  | addiw (rd rs1 : RegId) (imm : BitVec 12)
  /-- `SLLIW` (R153), `XLEN = 64` only. -/
  | slliw (rd rs1 : RegId) (shamt : BitVec 5)
  /-- `SRLIW` (R154), `XLEN = 64` only. -/
  | srliw (rd rs1 : RegId) (shamt : BitVec 5)
  /-- `SRAIW` (R155), `XLEN = 64` only. -/
  | sraiw (rd rs1 : RegId) (shamt : BitVec 5)
  /-- `ADDW` (R181), `XLEN = 64` only. -/
  | addw (rd rs1 rs2 : RegId)
  /-- `SUBW` (R182), `XLEN = 64` only. -/
  | subw (rd rs1 rs2 : RegId)
  /-- `SLLW` (R183), `XLEN = 64` only. -/
  | sllw (rd rs1 rs2 : RegId)
  /-- `SRLW` (R184), `XLEN = 64` only. -/
  | srlw (rd rs1 rs2 : RegId)
  /-- `SRAW` (R185), `XLEN = 64` only. -/
  | sraw (rd rs1 rs2 : RegId)
deriving DecidableEq, Repr

end Sys2Proof
end

