-- ==== Sys2Proof/WellFormed.lean ====
section
/-! DEFINITION. Which instructions exist at an `XLEN` with which operands: an instruction is
well-formed when some instruction word of that machine stands for it. -/

namespace Sys2Proof

/-- `XLEN = 64` only (R120). -/
def needsRv64 (x : Xlen) : Bool := x == .rv64

/-- A shift amount is below `XLEN` (R109). -/
def shamtFits (x : Xlen) (shamt : BitVec 6) : Bool := shamt.toNat < x.bits

/-- A branch or jump offset has bit 0 clear (R105, R107). -/
def offsetEven {n : Nat} (off : BitVec n) : Bool := off.getLsbD 0 == false

/-- The instruction exists at this `XLEN` and its operands fit its encoding. -/
def Instr.wf (x : Xlen) : Instr → Bool
  | .lui _ _ => true
  | .auipc _ _ => true
  | .jal _ off => offsetEven off
  | .jalr _ _ _ => true
  | .beq _ _ off => offsetEven off
  | .bne _ _ off => offsetEven off
  | .blt _ _ off => offsetEven off
  | .bge _ _ off => offsetEven off
  | .bltu _ _ off => offsetEven off
  | .bgeu _ _ off => offsetEven off
  | .lb _ _ _ => true
  | .lh _ _ _ => true
  | .lw _ _ _ => true
  | .ld _ _ _ => needsRv64 x
  | .lbu _ _ _ => true
  | .lhu _ _ _ => true
  | .lwu _ _ _ => needsRv64 x
  | .sb _ _ _ => true
  | .sh _ _ _ => true
  | .sw _ _ _ => true
  | .sd _ _ _ => needsRv64 x
  | .addi _ _ _ => true
  | .slti _ _ _ => true
  | .sltiu _ _ _ => true
  | .xori _ _ _ => true
  | .ori _ _ _ => true
  | .andi _ _ _ => true
  | .slli _ _ shamt => shamtFits x shamt
  | .srli _ _ shamt => shamtFits x shamt
  | .srai _ _ shamt => shamtFits x shamt
  | .add _ _ _ => true
  | .sub _ _ _ => true
  | .sll _ _ _ => true
  | .slt _ _ _ => true
  | .sltu _ _ _ => true
  | .xor _ _ _ => true
  | .srl _ _ _ => true
  | .sra _ _ _ => true
  | .or _ _ _ => true
  | .and _ _ _ => true
  | .fence _ _ _ _ _ => true
  | .ecall => true
  | .ebreak => true
  | .addiw _ _ _ => needsRv64 x
  | .slliw _ _ _ => needsRv64 x
  | .srliw _ _ _ => needsRv64 x
  | .sraiw _ _ _ => needsRv64 x
  | .addw _ _ _ => needsRv64 x
  | .subw _ _ _ => needsRv64 x
  | .sllw _ _ _ => needsRv64 x
  | .srlw _ _ _ => needsRv64 x
  | .sraw _ _ _ => needsRv64 x

end Sys2Proof
end

