-- ==== Sys2Proof/Decode.lean ====
section
/-! DEFINITION. Decoding (R100 to R126) and, after it, encoding.

`opcodeTable` is the match/mask table of R116, one row per line; `decode` is the procedure of R114: a
row matches when `inst AND mask = match` and the machine's `XLEN` is in the row's list, and a word
that matches no row is rejected by name. -/

namespace Sys2Proof

/-! ### Fields of an instruction word (R101 to R109) -/

/-- The register number in a 5-bit field. -/
def regOfBits (b : BitVec 5) : RegId := b.toFin

/-- `rd`, `inst[11:7]`. -/
def fieldRd (w : InstrWord) : RegId := regOfBits (w.extractLsb' 7 5)

/-- `rs1`, `inst[19:15]`. -/
def fieldRs1 (w : InstrWord) : RegId := regOfBits (w.extractLsb' 15 5)

/-- `rs2`, `inst[24:20]`. -/
def fieldRs2 (w : InstrWord) : RegId := regOfBits (w.extractLsb' 20 5)

/-- The field of the I-immediate, `inst[31:20]` (R103). -/
def fieldImmI (w : InstrWord) : BitVec 12 := w.extractLsb' 20 12

/-- The field of the S-immediate, `inst[31:25], inst[11:7]` (R104). -/
def fieldImmS (w : InstrWord) : BitVec 12 := w.extractLsb' 25 7 ++ w.extractLsb' 7 5

/-- The B-immediate with its bit 0: `inst[31], inst[7], inst[30:25], inst[11:8], 0` (R105). -/
def fieldOffB (w : InstrWord) : BitVec 13 :=
  w.extractLsb' 31 1 ++ w.extractLsb' 7 1 ++ w.extractLsb' 25 6 ++ w.extractLsb' 8 4 ++ 0#1

/-- The field of the U-immediate, `inst[31:12]` (R106). -/
def fieldImmU (w : InstrWord) : BitVec 20 := w.extractLsb' 12 20

/-- The J-immediate with its bit 0: `inst[31], inst[19:12], inst[20], inst[30:21], 0` (R107). -/
def fieldOffJ (w : InstrWord) : BitVec 21 :=
  w.extractLsb' 31 1 ++ w.extractLsb' 12 8 ++ w.extractLsb' 20 1 ++ w.extractLsb' 21 10 ++ 0#1

/-- The 6-bit shift amount, `inst[25:20]` (R109); at `XLEN = 32` the mask of the row has made bit 25
zero, so it is `inst[24:20]`. -/
def fieldShamt6 (w : InstrWord) : BitVec 6 := w.extractLsb' 20 6

/-- The 5-bit shift amount, `inst[24:20]` (R109). -/
def fieldShamt5 (w : InstrWord) : BitVec 5 := w.extractLsb' 20 5

/-! ### The opcode table (R116) -/

/-- One line of the table: the word's fixed bits, where they stand, the `XLEN`s that have it, and the
instruction a matching word stands for. -/
structure OpcodeRow where
  mnemonic : String
  pattern : InstrWord
  mask : InstrWord
  rv32 : Bool
  rv64 : Bool
  build : InstrWord → Instr

/-- The row exists at this `XLEN`. -/
def OpcodeRow.has (r : OpcodeRow) : Xlen → Bool
  | .rv32 => r.rv32
  | .rv64 => r.rv64

/-- The row matches the word (R114). -/
def OpcodeRow.hits (r : OpcodeRow) (x : Xlen) (w : InstrWord) : Bool :=
  r.has x && (w &&& r.mask == r.pattern)

/-- Rows of the U format and the two jumps. -/
def rowsUpper : List OpcodeRow := [
  ⟨"lui", 0x00000037, 0x0000007F, true, true, fun w => .lui (fieldRd w) (fieldImmU w)⟩,
  ⟨"auipc", 0x00000017, 0x0000007F, true, true, fun w => .auipc (fieldRd w) (fieldImmU w)⟩,
  ⟨"jal", 0x0000006F, 0x0000007F, true, true, fun w => .jal (fieldRd w) (fieldOffJ w)⟩,
  ⟨"jalr", 0x00000067, 0x0000707F, true, true, fun w => .jalr (fieldRd w) (fieldRs1 w) (fieldImmI w)⟩]

/-- Rows of the conditional branches. -/
def rowsBranch : List OpcodeRow := [
  ⟨"beq", 0x00000063, 0x0000707F, true, true, fun w => .beq (fieldRs1 w) (fieldRs2 w) (fieldOffB w)⟩,
  ⟨"bne", 0x00001063, 0x0000707F, true, true, fun w => .bne (fieldRs1 w) (fieldRs2 w) (fieldOffB w)⟩,
  ⟨"blt", 0x00004063, 0x0000707F, true, true, fun w => .blt (fieldRs1 w) (fieldRs2 w) (fieldOffB w)⟩,
  ⟨"bge", 0x00005063, 0x0000707F, true, true, fun w => .bge (fieldRs1 w) (fieldRs2 w) (fieldOffB w)⟩,
  ⟨"bltu", 0x00006063, 0x0000707F, true, true, fun w => .bltu (fieldRs1 w) (fieldRs2 w) (fieldOffB w)⟩,
  ⟨"bgeu", 0x00007063, 0x0000707F, true, true, fun w => .bgeu (fieldRs1 w) (fieldRs2 w) (fieldOffB w)⟩]

/-- Rows of the loads. -/
def rowsLoad : List OpcodeRow := [
  ⟨"lb", 0x00000003, 0x0000707F, true, true, fun w => .lb (fieldRd w) (fieldRs1 w) (fieldImmI w)⟩,
  ⟨"lh", 0x00001003, 0x0000707F, true, true, fun w => .lh (fieldRd w) (fieldRs1 w) (fieldImmI w)⟩,
  ⟨"lw", 0x00002003, 0x0000707F, true, true, fun w => .lw (fieldRd w) (fieldRs1 w) (fieldImmI w)⟩,
  ⟨"ld", 0x00003003, 0x0000707F, false, true, fun w => .ld (fieldRd w) (fieldRs1 w) (fieldImmI w)⟩,
  ⟨"lbu", 0x00004003, 0x0000707F, true, true, fun w => .lbu (fieldRd w) (fieldRs1 w) (fieldImmI w)⟩,
  ⟨"lhu", 0x00005003, 0x0000707F, true, true, fun w => .lhu (fieldRd w) (fieldRs1 w) (fieldImmI w)⟩,
  ⟨"lwu", 0x00006003, 0x0000707F, false, true, fun w => .lwu (fieldRd w) (fieldRs1 w) (fieldImmI w)⟩]

/-- Rows of the stores. -/
def rowsStore : List OpcodeRow := [
  ⟨"sb", 0x00000023, 0x0000707F, true, true, fun w => .sb (fieldRs2 w) (fieldRs1 w) (fieldImmS w)⟩,
  ⟨"sh", 0x00001023, 0x0000707F, true, true, fun w => .sh (fieldRs2 w) (fieldRs1 w) (fieldImmS w)⟩,
  ⟨"sw", 0x00002023, 0x0000707F, true, true, fun w => .sw (fieldRs2 w) (fieldRs1 w) (fieldImmS w)⟩,
  ⟨"sd", 0x00003023, 0x0000707F, false, true, fun w => .sd (fieldRs2 w) (fieldRs1 w) (fieldImmS w)⟩]

/-- Rows of OP-IMM. -/
def rowsImm : List OpcodeRow := [
  ⟨"addi", 0x00000013, 0x0000707F, true, true, fun w => .addi (fieldRd w) (fieldRs1 w) (fieldImmI w)⟩,
  ⟨"slti", 0x00002013, 0x0000707F, true, true, fun w => .slti (fieldRd w) (fieldRs1 w) (fieldImmI w)⟩,
  ⟨"sltiu", 0x00003013, 0x0000707F, true, true, fun w => .sltiu (fieldRd w) (fieldRs1 w) (fieldImmI w)⟩,
  ⟨"xori", 0x00004013, 0x0000707F, true, true, fun w => .xori (fieldRd w) (fieldRs1 w) (fieldImmI w)⟩,
  ⟨"ori", 0x00006013, 0x0000707F, true, true, fun w => .ori (fieldRd w) (fieldRs1 w) (fieldImmI w)⟩,
  ⟨"andi", 0x00007013, 0x0000707F, true, true, fun w => .andi (fieldRd w) (fieldRs1 w) (fieldImmI w)⟩,
  ⟨"slli", 0x00001013, 0xFE00707F, true, false, fun w => .slli (fieldRd w) (fieldRs1 w) (fieldShamt6 w)⟩,
  ⟨"srli", 0x00005013, 0xFE00707F, true, false, fun w => .srli (fieldRd w) (fieldRs1 w) (fieldShamt6 w)⟩,
  ⟨"srai", 0x40005013, 0xFE00707F, true, false, fun w => .srai (fieldRd w) (fieldRs1 w) (fieldShamt6 w)⟩,
  ⟨"slli", 0x00001013, 0xFC00707F, false, true, fun w => .slli (fieldRd w) (fieldRs1 w) (fieldShamt6 w)⟩,
  ⟨"srli", 0x00005013, 0xFC00707F, false, true, fun w => .srli (fieldRd w) (fieldRs1 w) (fieldShamt6 w)⟩,
  ⟨"srai", 0x40005013, 0xFC00707F, false, true, fun w => .srai (fieldRd w) (fieldRs1 w) (fieldShamt6 w)⟩]

/-- Rows of OP. -/
def rowsReg : List OpcodeRow := [
  ⟨"add", 0x00000033, 0xFE00707F, true, true, fun w => .add (fieldRd w) (fieldRs1 w) (fieldRs2 w)⟩,
  ⟨"sub", 0x40000033, 0xFE00707F, true, true, fun w => .sub (fieldRd w) (fieldRs1 w) (fieldRs2 w)⟩,
  ⟨"sll", 0x00001033, 0xFE00707F, true, true, fun w => .sll (fieldRd w) (fieldRs1 w) (fieldRs2 w)⟩,
  ⟨"slt", 0x00002033, 0xFE00707F, true, true, fun w => .slt (fieldRd w) (fieldRs1 w) (fieldRs2 w)⟩,
  ⟨"sltu", 0x00003033, 0xFE00707F, true, true, fun w => .sltu (fieldRd w) (fieldRs1 w) (fieldRs2 w)⟩,
  ⟨"xor", 0x00004033, 0xFE00707F, true, true, fun w => .xor (fieldRd w) (fieldRs1 w) (fieldRs2 w)⟩,
  ⟨"srl", 0x00005033, 0xFE00707F, true, true, fun w => .srl (fieldRd w) (fieldRs1 w) (fieldRs2 w)⟩,
  ⟨"sra", 0x40005033, 0xFE00707F, true, true, fun w => .sra (fieldRd w) (fieldRs1 w) (fieldRs2 w)⟩,
  ⟨"or", 0x00006033, 0xFE00707F, true, true, fun w => .or (fieldRd w) (fieldRs1 w) (fieldRs2 w)⟩,
  ⟨"and", 0x00007033, 0xFE00707F, true, true, fun w => .and (fieldRd w) (fieldRs1 w) (fieldRs2 w)⟩]

/-- Rows of MISC-MEM and SYSTEM. -/
def rowsSystem : List OpcodeRow := [
  ⟨"fence", 0x0000000F, 0x0000707F, true, true, fun w => .fence (w.extractLsb' 28 4) (w.extractLsb' 24 4) (w.extractLsb' 20 4) (fieldRs1 w) (fieldRd w)⟩,
  ⟨"ecall", 0x00000073, 0xFFFFFFFF, true, true, fun _ => .ecall⟩,
  ⟨"ebreak", 0x00100073, 0xFFFFFFFF, true, true, fun _ => .ebreak⟩]

/-- Rows of OP-IMM-32 and OP-32. -/
def rowsWord32 : List OpcodeRow := [
  ⟨"addiw", 0x0000001B, 0x0000707F, false, true, fun w => .addiw (fieldRd w) (fieldRs1 w) (fieldImmI w)⟩,
  ⟨"slliw", 0x0000101B, 0xFE00707F, false, true, fun w => .slliw (fieldRd w) (fieldRs1 w) (fieldShamt5 w)⟩,
  ⟨"srliw", 0x0000501B, 0xFE00707F, false, true, fun w => .srliw (fieldRd w) (fieldRs1 w) (fieldShamt5 w)⟩,
  ⟨"sraiw", 0x4000501B, 0xFE00707F, false, true, fun w => .sraiw (fieldRd w) (fieldRs1 w) (fieldShamt5 w)⟩,
  ⟨"addw", 0x0000003B, 0xFE00707F, false, true, fun w => .addw (fieldRd w) (fieldRs1 w) (fieldRs2 w)⟩,
  ⟨"subw", 0x4000003B, 0xFE00707F, false, true, fun w => .subw (fieldRd w) (fieldRs1 w) (fieldRs2 w)⟩,
  ⟨"sllw", 0x0000103B, 0xFE00707F, false, true, fun w => .sllw (fieldRd w) (fieldRs1 w) (fieldRs2 w)⟩,
  ⟨"srlw", 0x0000503B, 0xFE00707F, false, true, fun w => .srlw (fieldRd w) (fieldRs1 w) (fieldRs2 w)⟩,
  ⟨"sraw", 0x4000503B, 0xFE00707F, false, true, fun w => .sraw (fieldRd w) (fieldRs1 w) (fieldRs2 w)⟩]

/-- The whole table, 55 rows. -/
def opcodeTable : List OpcodeRow :=
  rowsUpper ++ rowsBranch ++ rowsLoad ++ rowsStore ++ rowsImm ++ rowsReg ++ rowsSystem ++ rowsWord32

/-! ### The decoder (R114) -/

/-- Why nothing was decoded. -/
inductive DecodeReject where
  /-- The word matches no row of the table for this `XLEN` (R121 to R126). -/
  | noRow (word : InstrWord)
  /-- Fewer than the four bytes of an instruction were given (R100). -/
  | truncated (given : Nat)
deriving DecidableEq, Repr

/-- `Decode(inst, XLEN)` of R114. -/
def decode (x : Xlen) (w : InstrWord) : Except DecodeReject Instr :=
  match opcodeTable.find? (·.hits x w) with
  | some r => .ok (r.build w)
  | none => .error (.noRow w)

/-- An instruction word from its bytes, the least significant first (R83). -/
def wordOfBytes (b0 b1 b2 b3 : Byte) : InstrWord := b3 ++ b2 ++ b1 ++ b0

/-- The bytes of an instruction word, the least significant first (R83). -/
def bytesOfWord (w : InstrWord) : List Byte :=
  [w.extractLsb' 0 8, w.extractLsb' 8 8, w.extractLsb' 16 8, w.extractLsb' 24 8]

/-- The decoder on bytes: the instruction of the first four, with the bytes after it. -/
def decodeBytes (x : Xlen) : List Byte → Except DecodeReject (Instr × List Byte)
  | b0 :: b1 :: b2 :: b3 :: rest =>
    match decode x (wordOfBytes b0 b1 b2 b3) with
    | .ok i => .ok (i, rest)
    | .error e => .error e
  | bs => .error (.truncated bs.length)

/-- What the decoder at `XLEN = 64`, the width of `State.reset`, reads from a word given in the
numbering of spec/opcode_table.json: the bits from `nbits` on are zero, and the four bytes are laid
out as R83 stores them. -/
def decodeTableWord (nbits w : Nat) : Option Instr :=
  match decodeBytes Params.atReset.xlen (bytesOfWord (BitVec.ofNat 32 (w % 2 ^ nbits))) with
  | .ok (i, _) => some i
  | .error _ => none

/-! ### The encoder (R101, R102) -/

/-- The 5-bit field of a register number. -/
def bitsOfReg (r : RegId) : BitVec 5 := BitVec.ofFin r

def encodeR (funct7 : BitVec 7) (rs2 rs1 : RegId) (funct3 : BitVec 3) (rd : RegId)
    (opcode : BitVec 7) : InstrWord :=
  funct7 ++ bitsOfReg rs2 ++ bitsOfReg rs1 ++ funct3 ++ bitsOfReg rd ++ opcode

def encodeI (imm : BitVec 12) (rs1 : RegId) (funct3 : BitVec 3) (rd : RegId)
    (opcode : BitVec 7) : InstrWord :=
  imm ++ bitsOfReg rs1 ++ funct3 ++ bitsOfReg rd ++ opcode

/-- The I format of `SLLI`, `SRLI`, `SRAI`: six upper bits, then the shift amount (R109). -/
def encodeShift6 (upper : BitVec 6) (shamt : BitVec 6) (rs1 : RegId) (funct3 : BitVec 3) (rd : RegId)
    (opcode : BitVec 7) : InstrWord :=
  encodeI (upper ++ shamt) rs1 funct3 rd opcode

/-- The I format of the `*W` shifts: seven upper bits, then the shift amount (R109). -/
def encodeShift5 (upper : BitVec 7) (shamt : BitVec 5) (rs1 : RegId) (funct3 : BitVec 3) (rd : RegId)
    (opcode : BitVec 7) : InstrWord :=
  encodeI (upper ++ shamt) rs1 funct3 rd opcode

def encodeS (imm : BitVec 12) (rs2 rs1 : RegId) (funct3 : BitVec 3) (opcode : BitVec 7) : InstrWord :=
  imm.extractLsb' 5 7 ++ bitsOfReg rs2 ++ bitsOfReg rs1 ++ funct3 ++ imm.extractLsb' 0 5 ++ opcode

def encodeB (off : BitVec 13) (rs2 rs1 : RegId) (funct3 : BitVec 3) (opcode : BitVec 7) : InstrWord :=
  off.extractLsb' 12 1 ++ off.extractLsb' 5 6 ++ bitsOfReg rs2 ++ bitsOfReg rs1 ++ funct3
    ++ off.extractLsb' 1 4 ++ off.extractLsb' 11 1 ++ opcode

def encodeU (imm : BitVec 20) (rd : RegId) (opcode : BitVec 7) : InstrWord :=
  imm ++ bitsOfReg rd ++ opcode

def encodeJ (off : BitVec 21) (rd : RegId) (opcode : BitVec 7) : InstrWord :=
  off.extractLsb' 20 1 ++ off.extractLsb' 1 10 ++ off.extractLsb' 11 1 ++ off.extractLsb' 12 8
    ++ bitsOfReg rd ++ opcode

/-- The word of an instruction, from the columns of R116. -/
def encode : Instr → InstrWord
  | .lui rd imm => encodeU imm rd 0b0110111#7
  | .auipc rd imm => encodeU imm rd 0b0010111#7
  | .jal rd off => encodeJ off rd 0b1101111#7
  | .jalr rd rs1 imm => encodeI imm rs1 0b000#3 rd 0b1100111#7
  | .beq rs1 rs2 off => encodeB off rs2 rs1 0b000#3 0b1100011#7
  | .bne rs1 rs2 off => encodeB off rs2 rs1 0b001#3 0b1100011#7
  | .blt rs1 rs2 off => encodeB off rs2 rs1 0b100#3 0b1100011#7
  | .bge rs1 rs2 off => encodeB off rs2 rs1 0b101#3 0b1100011#7
  | .bltu rs1 rs2 off => encodeB off rs2 rs1 0b110#3 0b1100011#7
  | .bgeu rs1 rs2 off => encodeB off rs2 rs1 0b111#3 0b1100011#7
  | .lb rd rs1 imm => encodeI imm rs1 0b000#3 rd 0b0000011#7
  | .lh rd rs1 imm => encodeI imm rs1 0b001#3 rd 0b0000011#7
  | .lw rd rs1 imm => encodeI imm rs1 0b010#3 rd 0b0000011#7
  | .ld rd rs1 imm => encodeI imm rs1 0b011#3 rd 0b0000011#7
  | .lbu rd rs1 imm => encodeI imm rs1 0b100#3 rd 0b0000011#7
  | .lhu rd rs1 imm => encodeI imm rs1 0b101#3 rd 0b0000011#7
  | .lwu rd rs1 imm => encodeI imm rs1 0b110#3 rd 0b0000011#7
  | .sb rs2 rs1 imm => encodeS imm rs2 rs1 0b000#3 0b0100011#7
  | .sh rs2 rs1 imm => encodeS imm rs2 rs1 0b001#3 0b0100011#7
  | .sw rs2 rs1 imm => encodeS imm rs2 rs1 0b010#3 0b0100011#7
  | .sd rs2 rs1 imm => encodeS imm rs2 rs1 0b011#3 0b0100011#7
  | .addi rd rs1 imm => encodeI imm rs1 0b000#3 rd 0b0010011#7
  | .slti rd rs1 imm => encodeI imm rs1 0b010#3 rd 0b0010011#7
  | .sltiu rd rs1 imm => encodeI imm rs1 0b011#3 rd 0b0010011#7
  | .xori rd rs1 imm => encodeI imm rs1 0b100#3 rd 0b0010011#7
  | .ori rd rs1 imm => encodeI imm rs1 0b110#3 rd 0b0010011#7
  | .andi rd rs1 imm => encodeI imm rs1 0b111#3 rd 0b0010011#7
  | .slli rd rs1 shamt => encodeShift6 0b000000#6 shamt rs1 0b001#3 rd 0b0010011#7
  | .srli rd rs1 shamt => encodeShift6 0b000000#6 shamt rs1 0b101#3 rd 0b0010011#7
  | .srai rd rs1 shamt => encodeShift6 0b010000#6 shamt rs1 0b101#3 rd 0b0010011#7
  | .add rd rs1 rs2 => encodeR 0b0000000#7 rs2 rs1 0b000#3 rd 0b0110011#7
  | .sub rd rs1 rs2 => encodeR 0b0100000#7 rs2 rs1 0b000#3 rd 0b0110011#7
  | .sll rd rs1 rs2 => encodeR 0b0000000#7 rs2 rs1 0b001#3 rd 0b0110011#7
  | .slt rd rs1 rs2 => encodeR 0b0000000#7 rs2 rs1 0b010#3 rd 0b0110011#7
  | .sltu rd rs1 rs2 => encodeR 0b0000000#7 rs2 rs1 0b011#3 rd 0b0110011#7
  | .xor rd rs1 rs2 => encodeR 0b0000000#7 rs2 rs1 0b100#3 rd 0b0110011#7
  | .srl rd rs1 rs2 => encodeR 0b0000000#7 rs2 rs1 0b101#3 rd 0b0110011#7
  | .sra rd rs1 rs2 => encodeR 0b0100000#7 rs2 rs1 0b101#3 rd 0b0110011#7
  | .or rd rs1 rs2 => encodeR 0b0000000#7 rs2 rs1 0b110#3 rd 0b0110011#7
  | .and rd rs1 rs2 => encodeR 0b0000000#7 rs2 rs1 0b111#3 rd 0b0110011#7
  | .fence fm pred succ rs1 rd => encodeI (fm ++ pred ++ succ) rs1 0b000#3 rd 0b0001111#7
  | .ecall => 0x00000073
  | .ebreak => 0x00100073
  | .addiw rd rs1 imm => encodeI imm rs1 0b000#3 rd 0b0011011#7
  | .slliw rd rs1 shamt => encodeShift5 0b0000000#7 shamt rs1 0b001#3 rd 0b0011011#7
  | .srliw rd rs1 shamt => encodeShift5 0b0000000#7 shamt rs1 0b101#3 rd 0b0011011#7
  | .sraiw rd rs1 shamt => encodeShift5 0b0100000#7 shamt rs1 0b101#3 rd 0b0011011#7
  | .addw rd rs1 rs2 => encodeR 0b0000000#7 rs2 rs1 0b000#3 rd 0b0111011#7
  | .subw rd rs1 rs2 => encodeR 0b0100000#7 rs2 rs1 0b000#3 rd 0b0111011#7
  | .sllw rd rs1 rs2 => encodeR 0b0000000#7 rs2 rs1 0b001#3 rd 0b0111011#7
  | .srlw rd rs1 rs2 => encodeR 0b0000000#7 rs2 rs1 0b101#3 rd 0b0111011#7
  | .sraw rd rs1 rs2 => encodeR 0b0100000#7 rs2 rs1 0b101#3 rd 0b0111011#7

end Sys2Proof
end

