-- ==== Sys2Proof/Machine/Bits.lean ====
section
/-! DEFINITION. Bit-field, extension and byte-order helpers, and how a function on `w`-bit vectors is
applied to register values of the machine's width (R7, R8, R65). -/

namespace Sys2Proof

/-- A value taken modulo `2^XLEN` (R7). -/
def Xlen.narrow (x : Xlen) (v : Word) : Word :=
  match x with
  | .rv32 => (v.setWidth 32).setWidth 64
  | .rv64 => v

/-- `sext_N(v)` of R8: `v` has the `N` bits, the result is an `XLEN`-bit value. -/
def Xlen.sext (x : Xlen) {n : Nat} (v : BitVec n) : Word := (v.signExtend x.bits).setWidth 64

/-- `zext_N(v)` of R8. -/
def Xlen.zext (x : Xlen) {n : Nat} (v : BitVec n) : Word := (v.setWidth x.bits).setWidth 64

/-- A two-operand function on `XLEN`-bit vectors, applied to register values: what a rule says once
for both widths is written once, on `w` bits. -/
def Xlen.lift2 (x : Xlen) (f : (w : Nat) → BitVec w → BitVec w → BitVec w) (a b : Word) : Word :=
  match x with
  | .rv32 => (f 32 (a.setWidth 32) (b.setWidth 32)).setWidth 64
  | .rv64 => f 64 a b

/-- A comparison on `XLEN`-bit vectors, applied to register values. -/
def Xlen.compare (x : Xlen) (f : (w : Nat) → BitVec w → BitVec w → Bool) (a b : Word) : Bool :=
  match x with
  | .rv32 => f 32 (a.setWidth 32) (b.setWidth 32)
  | .rv64 => f 64 a b

/-- Data address `a + i`, modulo `2^XLEN` (R68). -/
def Xlen.addrMod (x : Xlen) (a : Nat) : Nat := a % 2 ^ x.bits

/-- The size of an access in bytes (R64). -/
def Width.bytes : Width → Nat
  | .byte => 1
  | .half => 2
  | .word => 4
  | .long => 8

/-- The low `n` bytes of a value, the least significant first (R65). -/
def bytesLE : Nat → Word → List Byte
  | 0, _ => []
  | n + 1, v => v.setWidth 8 :: bytesLE n (v >>> 8)

/-- The value of bytes given the least significant first (R65), zero-extended (R69). -/
def composeLE : List Byte → Word
  | [] => 0
  | b :: bs => (composeLE bs <<< 8) ||| b.setWidth 64

end Sys2Proof
end

