-- ==== Sys2Proof/Machine/Flags.lean ====
section
/-! DEFINITION. The hardware has no flags (R30): no condition code is state and no instruction writes
one. What other machines compute as flags are here the comparisons, which write 0 or 1 to a register
(`SLT` family) or decide a branch. Each is written once on `w`-bit vectors. -/

namespace Sys2Proof.Machine

/-- `=`: `BEQ` (R206). -/
def cmpEq (w : Nat) (a b : BitVec w) : Bool := a == b

/-- `/=`: `BNE` (R207). -/
def cmpNe (w : Nat) (a b : BitVec w) : Bool := a != b

/-- `<s`: `SLT`, `SLTI`, `BLT` (R174, R144, R208). -/
def cmpLtS (w : Nat) (a b : BitVec w) : Bool := a.slt b

/-- `>=s`: `BGE` (R209). -/
def cmpGeS (w : Nat) (a b : BitVec w) : Bool := b.sle a

/-- `<u`: `SLTU`, `SLTIU`, `BLTU` (R175, R145, R210). -/
def cmpLtU (w : Nat) (a b : BitVec w) : Bool := a.ult b

/-- `>=u`: `BGEU` (R211). -/
def cmpGeU (w : Nat) (a b : BitVec w) : Bool := b.ule a

/-- The value a comparison writes: 1 or 0 (R144, R145, R174, R175). -/
def boolValue (w : Nat) (c : Bool) : BitVec w := if c then 1 else 0

end Sys2Proof.Machine
end

