-- ==== Sys2Proof/Machine/Memory.lean ====
section
/-! DEFINITION. The data memory `mem` (R34, R60, R64): a total function from address to byte, held as
the list of its non-zero bytes in rising order of address. An address that is not listed reads as
zero ("Unmapped addresses read as zero", R34). Beside it the history of its bytes: which were written since
reset, and which of them hold the allocator's metadata (R274, U2, U11, U12). -/

namespace Sys2Proof.Machine

/-- The non-zero bytes of data memory. -/
abbrev Memory := List Host.Cell

/-- The byte at an address. -/
def Memory.read : Memory → Nat → Byte
  | [], _ => 0#8
  | (k, c) :: rest, a => if a < k then 0#8 else if a = k then c else Memory.read rest a

/-- The memory with one byte replaced; a zero byte is not listed. -/
def Memory.write : Memory → Nat → Byte → Memory
  | [], a, b => if b = 0#8 then [] else [(a, b)]
  | (k, c) :: rest, a, b =>
    if a < k then (if b = 0#8 then (k, c) :: rest else (a, b) :: (k, c) :: rest)
    else if a = k then (if b = 0#8 then rest else (a, b) :: rest)
    else (k, c) :: Memory.write rest a b

/-- The canonical form: addresses strictly rising and at least `lo`, no zero byte. -/
def Memory.wfFrom : Nat → Memory → Bool
  | _, [] => true
  | lo, (k, c) :: rest => lo ≤ k && c != 0#8 && Memory.wfFrom (k + 1) rest

/-- The canonical form of a memory. -/
def Memory.wf (m : Memory) : Bool := Memory.wfFrom 0 m

/-- Every listed address is an `XLEN`-bit address. -/
def Memory.within (m : Memory) (x : Xlen) : Bool := m.all (fun c => c.1 < 2 ^ x.bits)

/-- Bytes at successive addresses, each modulo `2^XLEN` (R68). -/
def Memory.readBytes (m : Memory) (x : Xlen) : Nat → Nat → List Byte
  | _, 0 => []
  | a, n + 1 => m.read (x.addrMod a) :: Memory.readBytes m x (a + 1) n

/-- The memory with bytes written at successive addresses, each modulo `2^XLEN` (R68). -/
def Memory.writeBytes (m : Memory) (x : Xlen) : Nat → List Byte → Memory
  | _, [] => m
  | a, b :: bs => Memory.writeBytes (m.write (x.addrMod a) b) x (a + 1) bs

/-- The byte-by-byte copy of R284: `n` bytes from `src` on to `dst` on. -/
def Memory.copyBytes (m : Memory) (x : Xlen) : Nat → Nat → Nat → Memory
  | _, _, 0 => m
  | src, dst, n + 1 =>
    Memory.copyBytes (m.write (x.addrMod dst) (m.read (x.addrMod src))) x (src + 1) (dst + 1) n

/-- What a byte of data memory was last written as, since reset (notes/assumptions/21.md). -/
inductive Origin where
  /-- By the program, the host, or the service's zero-fill or copy. -/
  | data
  /-- As a header, in the list now or since merged away, and by nothing else since (R274, U2). -/
  | metadata
deriving DecidableEq, Repr

/-- The bytes written since reset, in rising order of address; an address that is not listed was never
written since reset (U11, U12). -/
abbrev History := List (Nat × Origin)

/-- What a byte was last written as; `none` for a byte never written since reset. -/
def History.origin : History → Nat → Option Origin
  | [], _ => none
  | (k, o) :: rest, a => if a = k then some o else History.origin rest a

/-- The history with one byte written. -/
def History.mark : History → Nat → Origin → History
  | [], a, o => [(a, o)]
  | (k, p) :: rest, a, o =>
    if a < k then (a, o) :: (k, p) :: rest
    else if a = k then (a, o) :: rest
    else (k, p) :: History.mark rest a o

/-- The history with `n` bytes written at successive addresses, each modulo `2^XLEN` (R68). -/
def History.markRange (h : History) (x : Xlen) : Nat → Nat → Origin → History
  | _, 0, _ => h
  | a, n + 1, o => History.markRange (h.mark (x.addrMod a) o) x (a + 1) n o

/-- Addresses strictly rising and at least `lo`. -/
def History.wfFrom : Nat → History → Bool
  | _, [] => true
  | lo, (k, _) :: rest => lo ≤ k && History.wfFrom (k + 1) rest

/-- The canonical form of a history. -/
def History.wf (h : History) : Bool := History.wfFrom 0 h

/-- Data memory right after reset (R45): zero, then `DATA_INIT` from `DATA_BASE` on. -/
def Memory.initial (p : Params) : Memory := Memory.writeBytes [] p.xlen p.dataBase p.dataInit

end Sys2Proof.Machine
end

