-- ==== Sys2Proof/Machine/State.lean ====
section
/-! DEFINITION. Everything the spec gives the machine (R20 to R45), as plain data, the reasons a step
can stop, and the state right after reset. -/

namespace Sys2Proof.Machine

/-- The fault latch `err` (R37, R350). The payload's `pc`, `target`, `addr`, `a0` and `a6` are
`XLEN`-bit values. -/
inductive Err where
  /-- Code 0: no fault since reset. -/
  | none
  /-- Code 1: a misaligned 2-, 4- or 8-byte access while enforcement is on (R354). -/
  | alignmentError (addr : Word) (width : Width) (isStore : Bool)
  /-- Code 2: the fetched word is no instruction (R356). -/
  | decodeError (pc : Word) (word : InstrWord)
  /-- Code 3: a fetch outside the program text (R355). -/
  | fetchFault (pc : Word)
  /-- Code 4: a jump or taken branch to a target that is no multiple of 4 (R357). -/
  | instrAddrMisaligned (pc target : Word)
  /-- Code 5: an environment call the hardware does not serve (R358). -/
  | unsupportedEcall (pc a0 a6 : Word)
  /-- Code 6: `free` or `realloc` of a pointer that is no allocated payload (R359). -/
  | invalidFree (pc addr : Word)
  /-- Code 7: the step guard (R361). -/
  | stepLimitExceeded (cycles : BitVec 64)
deriving DecidableEq, Repr

/-- The commands that run instructions (R314). -/
inductive Command where
  | step
  | run
  | runToBp
deriving DecidableEq, Repr

/-- `run_state` (R36). The command in progress exists only while Running (R38 b), and so does the fact
that the command's next instruction is its first and resumes a breakpoint pause (R38 a, R316, R317). -/
inductive RunState where
  | ready
  | running (command : Command) (resume : Bool)
  | atBreakpoint
  | halted
deriving DecidableEq, Repr

/-- One block of the allocator's list (R272); `base` is the address of its header. -/
structure Block where
  base : Nat
  size : Nat
  free : Bool
deriving DecidableEq, Repr

/-- What the host can ask while the engine is not Running (R314, R330 to R337). -/
inductive PortRequest where
  /-- `RESET` (R336). -/
  | reset
  /-- `STEP`, `RUN` or `RUN_TO_BP` (R314). -/
  | command (c : Command)
  /-- `getReg(index)` (R330). -/
  | getReg (r : RegId)
  /-- `getPC()` (R331). -/
  | getPC
  /-- `getCycles()` (R331). -/
  | getCycles
  /-- `getState()` (R331). -/
  | getState
  /-- `getErr()` (R331). -/
  | getErr
  /-- `alloc.numActiveBlocks()` (R334). -/
  | getNumActiveBlocks
  /-- A read of the register `alignedAddresses` (R32). -/
  | getAlignedAddresses
  /-- A read of the register `alwaysCalloc` (R32). -/
  | getAlwaysCalloc
  /-- `loadByte`, `loadHalfWord`, `loadWord`, `loadLong` (R63, R332). -/
  | load (width : Width) (addr : Word)
  /-- `storeByte`, `storeHalfWord`, `storeWord`, `storeLong` (R63, R332). -/
  | store (width : Width) (addr : Word) (value : Word)
  /-- `removeByte(addr)` (R74). -/
  | removeByte (addr : Word)
  /-- `wordOffsetMask(addr)` (R75, R333). -/
  | wordOffsetMask (addr : Word)
  /-- A write of the register `alignedAddresses` (R335). -/
  | setAlignedAddresses (on : Bool)
  /-- A write of the register `alwaysCalloc` (R335). -/
  | setAlwaysCalloc (on : Bool)
deriving DecidableEq, Repr

/-- What a port answers. Commands and writes that succeed answer nothing. -/
inductive PortReply where
  /-- An `XLEN`-bit value: `getReg`, `getPC`. -/
  | value (v : Word)
  /-- The cycle count. -/
  | cycles (n : BitVec 64)
  /-- The run state. -/
  | runState (r : RunState)
  /-- The fault latch with its numeric code (R350). -/
  | err (code : Nat) (e : Err)
  /-- The number of allocated blocks. -/
  | count (n : Nat)
  /-- A one-bit register. -/
  | flag (b : Bool)
  /-- The `8n` bits read from memory, zero-extended (R69). -/
  | data (v : Word)
  /-- A byte-lane mask (R75). -/
  | mask (m : BitVec 32)
  /-- The memory request violated the alignment rule; it is answered here and not latched (R369). -/
  | alignmentError (addr : Word) (width : Width) (isStore : Bool)
deriving DecidableEq, Repr

/-- The reasons the machine stops for good with no next state: there is none. Every fault of the spec
(R350) is a next state: the engine is Halted with the fault latched in `err` (R352), notes/assumptions/6.md. -/
inductive Fault where
deriving DecidableEq, Repr

/-- The steps the model gives no meaning to. -/
inductive Refusal where
  /-- Raised by no arm of this model: an instruction without a meaning yet (safe). -/
  | notModelled (mnemonic : String)
  /-- Raised when an instruction completes and `cycles` is `2^64 - 1`: R29 asks to refuse (safe). -/
  | cycleCounterFull
  /-- Raised by an allocator `ECALL` after a store has touched a header byte: R275 asks to refuse (safe). -/
  | headerOverwritten
  /-- Raised by the host memory port for an 8-byte request at `XLEN = 32`, which R62 and R63 say
  cannot be issued (safe). -/
  | longAccessOnRv32
deriving DecidableEq, Repr

/-- The machine. -/
structure State where
  /-- The parameters of this instance (R6), the program text `IMEM` (R35) among them; no step changes them. -/
  params : Params
  /-- `x1` to `x31` (R20); `x0` has no storage (R21). -/
  regs : Vector Word 31
  /-- The program counter (R24). -/
  pc : Word
  /-- The counter of executed instructions (R28). -/
  cycles : BitVec 64
  /-- Data memory (R34). -/
  mem : Memory
  /-- The engine's run state (R36). -/
  runState : RunState
  /-- The fault latch (R37). -/
  err : Err
  /-- Alignment enforcement on or off (R32). -/
  alignedAddresses : Bool
  /-- Zero-fill every allocation (R32, R279). -/
  alwaysCalloc : Bool
  /-- The allocator's block list in address order (R272). -/
  blocks : List Block
  /-- The allocator's high-water mark (R272). -/
  hwm : Nat
  /-- The number of allocated blocks (R272, R288). -/
  numActiveBlocks : Nat
  /-- The model's own: a program store, a host write or a `removeByte` has touched a header byte (R275). -/
  headersTouched : Bool
  /-- The model's own: which bytes of `mem` were written since reset, and which hold metadata (R274, U2, U11, U12). -/
  history : History
  /-- The model's own: how many free values were drawn since reset. -/
  freeCount : Nat
  /-- The model's own: what the host will ask, the next request first. -/
  requests : List PortRequest
  /-- The model's own: what the ports have answered, the oldest first. -/
  replies : List PortReply
deriving DecidableEq, Repr

/-- The outcome of a step of this machine. -/
abbrev Outcome := Host.Outcome State Fault Refusal

/-- The state reset leaves at given parameters (R45, R391). -/
def State.ofParams (p : Params) : State :=
  { params := p
    regs := ((Vector.replicate 31 (0 : Word)).set 1 (p.xlen.narrow p.resetSp)).set 2
      (p.xlen.narrow p.resetGp)
    pc := p.entry
    cycles := 0
    mem := Memory.initial p
    runState := .ready
    err := .none
    alignedAddresses := p.alignedAddresses
    alwaysCalloc := p.alwaysCalloc
    blocks := []
    hwm := p.heapBase
    numActiveBlocks := 0
    headersTouched := false
    history := []
    freeCount := 0
    requests := []
    replies := [] }

/-- The machine right after reset. -/
def State.reset : State := State.ofParams Params.atReset

end Sys2Proof.Machine
end

