-- ==== Sys2Proof/Machine/Operands.lean ====
section
/-! DEFINITION. Operand forms: registers (R20, R21), immediates (R103 to R107), shift amounts (R109,
R192), effective addresses (R220), branch and jump targets (R203 to R205), and the integer functions,
each written once on `w`-bit vectors (R190, R191). -/

namespace Sys2Proof.Machine

/-! ### Registers -/

/-- `x[i]`: register 0 reads as zero (R21). -/
def State.x (s : State) (r : RegId) : Word :=
  if h : r.val = 0 then 0 else s.regs[r.val - 1]'(by omega)

/-- `x[i] <- v`: discarded when `i = 0` (R21). -/
def State.setX (s : State) (r : RegId) (v : Word) : State :=
  if h : r.val = 0 then s else { s with regs := s.regs.set (r.val - 1) v (by omega) }

/-! ### Integer functions -/

def aluAdd (w : Nat) (a b : BitVec w) : BitVec w := a + b
def aluSub (w : Nat) (a b : BitVec w) : BitVec w := a - b
def aluXor (w : Nat) (a b : BitVec w) : BitVec w := a ^^^ b
def aluOr (w : Nat) (a b : BitVec w) : BitVec w := a ||| b
def aluAnd (w : Nat) (a b : BitVec w) : BitVec w := a &&& b
def aluSlt (w : Nat) (a b : BitVec w) : BitVec w := boolValue w (cmpLtS w a b)
def aluSltu (w : Nat) (a b : BitVec w) : BitVec w := boolValue w (cmpLtU w a b)

/-- `<<` by the low bits of the second operand, the amount modulo the width (R173, R192). -/
def aluSll (w : Nat) (a b : BitVec w) : BitVec w := a <<< (b.toNat % w)

/-- `>>u` likewise (R177). -/
def aluSrl (w : Nat) (a b : BitVec w) : BitVec w := a >>> (b.toNat % w)

/-- `>>s` likewise (R178). -/
def aluSra (w : Nat) (a b : BitVec w) : BitVec w := a.sshiftRight (b.toNat % w)

/-- `JALR`'s target: the sum with bit 0 cleared (R204). -/
def aluJalr (w : Nat) (a b : BitVec w) : BitVec w := (a + b) &&& ~~~1#w

/-! ### Immediates, addresses and targets -/

/-- `imm_I` and `imm_S` (R103, R104). -/
def State.imm12 (s : State) (imm : BitVec 12) : Word := s.params.xlen.sext imm

/-- `imm_U` (R106). -/
def State.immU (s : State) (imm : BitVec 20) : Word := s.params.xlen.sext (imm ++ 0#12)

/-- `a + b` modulo `2^XLEN` (R190). -/
def State.add (s : State) (a b : Word) : Word := s.params.xlen.lift2 aluAdd a b

/-- `pc + 4` modulo `2^XLEN` (R26). -/
def State.seqPc (s : State) : Word := s.add s.pc 4

/-- The effective address of a load or store (R220). -/
def State.ea (s : State) (rs1 : RegId) (imm : BitVec 12) : Word := s.add (s.x rs1) (s.imm12 imm)

/-- The target of `JAL` or of a branch: `pc` plus the offset (R203, R205). -/
def State.relTarget (s : State) {n : Nat} (off : BitVec n) : Word :=
  s.add s.pc (s.params.xlen.sext off)

/-- The target of `JALR` (R204). -/
def State.jalrTarget (s : State) (rs1 : RegId) (imm : BitVec 12) : Word :=
  s.params.xlen.lift2 aluJalr (s.x rs1) (s.imm12 imm)

end Sys2Proof.Machine
end

