-- ==== Sys2Proof/Machine/Ops.lean ====
section
/-! DEFINITION. The named operations the meanings share: completing an instruction, raising a fault,
the memory arbiter, and one operation per instruction shape.

Taking an exception on this hardware is `raise` (R352). There is no return from one (R360, R364): only
`RESET` leaves Halted (R320), and that is a host request (Machine/Ports.lean). -/

namespace Sys2Proof.Machine

/-! ### Raising and completing -/

/-- `raise F` (R352): the fault is latched and the engine halts; nothing else changes. -/
def State.raise (s : State) (e : Err) : State := { s with err := e, runState := .halted }

/-- An instruction that takes a fault: a next state (R352). -/
def takeFault (e : Err) (s : State) : Outcome := .next (s.raise e)

/-- The last two lines of `ExecuteOne` (R312): `pc <- next`, `cycles <- cycles + 1`. -/
def State.advance (s : State) (next : Word) : State :=
  { s with pc := next, cycles := s.cycles + 1 }

/-- An instruction completes with effects `s` and next address `next` (R9, R26, R28); a full cycle
counter is refused (R29). -/
def complete (next : Word) (s : State) : Outcome :=
  if s.cycles = BitVec.allOnes 64 then .refused .cycleCounterFull else .next (s.advance next)

/-- `halt` (R8, R253): Halted with `err` as it is. -/
def State.halt (s : State) : State := { s with runState := .halted }

/-- An instruction the machine's `XLEN` does not have (R109, R120): its word is a decode error (R121),
so executing it raises one. The engine never gets here, because the decoder raises first. -/
def whenDecodable (i : Instr) (s : State) (o : Outcome) : Outcome :=
  if i.wf s.params.xlen then o else takeFault (.decodeError s.pc (encode i)) s

/-! ### The memory arbiter (R60 to R77) -/

/-- The access violates the alignment rule (R70). -/
def State.misaligned (s : State) (addr : Word) (w : Width) : Bool :=
  s.alignedAddresses && w != .byte && addr.toNat % w.bytes != 0

/-- `MemRead(addr, n)` (R66): the raw value, zero-extended (R69). -/
def State.memRead (s : State) (addr : Word) (w : Width) : Except Err Word :=
  if s.misaligned addr w then .error (.alignmentError addr w false)
  else .ok (composeLE (s.mem.readBytes s.params.xlen addr.toNat w.bytes))

/-- The address lies in the header of the block. -/
def Block.headerHas (b : Block) (hdrSize a : Nat) : Bool := b.base ≤ a && a < b.base + hdrSize

/-- One of the `n` bytes from `a` on lies in a header (R275). -/
def State.touchesHeader (s : State) : Nat → Nat → Bool
  | _, 0 => false
  | a, n + 1 =>
    s.blocks.any (·.headerHas s.params.hdrSize (s.params.xlen.addrMod a)) || s.touchesHeader (a + 1) n

/-- Bytes written by the program or the host: `mem` takes them, the model notes whether one fell into a
header (R275), and they are data from now on. -/
def State.writeData (s : State) (a : Nat) (bs : List Byte) : State :=
  { s with
    mem := s.mem.writeBytes s.params.xlen a bs
    headersTouched := s.headersTouched || s.touchesHeader a bs.length
    history := s.history.markRange s.params.xlen a bs.length .data }

/-- `MemWrite(addr, n, v)` (R67), `v` being the low `8n` bits of the value given. -/
def State.memWrite (s : State) (addr : Word) (w : Width) (v : Word) : Except Err State :=
  if s.misaligned addr w then .error (.alignmentError addr w true)
  else .ok (s.writeData addr.toNat (bytesLE w.bytes v))

/-! ### One operation per instruction shape -/

/-- Write `rd` and go on to `pc + 4` (R140, R170). -/
def writeBack (rd : RegId) (v : Word) (s : State) : Outcome := complete s.seqPc (s.setX rd v)

/-- Register-register (R170). -/
def opReg (f : (w : Nat) → BitVec w → BitVec w → BitVec w) (rd rs1 rs2 : RegId) (s : State) : Outcome :=
  writeBack rd (s.params.xlen.lift2 f (s.x rs1) (s.x rs2)) s

/-- Register-immediate (R140). -/
def opImm (f : (w : Nat) → BitVec w → BitVec w → BitVec w) (rd rs1 : RegId) (imm : BitVec 12)
    (s : State) : Outcome :=
  writeBack rd (s.params.xlen.lift2 f (s.x rs1) (s.imm12 imm)) s

/-- Shift by an immediate amount (R149 to R151), a value below `XLEN`. -/
def opShift (f : (w : Nat) → BitVec w → BitVec w → BitVec w) (rd rs1 : RegId) (shamt : BitVec 6)
    (s : State) : Outcome :=
  writeBack rd (s.params.xlen.lift2 f (s.x rs1) (shamt.setWidth 64)) s

/-- The `*W` instructions: 32-bit operation on the low halves, sign-extended (R152 to R155, R181 to R185). -/
def opWord (f : (w : Nat) → BitVec w → BitVec w → BitVec w) (rd rs1 : RegId) (b : BitVec 32)
    (s : State) : Outcome :=
  writeBack rd (s.params.xlen.sext (f 32 ((s.x rs1).setWidth 32) b)) s

/-- Loads (R221): the access first, then `rd`. -/
def opLoad (w : Width) (extend : Word → Word) (rd rs1 : RegId) (imm : BitVec 12) (s : State) : Outcome :=
  match s.memRead (s.ea rs1 imm) w with
  | .error e => takeFault e s
  | .ok v => writeBack rd (extend v) s

/-- Stores (R222). -/
def opStore (w : Width) (rs2 rs1 : RegId) (imm : BitVec 12) (s : State) : Outcome :=
  match s.memWrite (s.ea rs1 imm) w (s.x rs2) with
  | .error e => takeFault e s
  | .ok t => complete s.seqPc t

/-- A control transfer to `target` whose other effect leaves `t` (R201). -/
def transferTo (target : Word) (t s : State) : Outcome :=
  if target.toNat % 4 ≠ 0 then takeFault (.instrAddrMisaligned s.pc target) s else complete target t

/-- Conditional branches (R205). -/
def opBranch (cond : (w : Nat) → BitVec w → BitVec w → Bool) (rs1 rs2 : RegId) (off : BitVec 13)
    (s : State) : Outcome :=
  if s.params.xlen.compare cond (s.x rs1) (s.x rs2) then transferTo (s.relTarget off) s s
  else complete s.seqPc s

end Sys2Proof.Machine
end

