-- ==== Sys2Proof/Machine/Control.lean ====
section
/-! DEFINITION. Jumps and conditional branches (R200 to R211). -/

namespace Sys2Proof.Machine

/-- `JAL` (R203). -/
def execJal (rd : RegId) (off : BitVec 21) (s : State) : Outcome :=
  transferTo (s.relTarget off) (s.setX rd s.seqPc) s

/-- `JALR` (R204). The target is computed from the old `x[rs1]`. -/
def execJalr (rd rs1 : RegId) (imm : BitVec 12) (s : State) : Outcome :=
  transferTo (s.jalrTarget rs1 imm) (s.setX rd s.seqPc) s

/-- `BEQ` (R206). -/
def execBeq (rs1 rs2 : RegId) (off : BitVec 13) (s : State) : Outcome := opBranch cmpEq rs1 rs2 off s

/-- `BNE` (R207). -/
def execBne (rs1 rs2 : RegId) (off : BitVec 13) (s : State) : Outcome := opBranch cmpNe rs1 rs2 off s

/-- `BLT` (R208). -/
def execBlt (rs1 rs2 : RegId) (off : BitVec 13) (s : State) : Outcome := opBranch cmpLtS rs1 rs2 off s

/-- `BGE` (R209). -/
def execBge (rs1 rs2 : RegId) (off : BitVec 13) (s : State) : Outcome := opBranch cmpGeS rs1 rs2 off s

/-- `BLTU` (R210). -/
def execBltu (rs1 rs2 : RegId) (off : BitVec 13) (s : State) : Outcome := opBranch cmpLtU rs1 rs2 off s

/-- `BGEU` (R211). -/
def execBgeu (rs1 rs2 : RegId) (off : BitVec 13) (s : State) : Outcome := opBranch cmpGeU rs1 rs2 off s

end Sys2Proof.Machine
end

