-- ==== Sys2Proof/Machine/IntImmediate.lean ====
section
/-! DEFINITION. Integer instructions with an immediate operand (R140 to R155). -/

namespace Sys2Proof.Machine

/-- `LUI` (R141). -/
def execLui (rd : RegId) (imm : BitVec 20) (s : State) : Outcome := writeBack rd (s.immU imm) s

/-- `AUIPC` (R142). -/
def execAuipc (rd : RegId) (imm : BitVec 20) (s : State) : Outcome :=
  writeBack rd (s.add s.pc (s.immU imm)) s

/-- `ADDI` (R143). -/
def execAddi (rd rs1 : RegId) (imm : BitVec 12) (s : State) : Outcome := opImm aluAdd rd rs1 imm s

/-- `SLTI` (R144). -/
def execSlti (rd rs1 : RegId) (imm : BitVec 12) (s : State) : Outcome := opImm aluSlt rd rs1 imm s

/-- `SLTIU` (R145). -/
def execSltiu (rd rs1 : RegId) (imm : BitVec 12) (s : State) : Outcome := opImm aluSltu rd rs1 imm s

/-- `XORI` (R146). -/
def execXori (rd rs1 : RegId) (imm : BitVec 12) (s : State) : Outcome := opImm aluXor rd rs1 imm s

/-- `ORI` (R147). -/
def execOri (rd rs1 : RegId) (imm : BitVec 12) (s : State) : Outcome := opImm aluOr rd rs1 imm s

/-- `ANDI` (R148). -/
def execAndi (rd rs1 : RegId) (imm : BitVec 12) (s : State) : Outcome := opImm aluAnd rd rs1 imm s

/-- `SLLI` (R149). -/
def execSlli (rd rs1 : RegId) (shamt : BitVec 6) (s : State) : Outcome :=
  whenDecodable (.slli rd rs1 shamt) s (opShift aluSll rd rs1 shamt s)

/-- `SRLI` (R150). -/
def execSrli (rd rs1 : RegId) (shamt : BitVec 6) (s : State) : Outcome :=
  whenDecodable (.srli rd rs1 shamt) s (opShift aluSrl rd rs1 shamt s)

/-- `SRAI` (R151). -/
def execSrai (rd rs1 : RegId) (shamt : BitVec 6) (s : State) : Outcome :=
  whenDecodable (.srai rd rs1 shamt) s (opShift aluSra rd rs1 shamt s)

/-- `ADDIW` (R152). -/
def execAddiw (rd rs1 : RegId) (imm : BitVec 12) (s : State) : Outcome :=
  whenDecodable (.addiw rd rs1 imm) s (opWord aluAdd rd rs1 (imm.signExtend 32) s)

/-- `SLLIW` (R153). -/
def execSlliw (rd rs1 : RegId) (shamt : BitVec 5) (s : State) : Outcome :=
  whenDecodable (.slliw rd rs1 shamt) s (opWord aluSll rd rs1 (shamt.setWidth 32) s)

/-- `SRLIW` (R154). -/
def execSrliw (rd rs1 : RegId) (shamt : BitVec 5) (s : State) : Outcome :=
  whenDecodable (.srliw rd rs1 shamt) s (opWord aluSrl rd rs1 (shamt.setWidth 32) s)

/-- `SRAIW` (R155). -/
def execSraiw (rd rs1 : RegId) (shamt : BitVec 5) (s : State) : Outcome :=
  whenDecodable (.sraiw rd rs1 shamt) s (opWord aluSra rd rs1 (shamt.setWidth 32) s)

end Sys2Proof.Machine
end

