-- ==== Sys2Proof/Machine/IntRegister.lean ====
section
/-! DEFINITION. Integer register-register instructions (R170 to R185). -/

namespace Sys2Proof.Machine

/-- `ADD` (R171). -/
def execAdd (rd rs1 rs2 : RegId) (s : State) : Outcome := opReg aluAdd rd rs1 rs2 s

/-- `SUB` (R172). -/
def execSub (rd rs1 rs2 : RegId) (s : State) : Outcome := opReg aluSub rd rs1 rs2 s

/-- `SLL` (R173). -/
def execSll (rd rs1 rs2 : RegId) (s : State) : Outcome := opReg aluSll rd rs1 rs2 s

/-- `SLT` (R174). -/
def execSlt (rd rs1 rs2 : RegId) (s : State) : Outcome := opReg aluSlt rd rs1 rs2 s

/-- `SLTU` (R175). -/
def execSltu (rd rs1 rs2 : RegId) (s : State) : Outcome := opReg aluSltu rd rs1 rs2 s

/-- `XOR` (R176). -/
def execXor (rd rs1 rs2 : RegId) (s : State) : Outcome := opReg aluXor rd rs1 rs2 s

/-- `SRL` (R177). -/
def execSrl (rd rs1 rs2 : RegId) (s : State) : Outcome := opReg aluSrl rd rs1 rs2 s

/-- `SRA` (R178). -/
def execSra (rd rs1 rs2 : RegId) (s : State) : Outcome := opReg aluSra rd rs1 rs2 s

/-- `OR` (R179). -/
def execOr (rd rs1 rs2 : RegId) (s : State) : Outcome := opReg aluOr rd rs1 rs2 s

/-- `AND` (R180). -/
def execAnd (rd rs1 rs2 : RegId) (s : State) : Outcome := opReg aluAnd rd rs1 rs2 s

/-- `ADDW` (R181). -/
def execAddw (rd rs1 rs2 : RegId) (s : State) : Outcome :=
  whenDecodable (.addw rd rs1 rs2) s (opWord aluAdd rd rs1 ((s.x rs2).setWidth 32) s)

/-- `SUBW` (R182). -/
def execSubw (rd rs1 rs2 : RegId) (s : State) : Outcome :=
  whenDecodable (.subw rd rs1 rs2) s (opWord aluSub rd rs1 ((s.x rs2).setWidth 32) s)

/-- `SLLW` (R183). -/
def execSllw (rd rs1 rs2 : RegId) (s : State) : Outcome :=
  whenDecodable (.sllw rd rs1 rs2) s (opWord aluSll rd rs1 ((s.x rs2).setWidth 32) s)

/-- `SRLW` (R184). -/
def execSrlw (rd rs1 rs2 : RegId) (s : State) : Outcome :=
  whenDecodable (.srlw rd rs1 rs2) s (opWord aluSrl rd rs1 ((s.x rs2).setWidth 32) s)

/-- `SRAW` (R185). -/
def execSraw (rd rs1 rs2 : RegId) (s : State) : Outcome :=
  whenDecodable (.sraw rd rs1 rs2) s (opWord aluSra rd rs1 ((s.x rs2).setWidth 32) s)

end Sys2Proof.Machine
end

