-- ==== Sys2Proof/Machine/LoadStore.lean ====
section
/-! DEFINITION. Loads and stores (R220 to R233). -/

namespace Sys2Proof.Machine

/-- `LB` (R223). -/
def execLb (rd rs1 : RegId) (imm : BitVec 12) (s : State) : Outcome :=
  opLoad .byte (fun v => s.params.xlen.sext (v.setWidth 8)) rd rs1 imm s

/-- `LH` (R224). -/
def execLh (rd rs1 : RegId) (imm : BitVec 12) (s : State) : Outcome :=
  opLoad .half (fun v => s.params.xlen.sext (v.setWidth 16)) rd rs1 imm s

/-- `LW` (R225). -/
def execLw (rd rs1 : RegId) (imm : BitVec 12) (s : State) : Outcome :=
  opLoad .word (fun v => s.params.xlen.sext (v.setWidth 32)) rd rs1 imm s

/-- `LBU` (R226). -/
def execLbu (rd rs1 : RegId) (imm : BitVec 12) (s : State) : Outcome :=
  opLoad .byte (fun v => s.params.xlen.zext (v.setWidth 8)) rd rs1 imm s

/-- `LHU` (R227). -/
def execLhu (rd rs1 : RegId) (imm : BitVec 12) (s : State) : Outcome :=
  opLoad .half (fun v => s.params.xlen.zext (v.setWidth 16)) rd rs1 imm s

/-- `LWU` (R228). -/
def execLwu (rd rs1 : RegId) (imm : BitVec 12) (s : State) : Outcome :=
  whenDecodable (.lwu rd rs1 imm) s (opLoad .word (fun v => s.params.xlen.zext (v.setWidth 32)) rd rs1 imm s)

/-- `LD` (R229). -/
def execLd (rd rs1 : RegId) (imm : BitVec 12) (s : State) : Outcome :=
  whenDecodable (.ld rd rs1 imm) s (opLoad .long (fun v => v) rd rs1 imm s)

/-- `SB` (R230). -/
def execSb (rs2 rs1 : RegId) (imm : BitVec 12) (s : State) : Outcome :=
  opStore .byte rs2 rs1 imm s

/-- `SH` (R231). -/
def execSh (rs2 rs1 : RegId) (imm : BitVec 12) (s : State) : Outcome :=
  opStore .half rs2 rs1 imm s

/-- `SW` (R232). -/
def execSw (rs2 rs1 : RegId) (imm : BitVec 12) (s : State) : Outcome :=
  opStore .word rs2 rs1 imm s

/-- `SD` (R233). -/
def execSd (rs2 rs1 : RegId) (imm : BitVec 12) (s : State) : Outcome :=
  whenDecodable (.sd rs2 rs1 imm) s (opStore .long rs2 rs1 imm s)

end Sys2Proof.Machine
end

