-- ==== Sys2Proof/Machine/Allocator.lean ====
section
/-! DEFINITION. The allocator service (R270 to R297): the reference algorithm of the spec on the
abstract block list, with the free values the spec asks for. -/

namespace Sys2Proof.Machine

/-! ### The block list -/

/-- `payload(b)` (R272). -/
def Block.payload (b : Block) (hdrSize : Nat) : Nat := b.base + hdrSize

/-- `roundup(s)` (R276). -/
def roundUp (align size : Nat) : Nat := (size + align - 1) / align * align

/-- A block with what stands before and after it in the list. -/
structure Found where
  before : List Block
  block : Block
  after : List Block
deriving DecidableEq, Repr

/-- The first block in address order that a test accepts. -/
def findBlock (test : Block → Bool) : List Block → Option Found
  | [] => none
  | b :: bs =>
    if test b then some ⟨[], b, bs⟩
    else match findBlock test bs with
      | none => none
      | some f => some { f with before := b :: f.before }

/-- `lookup(addr)` (R276): the allocated block with that payload address. -/
def State.lookup (s : State) (addr : Nat) : Option Found :=
  findBlock (fun b => b.payload s.params.hdrSize == addr && !b.free) s.blocks

/-- The block and what follows it, after merging with the next one when that is free (R286). -/
def mergeNext (hdrSize : Nat) (b : Block) : List Block → List Block
  | [] => [b]
  | n :: rest =>
    if n.free then { b with size := b.size + hdrSize + n.size } :: rest else b :: n :: rest

/-- The list before a freed block joined with the list from it on, merging the two blocks that meet
when the one before is free (R286). -/
def mergePrev (hdrSize : Nat) : List Block → List Block → List Block
  | [], bs => bs
  | [p], b :: rest =>
    if p.free then { p with size := p.size + hdrSize + b.size } :: rest else p :: b :: rest
  | p :: ps, bs => p :: mergePrev hdrSize ps bs

/-! ### Effects on memory -/

/-- The history with the header bytes of blocks written as metadata (R274). -/
def History.markHeaders (h : History) (x : Xlen) (hdrSize : Nat) : List Block → History
  | [] => h
  | b :: bs => History.markHeaders (h.markRange x b.base hdrSize .metadata) x hdrSize bs

/-- The block list changes: the header bytes of the blocks that were in it, and of those that are, are
metadata; one that is in neither list keeps its origin (R274, U2). -/
def State.relist (s : State) (blocks : List Block) : State :=
  { s with
    blocks := blocks
    history := (s.history.markHeaders s.params.xlen s.params.hdrSize s.blocks).markHeaders
      s.params.xlen s.params.hdrSize blocks }

/-- Free bytes at the addresses whose origin is metadata, but for those that are kept; from draw `c` on. -/
def Memory.scramble (m : Memory) (keep : Nat → Bool) : History → Nat → Memory
  | [], _ => m
  | (a, o) :: rest, c =>
    Memory.scramble (if o = .metadata && !keep a then m.write a (Config.freeByte c) else m) keep rest (c + 1)

/-- At the end of an allocator call that is not one of those that change nothing, the bytes of headers hold unspecified values
(R274), those of headers since merged away among them (U2). -/
def State.refresh (s : State) (keep : Nat → Bool) : State :=
  { s with
    mem := s.mem.scramble keep s.history s.freeCount
    freeCount := s.freeCount + s.history.length }

/-- No byte is kept. -/
def keepNone (_ : Nat) : Bool := false

/-- Free bytes at those of `n` successive addresses that were written since reset, from draw `c` on. -/
def Memory.forget (m : Memory) (h : History) (x : Xlen) : Nat → Nat → Nat → Memory
  | _, 0, _ => m
  | a, n + 1, c =>
    Memory.forget (if (h.origin (x.addrMod a)).isSome then m.write (x.addrMod a) (Config.freeByte c) else m) h x
      (a + 1) n (c + 1)

/-- Memory the heap has used before is handed out without a zero-fill: its bytes hold any value, but for those
never written since reset (R278, U11, U12). -/
def State.forget (s : State) (a n : Nat) : State :=
  { s with
    mem := s.mem.forget s.history s.params.xlen a n s.freeCount
    freeCount := s.freeCount + n }

/-- `zero(b)` (R276): the whole payload, byte by byte. -/
def State.zeroPayload (s : State) (b : Block) : State :=
  { s with
    mem := s.mem.writeBytes s.params.xlen (b.payload s.params.hdrSize) (List.replicate b.size 0)
    history := s.history.markRange s.params.xlen (b.payload s.params.hdrSize) b.size .data }

/-- The loop of R284. -/
def State.copyPayload (s : State) (src dst n : Nat) : State :=
  { s with
    mem := s.mem.copyBytes s.params.xlen src dst n
    history := s.history.markRange s.params.xlen dst n .data }

/-! ### Allocation -/

/-- A free block handed out for `rs` bytes, split when it is larger than `rs + HDR_SIZE` (R277). -/
def carve (hdrSize rs : Nat) (b : Block) : Block × List Block :=
  if b.size > rs + hdrSize then
    ({ b with size := rs, free := false },
      [{ base := b.base + hdrSize + rs, size := b.size - rs - hdrSize, free := true }])
  else ({ b with free := false }, [])

/-- The last lines of `alloc` (R277): the block `b`, already in the list, is handed out. -/
def State.grant (s : State) (b : Block) (zeroFill reused : Bool) : State :=
  let t := { s with numActiveBlocks := s.numActiveBlocks + 1 }
  if zeroFill || t.alwaysCalloc then t.zeroPayload b
  else if reused then t.forget (b.payload t.params.hdrSize) b.size
  else t

/-- `alloc(size, zeroFill)` (R277), but for the header bytes: first fit, else the high-water mark; `none` is
out of space. The block handed out stands beside the state. -/
def State.alloc (s : State) (size : Nat) (zeroFill : Bool) : Option (State × Block) :=
  let rs := roundUp s.params.allocAlign size
  match findBlock (fun b => b.free && rs ≤ b.size) s.blocks with
  | some f =>
    let c := carve s.params.hdrSize rs f.block
    some ((s.relist (f.before ++ c.1 :: (c.2 ++ f.after))).grant c.1 zeroFill true, c.1)
  | none =>
    if s.hwm + s.params.hdrSize + rs > s.params.heapLimit then none
    else
      let b : Block := { base := s.hwm, size := rs, free := false }
      some (State.grant { s.relist (s.blocks ++ [b]) with hwm := s.hwm + s.params.hdrSize + rs } b zeroFill false, b)

/-- `malloc` and `calloc` of any size: NULL with nothing changed when out of space (R277). -/
def State.allocate (s : State) (size : Nat) (zeroFill : Bool) : State × Nat :=
  match s.alloc size zeroFill with
  | none => (s, 0)
  | some r => (r.1.refresh keepNone, r.2.payload s.params.hdrSize)

/-- One more free value is drawn. -/
def State.draw (s : State) : State := { s with freeCount := s.freeCount + 1 }

/-- A zero-size request answers NULL (U9): the list is as before, but the call may leave new bytes in the
metadata, as any allocator call may (U2). -/
def State.answerNull (s : State) : State × Nat := (s.draw.refresh keepNone, 0)

/-- `malloc` and `calloc`: a zero-size request may answer NULL instead (U9). -/
def State.request (s : State) (size : Nat) (zeroFill : Bool) : State × Nat :=
  if size = 0 then
    if Config.freeNull s.freeCount then s.answerNull else s.draw.allocate size zeroFill
  else s.allocate size zeroFill

/-! ### Freeing and resizing -/

/-- `free` of a block that was looked up, but for the header bytes (R286). -/
def State.release (s : State) (f : Found) : State :=
  { s.relist (mergePrev s.params.hdrSize f.before
      (mergeNext s.params.hdrSize { f.block with free := true } f.after)) with
    numActiveBlocks := s.numActiveBlocks - 1 }

/-- `free` of a block that was looked up (R286). -/
def State.freeBlock (s : State) (f : Found) : State := (s.release f).refresh keepNone

/-- How many payload bytes the block could have without moving: its own and those of a free block
right after it with that block's header (R282). -/
def Found.capacity (f : Found) (hdrSize : Nat) : Nat :=
  match f.after with
  | n :: _ => if n.free then f.block.size + hdrSize + n.size else f.block.size
  | [] => f.block.size

/-- The list after the block and the space it could grow into. -/
def Found.beyond (f : Found) : List Block :=
  match f.after with
  | n :: rest => if n.free then rest else n :: rest
  | [] => []

/-- How much of the capacity an in-place `realloc` keeps is a free value (U10): all of it, or any size from
the rounded request on that leaves room for a free block behind it. -/
def State.keptSize (s : State) (f : Found) (rs : Nat) : Nat :=
  let keep := rs + s.params.allocAlign * Config.freeKeep s.freeCount
  if keep + s.params.hdrSize ≤ f.capacity s.params.hdrSize then keep else f.capacity s.params.hdrSize

/-- What an in-place `realloc` gives back of the capacity. -/
def Found.excess (f : Found) (hdrSize keep : Nat) : List Block :=
  if keep + hdrSize ≤ f.capacity hdrSize then
    [{ base := f.block.base + hdrSize + keep, size := f.capacity hdrSize - keep - hdrSize, free := true }]
  else []

/-- In-place `realloc` (R282): the first `min(old size, newSize)` payload bytes are kept, and the grown tail
is memory the heap has used before (U12). -/
def State.resizeInPlace (s : State) (f : Found) (newSize : Nat) : State :=
  let size := s.keptSize f (roundUp s.params.allocAlign newSize)
  let start := f.block.payload s.params.hdrSize
  let t := s.draw.relist
    (f.before ++ { f.block with size := size } :: (f.excess s.params.hdrSize size ++ f.beyond))
  (t.forget (start + f.block.size) (size - f.block.size)).refresh
    (fun a => start ≤ a && a < start + min f.block.size newSize)

/-- Moving `realloc` (R284, R285): a new block, the copy, then the old block is freed. -/
def State.resizeMoving (s : State) (f : Found) (newSize : Nat) : State × Nat :=
  let address := f.block.payload s.params.hdrSize
  match s.alloc newSize false with
  | none => (s, 0)
  | some r =>
    let p := r.2.payload s.params.hdrSize
    let t := r.1.copyPayload address p (min f.block.size newSize)
    match t.lookup address with
    | some g => (t.freeBlock g, p)
    | none => (t, p)

/-- `realloc` of an allocated block (R282, R284, R285); a zero-size request may answer NULL
instead (U9). -/
def State.resize (s : State) (f : Found) (newSize : Nat) : State × Nat :=
  if newSize = 0 && Config.freeNull s.freeCount then s.answerNull
  else if roundUp s.params.allocAlign newSize ≤ f.capacity s.params.hdrSize then
    (s.resizeInPlace f newSize, f.block.payload s.params.hdrSize)
  else s.resizeMoving f newSize

/-! ### The service as the `ECALL` drives it -/

/-- The operations of R254. -/
inductive AllocOp where
  | malloc
  | calloc
  | realloc
  | free
  | count
deriving DecidableEq, Repr

/-- `a6` selects the operation (R252, R254). -/
def AllocOp.ofSelector (a6 : Word) : Option AllocOp :=
  if a6 = 1 then some .malloc
  else if a6 = 2 then some .calloc
  else if a6 = 3 then some .realloc
  else if a6 = 4 then some .free
  else if a6 = 5 then some .count
  else none

/-- The block that the operation's pointer argument names: none needed (no pointer, or NULL), a block,
or an invalid pointer (R296). -/
inductive Pointer where
  | null
  | block (f : Found)
  | invalid
deriving DecidableEq, Repr

/-- The pointer argument `a1` of `realloc` and `free` (R281, R286, R296). -/
def State.pointerArg (s : State) (op : AllocOp) : Pointer :=
  match op with
  | .realloc | .free =>
    if s.x 11 = 0 then .null
    else match s.lookup (s.x 11).toNat with
      | some f => .block f
      | none => .invalid
  | .malloc | .calloc | .count => .null

/-- Some metadata access of the service may be misaligned while enforcement is on (R290). -/
def State.metadataMisaligned (s : State) : Bool :=
  let n := s.params.xlen.bits / 8
  s.alignedAddresses &&
    !(s.params.heapBase % n == 0 && s.params.hdrSize % n == 0 && s.params.allocAlign % n == 0)

/-- The width in the fault of R290: 2, 4 or, when `XLEN = 64`, 8 (R350). -/
def metadataFaultWidth (x : Xlen) : Width → Width
  | .byte => .half
  | .half => .half
  | .word => .word
  | .long => match x with
    | .rv32 => .word
    | .rv64 => .long

/-- The `AlignmentError` of R290: at an address that depends on the unknown layout. The address and
the width are free but for what an `AlignmentError` always has, an address that is no multiple of
the width. -/
def State.metadataFault (s : State) : Err :=
  let w := metadataFaultWidth s.params.xlen (Config.freeFaultWidth s.freeCount)
  let a := s.params.xlen.narrow (Config.freeFaultAddr s.freeCount)
  .alignmentError (if a.toNat % w.bytes = 0 then a + 1 else a) w (Config.freeFaultIsStore s.freeCount)

/-- The operation returns a value in `a0` (R254). -/
def returnA0 (s : State) (r : State × Nat) : Outcome :=
  complete s.seqPc (r.1.setX 10 (s.params.xlen.narrow (BitVec.ofNat 64 r.2)))

/-- The operation itself (R252), its pointer argument checked. -/
def runService (op : AllocOp) (p : Pointer) (s : State) : Outcome :=
  match op, p with
  | .malloc, _ => returnA0 s (s.request (s.x 11).toNat false)
  | .calloc, _ => returnA0 s (s.request (s.x 11).toNat true)
  | .realloc, .block f => returnA0 s (s.resize f (s.x 12).toNat)
  | .realloc, _ => returnA0 s (s.request (s.x 12).toNat false)
  | .free, .block f => complete s.seqPc (s.freeBlock f)
  | .free, _ => complete s.seqPc s
  | .count, _ => returnA0 s (s, s.numActiveBlocks)

/-- An allocator call: the checks in the order of R362, the refusal of R275 before them. -/
def allocatorCall (op : AllocOp) (s : State) : Outcome :=
  if s.headersTouched then .refused .headerOverwritten
  else match s.pointerArg op with
    | .invalid => takeFault (.invalidFree s.pc (s.x 11)) s
    | p => if s.metadataMisaligned then takeFault s.metadataFault s else runService op p s

end Sys2Proof.Machine
end

