-- ==== Sys2Proof/Machine/System.lean ====
section
/-! DEFINITION. `FENCE`, `ECALL` and `EBREAK` (R250 to R256). -/

namespace Sys2Proof.Machine

/-- `FENCE` (R250): no operation; every field is ignored. -/
def execFence (_fm _pred _succ : BitVec 4) (_rs1 _rd : RegId) (s : State) : Outcome :=
  complete s.seqPc s

/-- The terminating call (R253): it completes, then the engine halts with `err` as it is. -/
def exitCall (s : State) : Outcome := complete s.seqPc s.halt

/-- `UnsupportedEcall` (R256). -/
def unsupportedCall (s : State) : Outcome :=
  takeFault (.unsupportedEcall s.pc (s.x 10) (s.x 16)) s

/-- `ECALL` (R251, R252). -/
def execEcall (s : State) : Outcome :=
  if s.x 10 = s.params.exitA0 then exitCall s
  else if s.params.hasAllocService && s.x 10 == s.params.allocMarker then
    match AllocOp.ofSelector (s.x 16) with
    | some op => allocatorCall op s
    | none => unsupportedCall s
  else unsupportedCall s

/-- `EBREAK` when it is executed (R255 b): no operation. The pause (R255 a) is the engine's and
stands in Machine/Engine.lean. -/
def execEbreak (s : State) : Outcome := complete s.seqPc s

end Sys2Proof.Machine
end

