-- ==== Sys2Proof/Machine/Fetch.lean ====
section
/-! DEFINITION. Instruction fetch (R82) and placing a word where it is fetched. -/

namespace Sys2Proof.Machine

/-- `pc` lies in the program text (R82, R355). -/
def State.inText (s : State) : Bool :=
  s.params.textBase ≤ s.pc.toNat && (s.pc.toNat - s.params.textBase) / 4 < s.params.imem.length

/-- `Fetch(pc)` (R82): the program text is never in `mem` (R33, R84). -/
def State.fetch (s : State) : Except Err InstrWord :=
  if s.pc.toNat % 4 ≠ 0 then .error (.instrAddrMisaligned s.pc s.pc)
  else if s.pc.toNat < s.params.textBase then .error (.fetchFault s.pc)
  else match s.params.imem[(s.pc.toNat - s.params.textBase) / 4]? with
    | some w => .ok w
    | none => .error (.fetchFault s.pc)

/-- The parameters with the word at `pc` replaced; a `pc` outside the text gets a one-word text of
its own. The step guard is taken off. -/
def Params.withWordAt (p : Params) (pc : Nat) (inText : Bool) (w : InstrWord) : Params :=
  if inText then { p with imem := p.imem.set ((pc - p.textBase) / 4) w, maxSteps := none }
  else { p with textBase := pc, imem := [w], maxSteps := none }

/-- The state in which the very next step fetches and runs the word: the word at `pc`, and the command
`RUN` in progress (resuming, where `RUN` would otherwise pause at a breakpoint). -/
def State.placeWord (s : State) (w : InstrWord) : State :=
  { s with
    params := Params.withWordAt s.params s.pc.toNat s.inText w
    runState := .running .run s.params.runStopsAtBreakpoint }

end Sys2Proof.Machine
end

