-- ==== Sys2Proof/Machine/Engine.lean ====
section
/-! DEFINITION. The command loop (R314 to R323) around one instruction: what comes before it (`loopHead`)
and after it (`finish`). One pass of the loop is one step of the model. -/

namespace Sys2Proof.Machine

/-- The step guard holds the engine back (R323). -/
def State.stepLimitReached (s : State) : Bool :=
  match s.params.maxSteps with
  | some m => m ≤ s.cycles.toNat
  | none => false

/-- The command honours breakpoints (R315, R319). -/
def State.honours (s : State) : Command → Bool
  | .step => true
  | .runToBp => true
  | .run => s.params.runStopsAtBreakpoint

/-- What a pass of the loop does before an instruction executes: it ends there, or an instruction runs. -/
inductive LoopHead where
  | stop (o : Outcome)
  | run (i : Instr)

/-- The loop up to `ExecuteOne` (R317), in the order of R362: step guard, fetch, decode, pause. -/
def loopHead (c : Command) (resume : Bool) (s : State) : LoopHead :=
  if s.stepLimitReached then .stop (takeFault (.stepLimitExceeded s.cycles) s)
  else match s.fetch with
    | .error e => .stop (takeFault e s)
    | .ok w => match decode s.params.xlen w with
      | .error _ => .stop (takeFault (.decodeError s.pc w) s)
      | .ok i =>
        if i = .ebreak ∧ s.honours c = true ∧ resume = false then
          .stop (.next { s with runState := .atBreakpoint })
        else .run i

/-- The run state after an instruction of command `c` (R317): Halted stays, `STEP` ends in Ready, the
others go on, no longer resuming. -/
def State.settle (s : State) (c : Command) : State :=
  { s with
    runState := match s.runState, c with
      | .halted, _ => .halted
      | _, .step => .ready
      | _, .run => .running .run false
      | _, .runToBp => .running .runToBp false }

/-- The loop after `ExecuteOne` (R317). -/
def finish (c : Command) : Outcome → Outcome
  | .next t => .next (t.settle c)
  | .fault r => .fault r
  | .refused r => .refused r

end Sys2Proof.Machine
end

