-- ==== Sys2Proof/Machine/Ports.lean ====
section
/-! DEFINITION. The host ports (R314, R330 to R337): what the engine does with a request while it is not
Running. -/

namespace Sys2Proof.Machine

/-- The numeric code of `err` (R350). -/
def Err.code : Err → Nat
  | .none => 0
  | .alignmentError _ _ _ => 1
  | .decodeError _ _ => 2
  | .fetchFault _ => 3
  | .instrAddrMisaligned _ _ => 4
  | .unsupportedEcall _ _ _ => 5
  | .invalidFree _ _ => 6
  | .stepLimitExceeded _ => 7

/-- `wordOffsetMask(addr)` (R75). -/
def wordOffsetMask (addr : Word) : BitVec 32 := 0xFF#32 <<< (8 * (addr.toNat % 4))

/-- A port answers. -/
def State.reply (s : State) (r : PortReply) : State := { s with replies := s.replies ++ [r] }

/-- The host issues a request; it is served when those before it are and the engine is not Running. -/
def State.issue (s : State) (r : PortRequest) : State := { s with requests := s.requests ++ [r] }

/-- A command is accepted (R314, R316, R317): from Halted nothing happens (R320); from AtBreakpoint its
first instruction resumes (R316). -/
def State.accept (s : State) (c : Command) : State :=
  match s.runState with
  | .halted => s
  | .atBreakpoint => { s with runState := .running c true }
  | .ready => { s with runState := .running c false }
  | .running c' resume => { s with runState := .running c' resume }

/-- `RESET` (R336, R391): every piece of state as after construction; the host's script and what it was
told are not the machine's and stay. -/
def State.resetByHost (s : State) : State :=
  { State.ofParams s.params with requests := s.requests, replies := s.replies }

/-- The fault of a host memory request is answered, not latched (R369). -/
def State.replyErr (s : State) : Err → State
  | .alignmentError a w st => s.reply (.alignmentError a w st)
  | .none | .decodeError _ _ | .fetchFault _ | .instrAddrMisaligned _ _ | .unsupportedEcall _ _ _
  | .invalidFree _ _ | .stepLimitExceeded _ => s

/-- A host load (R332). -/
def hostLoad (w : Width) (a : Word) (s : State) : State :=
  match s.memRead a w with
  | .ok v => s.reply (.data v)
  | .error e => s.replyErr e

/-- A host store (R332). -/
def hostStore (w : Width) (a v : Word) (s : State) : State :=
  match s.memWrite a w v with
  | .ok t => t
  | .error e => s.replyErr e

/-- An 8-byte request exists only when `XLEN = 64` (R62, R63). -/
def widthServed (x : Xlen) : Width → Bool
  | .long => x == .rv64
  | .byte | .half | .word => true

/-- One request. Addresses are `XLEN`-bit values (R62). -/
def servePort (r : PortRequest) (s : State) : Outcome :=
  let n := s.params.xlen.narrow
  match r with
  | .reset => .next s.resetByHost
  | .command c => .next (s.accept c)
  | .getReg i => .next (s.reply (.value (s.x i)))
  | .getPC => .next (s.reply (.value s.pc))
  | .getCycles => .next (s.reply (.cycles s.cycles))
  | .getState => .next (s.reply (.runState s.runState))
  | .getErr => .next (s.reply (.err s.err.code s.err))
  | .getNumActiveBlocks => .next (s.reply (.count s.numActiveBlocks))
  | .getAlignedAddresses => .next (s.reply (.flag s.alignedAddresses))
  | .getAlwaysCalloc => .next (s.reply (.flag s.alwaysCalloc))
  | .load w a =>
    if widthServed s.params.xlen w then .next (hostLoad w (n a) s) else .refused .longAccessOnRv32
  | .store w a v =>
    if widthServed s.params.xlen w then .next (hostStore w (n a) v s) else .refused .longAccessOnRv32
  | .removeByte a => .next (s.writeData (n a).toNat [0])
  | .wordOffsetMask a => .next (s.reply (.mask (wordOffsetMask a)))
  | .setAlignedAddresses b => .next { s with alignedAddresses := b }
  | .setAlwaysCalloc b => .next { s with alwaysCalloc := b }

/-- The engine is not Running: the host's next request is served; with none, nothing happens (R394). -/
def serveHost (s : State) : Outcome :=
  match s.requests with
  | [] => .next s
  | r :: rs => servePort r { s with requests := rs }

end Sys2Proof.Machine
end

