-- ==== Sys2Proof/Machine/Step.lean ====
section
/-! DEFINITION. One step: while Running, one pass of the command loop (R317); otherwise, one request of
the host (R314, R337). -/

namespace Sys2Proof.Machine

def step (s : State) : Host.Outcome State Fault Refusal :=
  match s.runState with
  | .running c resume =>
    match loopHead c resume s with
    | .stop o => o
    | .run i => finish c (exec i s)
  | .ready => serveHost s
  | .atBreakpoint => serveHost s
  | .halted => serveHost s

/-- The state whose very next step fetches and runs the word (notes/assumptions/4.md). The word is the
one of spec/opcode_table.json with the bits from `nbits` on zero. -/
def State.withFetchWord (s : State) (nbits w : Nat) : State :=
  s.placeWord (BitVec.ofNat 32 (w % 2 ^ nbits))

end Sys2Proof.Machine
end

