-- ==== Sys2Proof/Safety.lean ====
section
/-! DEFINITION. The terms claims use: how a run has ended (R326), which values are `XLEN`-bit values, the
allocator's invariants (R273), the invariant of the whole machine, and the frames of instructions. -/

namespace Sys2Proof

/-- The register an instruction may write: the destination field, `a0` for `ECALL` (R23). -/
def Instr.destination : Instr → Option RegId
  | .lui rd _ | .auipc rd _ | .jal rd _ | .jalr rd _ _ => some rd
  | .lb rd _ _ | .lh rd _ _ | .lw rd _ _ | .ld rd _ _ | .lbu rd _ _ | .lhu rd _ _ | .lwu rd _ _ => some rd
  | .addi rd _ _ | .slti rd _ _ | .sltiu rd _ _ | .xori rd _ _ | .ori rd _ _ | .andi rd _ _ => some rd
  | .slli rd _ _ | .srli rd _ _ | .srai rd _ _ | .addiw rd _ _ => some rd
  | .slliw rd _ _ | .srliw rd _ _ | .sraiw rd _ _ => some rd
  | .add rd _ _ | .sub rd _ _ | .sll rd _ _ | .slt rd _ _ | .sltu rd _ _ => some rd
  | .xor rd _ _ | .srl rd _ _ | .sra rd _ _ | .or rd _ _ | .and rd _ _ => some rd
  | .addw rd _ _ | .subw rd _ _ | .sllw rd _ _ | .srlw rd _ _ | .sraw rd _ _ => some rd
  | .ecall => some 10
  | .beq _ _ _ | .bne _ _ _ | .blt _ _ _ | .bge _ _ _ | .bltu _ _ _ | .bgeu _ _ _ => none
  | .sb _ _ _ | .sh _ _ _ | .sw _ _ _ | .sd _ _ _ => none
  | .fence _ _ _ _ _ | .ebreak => none

/-- The instruction may write data memory: a store or `ECALL` (R34). -/
def Instr.mayWriteMem : Instr → Bool
  | .sb _ _ _ | .sh _ _ _ | .sw _ _ _ | .sd _ _ _ | .ecall => true
  | .lui _ _ | .auipc _ _ => false
  | .jal _ _ | .jalr _ _ _ => false
  | .beq _ _ _ | .bne _ _ _ | .blt _ _ _ | .bge _ _ _ | .bltu _ _ _ | .bgeu _ _ _ => false
  | .lb _ _ _ | .lh _ _ _ | .lw _ _ _ | .ld _ _ _ | .lbu _ _ _ | .lhu _ _ _ | .lwu _ _ _ => false
  | .addi _ _ _ | .slti _ _ _ | .sltiu _ _ _ | .xori _ _ _ | .ori _ _ _ | .andi _ _ _ => false
  | .slli _ _ _ | .srli _ _ _ | .srai _ _ _ | .addiw _ _ _ => false
  | .slliw _ _ _ | .srliw _ _ _ | .sraiw _ _ _ => false
  | .add _ _ _ | .sub _ _ _ | .sll _ _ _ | .slt _ _ _ | .sltu _ _ _ => false
  | .xor _ _ _ | .srl _ _ _ | .sra _ _ _ | .or _ _ _ | .and _ _ _ => false
  | .addw _ _ _ | .subw _ _ _ | .sllw _ _ _ | .srlw _ _ _ | .sraw _ _ _ => false
  | .fence _ _ _ _ _ | .ebreak => false

/-- A jump or a conditional branch (R26). -/
def Instr.isTransfer : Instr → Bool
  | .jal _ _ | .jalr _ _ _ => true
  | .beq _ _ _ | .bne _ _ _ | .blt _ _ _ | .bge _ _ _ | .bltu _ _ _ | .bgeu _ _ _ => true
  | .lui _ _ | .auipc _ _ => false
  | .lb _ _ _ | .lh _ _ _ | .lw _ _ _ | .ld _ _ _ | .lbu _ _ _ | .lhu _ _ _ | .lwu _ _ _ => false
  | .addi _ _ _ | .slti _ _ _ | .sltiu _ _ _ | .xori _ _ _ | .ori _ _ _ | .andi _ _ _ => false
  | .slli _ _ _ | .srli _ _ _ | .srai _ _ _ | .addiw _ _ _ => false
  | .slliw _ _ _ | .srliw _ _ _ | .sraiw _ _ _ => false
  | .add _ _ _ | .sub _ _ _ | .sll _ _ _ | .slt _ _ _ | .sltu _ _ _ => false
  | .xor _ _ _ | .srl _ _ _ | .sra _ _ _ | .or _ _ _ | .and _ _ _ => false
  | .addw _ _ _ | .subw _ _ _ | .sllw _ _ _ | .srlw _ _ _ | .sraw _ _ _ => false
  | .sb _ _ _ | .sh _ _ _ | .sw _ _ _ | .sd _ _ _ => false
  | .fence _ _ _ _ _ | .ecall | .ebreak => false

end Sys2Proof

namespace Sys2Proof.Machine

/-! ### How a run has ended (R326) -/

/-- The run has ended. -/
def State.ended (s : State) : Bool := s.runState == .halted

/-- The run has ended cleanly. -/
def State.endedCleanly (s : State) : Bool := s.ended && s.err == .none

/-- The run has ended in a fault. -/
def State.faulted (s : State) : Bool := s.ended && s.err != .none

/-- A command is in progress. -/
def State.isRunning (s : State) : Bool :=
  match s.runState with
  | .running _ _ => true
  | .ready => false
  | .atBreakpoint => false
  | .halted => false

/-! ### Values -/

/-- The signed reading of the low `XLEN` bits (R7). -/
def signedValue (x : Xlen) (v : Word) : Int := (v.toNat : Int).bmod (2 ^ x.bits)

/-- The unsigned reading of the low `XLEN` bits (R7). -/
def unsignedValue (x : Xlen) (v : Word) : Nat := v.toNat % 2 ^ x.bits

/-- Every register and `pc` hold an `XLEN`-bit value, and `pc` is a multiple of 4 (R20, R24, R27). -/
def State.canonical (s : State) : Bool :=
  s.regs.toList.all (fun v => decide (v.toNat < 2 ^ s.params.xlen.bits))
    && decide (s.pc.toNat < 2 ^ s.params.xlen.bits) && s.pc.toNat % 4 == 0

/-! ### The allocator's invariants (R273) -/

/-- The blocks tile the addresses from `lo` to `hi`. -/
def tiles (hdrSize : Nat) : Nat → List Block → Nat → Bool
  | lo, [], hi => lo == hi
  | lo, b :: bs, hi => b.base == lo && tiles hdrSize (lo + hdrSize + b.size) bs hi

/-- No two neighbours are both free. -/
def coalesced : List Block → Bool
  | b :: c :: rest => !(b.free && c.free) && coalesced (c :: rest)
  | _ => true

/-- R273. -/
def State.heapOk (s : State) : Bool :=
  tiles s.params.hdrSize s.params.heapBase s.blocks s.hwm
    && decide (s.params.heapBase ≤ s.hwm) && decide (s.hwm ≤ s.params.heapLimit)
    && coalesced s.blocks && s.numActiveBlocks == s.blocks.countP (fun b => !b.free)

/-! ### The invariant of the machine -/

/-- Metadata is where the heap is (R274). -/
def State.metadataInHeap (s : State) : Bool :=
  s.history.all (fun p => p.2 == .data || (decide (s.params.heapBase ≤ p.1) && decide (p.1 < s.hwm)))

/-- The parameters are valid, memory and its history are canonical, registers and `pc` are `XLEN`-bit values,
`pc` is aligned, the allocator's invariants hold, metadata lies in the heap, and a fault is latched only when
Halted (R36, R37). -/
def State.inv (s : State) : Bool :=
  s.params.valid && s.mem.wf && s.mem.within s.params.xlen && s.canonical && s.heapOk
    && s.history.wf && s.metadataInHeap
    && (s.runState == .halted || s.err == .none)

/-! ### Numbers claims speak of -/

/-- An integer taken modulo `2^XLEN` (R7). -/
def wrap (x : Xlen) (z : Int) : Nat := (z % ((2 ^ x.bits : Nat) : Int)).toNat

/-- The value of `x[r]` read as unsigned (R7). -/
def State.u (s : State) (r : RegId) : Nat := unsignedValue s.params.xlen (s.x r)

/-- The value of `x[r]` read as signed (R7). -/
def State.i (s : State) (r : RegId) : Int := signedValue s.params.xlen (s.x r)

/-- `pc + 4` modulo `2^XLEN` (R26). -/
def State.pcPlus4 (s : State) : Nat := (s.pc.toNat + 4) % 2 ^ s.params.xlen.bits

/-- The number of `n` bytes from address `a` on, the lowest address least significant (R65, R68). -/
def State.bytesValue (s : State) : Nat → Nat → Nat
  | _, 0 => 0
  | a, n + 1 =>
    (s.mem.read (a % 2 ^ s.params.xlen.bits)).toNat + 256 * s.bytesValue (a + 1) n

/-- The effective address of a load or store (R220). -/
def State.eaNat (s : State) (rs1 : RegId) (imm : BitVec 12) : Nat :=
  wrap s.params.xlen (s.u rs1 + imm.toInt)

/-- The cycle counter is below its last value, so an instruction can complete (R29). -/
def State.notFull (s : State) : Prop := s.cycles.toNat + 1 < 2 ^ 64

/-- The access is not held back by the alignment rule (R70). -/
def State.allowed (s : State) (a n : Nat) : Prop := s.alignedAddresses = false ∨ a % n = 0

/-- The step guard lets the engine start an instruction (R323). -/
def State.underLimit (s : State) : Prop := ∀ m, s.params.maxSteps = some m → s.cycles.toNat < m

/-- The word of the program text at `pc` is `w` (R33, R82). -/
def State.Fetches (s : State) (w : InstrWord) : Prop :=
  s.pc.toNat % 4 = 0 ∧ s.params.textBase ≤ s.pc.toNat ∧
    s.params.imem[(s.pc.toNat - s.params.textBase) / 4]? = some w

/-- The instruction transfers control when it completes: a jump, or a branch whose comparison holds (R26, R205). -/
def State.Transfers (s : State) (i : Instr) : Prop :=
  match i with
  | .jal _ _ | .jalr _ _ _ => True
  | .beq rs1 rs2 _ => s.u rs1 = s.u rs2
  | .bne rs1 rs2 _ => s.u rs1 ≠ s.u rs2
  | .blt rs1 rs2 _ => s.i rs1 < s.i rs2
  | .bge rs1 rs2 _ => s.i rs2 ≤ s.i rs1
  | .bltu rs1 rs2 _ => s.u rs1 < s.u rs2
  | .bgeu rs1 rs2 _ => s.u rs2 ≤ s.u rs1
  | .lui _ _ | .auipc _ _ => False
  | .lb _ _ _ | .lh _ _ _ | .lw _ _ _ | .ld _ _ _ | .lbu _ _ _ | .lhu _ _ _ | .lwu _ _ _ => False
  | .sb _ _ _ | .sh _ _ _ | .sw _ _ _ | .sd _ _ _ => False
  | .addi _ _ _ | .slti _ _ _ | .sltiu _ _ _ | .xori _ _ _ | .ori _ _ _ | .andi _ _ _ => False
  | .slli _ _ _ | .srli _ _ _ | .srai _ _ _ | .addiw _ _ _ => False
  | .slliw _ _ _ | .srliw _ _ _ | .sraiw _ _ _ => False
  | .add _ _ _ | .sub _ _ _ | .sll _ _ _ | .slt _ _ _ | .sltu _ _ _ => False
  | .xor _ _ _ | .srl _ _ _ | .sra _ _ _ | .or _ _ _ | .and _ _ _ => False
  | .addw _ _ _ | .subw _ _ _ | .sllw _ _ _ | .srlw _ _ _ | .sraw _ _ _ => False
  | .fence _ _ _ _ _ | .ecall | .ebreak => False

/-! ### Frames and effects of instructions -/

/-- What the byte was last written as, since reset. -/
def State.origin (s : State) (a : Nat) : Option Origin := s.history.origin a

/-- Every byte of memory, the note of touched headers and the history are as before. -/
def SameMem (s t : State) : Prop :=
  (∀ a, t.mem.read a = s.mem.read a) ∧ t.headersTouched = s.headersTouched ∧ t.history = s.history

/-- A header is noted as touched when it was before, or when one of the `n` bytes written from address `a` on
lies in a header of the list (R275). -/
def NotesHeaders (s t : State) (a n : Nat) : Prop :=
  t.headersTouched = true ↔ s.headersTouched = true ∨ ∃ k, k < n ∧ ∃ b ∈ s.blocks,
    b.base ≤ (a + k) % 2 ^ s.params.xlen.bits
      ∧ (a + k) % 2 ^ s.params.xlen.bits < b.base + s.params.hdrSize

/-- The `n` bytes from address `a` on are data from now on, and the history of every other byte is as before. -/
def RecordsData (s t : State) (a n : Nat) : Prop :=
  (∀ k, k < n → t.origin ((a + k) % 2 ^ s.params.xlen.bits) = some .data)
    ∧ ∀ c, (∀ k, k < n → c ≠ (a + k) % 2 ^ s.params.xlen.bits) → t.origin c = s.origin c

/-- The allocator's state is as before. -/
def SameHeap (s t : State) : Prop :=
  t.blocks = s.blocks ∧ t.hwm = s.hwm ∧ t.numActiveBlocks = s.numActiveBlocks
    ∧ t.freeCount = s.freeCount

/-- Parameters (the program text among them), run state, fault latch, configuration registers and the
host's queues are as before. -/
def SameControl (s t : State) : Prop :=
  t.params = s.params ∧ t.runState = s.runState ∧ t.err = s.err
    ∧ t.alignedAddresses = s.alignedAddresses ∧ t.alwaysCalloc = s.alwaysCalloc
    ∧ t.requests = s.requests ∧ t.replies = s.replies

/-- One instruction was counted, and the next one is at `next` (R26, R28). -/
def Counted (s t : State) (next : Nat) : Prop :=
  t.pc.toNat = next ∧ t.cycles.toNat = s.cycles.toNat + 1

/-- The instruction completes: `x[rd]` becomes `v` (discarded for `x0`, R21), control goes to `next`,
and nothing else changes. -/
def WritesReg (i : Instr) (s : State) (rd : RegId) (v next : Nat) : Prop :=
  ∃ t, exec i s = .next t ∧ (t.x rd).toNat = (if rd = 0 then 0 else v)
    ∧ (∀ r, r ≠ rd → t.x r = s.x r) ∧ Counted s t next
    ∧ SameMem s t ∧ SameHeap s t ∧ SameControl s t

/-- The instruction completes, control goes to `next`, and nothing else changes. -/
def GoesTo (i : Instr) (s : State) (next : Nat) : Prop :=
  ∃ t, exec i s = .next t ∧ (∀ r, t.x r = s.x r) ∧ Counted s t next
    ∧ SameMem s t ∧ SameHeap s t ∧ SameControl s t

/-- The instruction completes: the `n` bytes from address `a` on become those of `v`, the least
significant first (R67), every other byte of memory is as before, and so is everything else; a byte
stored into a header is noted (R275). -/
def StoresBytes (i : Instr) (s : State) (a n v : Nat) : Prop :=
  ∃ t, exec i s = .next t ∧ (∀ r, t.x r = s.x r) ∧ Counted s t s.pcPlus4
    ∧ (∀ k, k < n → t.mem.read ((a + k) % 2 ^ s.params.xlen.bits) = BitVec.ofNat 8 (v / 256 ^ k))
    ∧ (∀ c, (∀ k, k < n → c ≠ (a + k) % 2 ^ s.params.xlen.bits) → t.mem.read c = s.mem.read c)
    ∧ NotesHeaders s t a n ∧ RecordsData s t a n ∧ SameHeap s t ∧ SameControl s t

/-- The instruction raises the fault: it is latched, the engine halts, nothing else changes (R352). -/
def Raises (i : Instr) (s : State) (e : Err) : Prop :=
  exec i s = .next { s with err := e, runState := .halted }

/-- The word of the instruction is the one given, and the decoder reads the instruction from it at
every `XLEN` that has it. -/
def EncodedAs (i : Instr) (w : InstrWord) : Prop :=
  encode i = w ∧ ∀ x, i.wf x = true → decode x w = .ok i

/-- The word of the instruction is a decode error at `XLEN = 32`. -/
def ErrorOnRv32 (i : Instr) : Prop := decode .rv32 (encode i) = .error (.noRow (encode i))

/-- A load of `n` bytes (R221): the value is a function of the bytes at the effective address, and a
misaligned access raises while enforcement is on. -/
def LoadRule (i : Instr) (s : State) (rd rs1 : RegId) (imm : BitVec 12) (w : Width) (n : Nat)
    (value : Nat → Nat) : Prop :=
  (s.notFull → s.allowed (s.eaNat rs1 imm) n →
      WritesReg i s rd (value (s.bytesValue (s.eaNat rs1 imm) n)) s.pcPlus4)
    ∧ (¬ s.allowed (s.eaNat rs1 imm) n →
      Raises i s (.alignmentError (BitVec.ofNat 64 (s.eaNat rs1 imm)) w false))

/-- A store of the low `n` bytes of `x[rs2]` (R222), with its alignment fault. -/
def StoreRule (i : Instr) (s : State) (rs2 rs1 : RegId) (imm : BitVec 12) (w : Width) (n : Nat) : Prop :=
  (s.notFull → s.mem.wf = true → s.allowed (s.eaNat rs1 imm) n →
      StoresBytes i s (s.eaNat rs1 imm) n (s.x rs2).toNat)
    ∧ (¬ s.allowed (s.eaNat rs1 imm) n →
      Raises i s (.alignmentError (BitVec.ofNat 64 (s.eaNat rs1 imm)) w true))

/-- A conditional branch (R201, R205): taken to an aligned target, taken to a misaligned one, not taken. -/
def BranchRule (i : Instr) (s : State) (off : BitVec 13) (taken : Prop) : Prop :=
  (taken → wrap s.params.xlen (s.pc.toNat + off.toInt) % 4 = 0 → s.notFull →
      GoesTo i s (wrap s.params.xlen (s.pc.toNat + off.toInt)))
    ∧ (taken → wrap s.params.xlen (s.pc.toNat + off.toInt) % 4 ≠ 0 →
      Raises i s (.instrAddrMisaligned s.pc
        (BitVec.ofNat 64 (wrap s.params.xlen (s.pc.toNat + off.toInt)))))
    ∧ (¬ taken → s.notFull → GoesTo i s s.pcPlus4)

/-! ### The engine between instructions -/

/-- The command honours breakpoints (R315, R319). -/
def State.Honours (s : State) (c : Command) : Prop :=
  c = .step ∨ c = .runToBp ∨ (c = .run ∧ s.params.runStopsAtBreakpoint = true)

/-- The run state that an instruction of command `c` leaves, given the one it left itself (R317). -/
def runStateAfter (c : Command) (r : RunState) : RunState :=
  if r = .halted then .halted else if c = .step then .ready else .running c false

/-! ### Allocator calls -/

/-- The address lies in the header of a block of the list given (R274). -/
def InHeaders (hdrSize : Nat) (blocks : List Block) (a : Nat) : Prop :=
  ∃ b ∈ blocks, b.base ≤ a ∧ a < b.base + hdrSize

/-- The address lies in the header of a block of the state's list (R274). -/
def State.HeaderByte (s : State) (a : Nat) : Prop := InHeaders s.params.hdrSize s.blocks a

/-- An `ECALL` here is the allocator operation that selector `a6` names (R252, R254), and neither the
refusals (R29, R275) nor the metadata fault (R290) hold it back. -/
def State.AllocCall (s : State) (selector : Nat) : Prop :=
  s.params.hasAllocService = true ∧ s.x 10 = s.params.allocMarker ∧ s.x 10 ≠ s.params.exitA0
    ∧ (s.x 16).toNat = selector ∧ s.headersTouched = false ∧ s.notFull
    ∧ (s.alignedAddresses = false ∨
        (s.params.heapBase % (s.params.xlen.bits / 8) = 0 ∧ s.params.hdrSize % (s.params.xlen.bits / 8) = 0
          ∧ s.params.allocAlign % (s.params.xlen.bits / 8) = 0))

/-- `rs = roundup(size)` (R276): the least multiple of `ALLOC_ALIGN` that is at least `size`. -/
def State.RoundedUp (s : State) (size rs : Nat) : Prop :=
  rs % s.params.allocAlign = 0 ∧ size ≤ rs ∧ rs < size + s.params.allocAlign

/-- `ECALL` completes with `v` in `a0`; every other register, and the control state, is as before. -/
def CallReturns (s t : State) (v : Nat) : Prop :=
  exec .ecall s = .next t ∧ (t.x 10).toNat = v ∧ (∀ r, r ≠ 10 → t.x r = s.x r)
    ∧ Counted s t s.pcPlus4 ∧ t.headersTouched = s.headersTouched ∧ SameControl s t

/-- The byte holds the allocator's metadata: a header byte, or one of a header since merged away that nothing
has written since (R274, U2). -/
def State.MetadataByte (s : State) (a : Nat) : Prop := s.origin a = some .metadata

/-- The byte was never written since reset (U11, U12). -/
def State.NeverWritten (s : State) (a : Nat) : Prop := s.origin a = none

/-- The address lies in the payload of the block (R272). -/
def Block.Has (b : Block) (hdrSize a : Nat) : Prop := b.base + hdrSize ≤ a ∧ a < b.base + hdrSize + b.size

/-- The history after an operation that wrote the bytes `written` as data and the bytes `header` as headers: what
was written as data is data, the other header bytes are metadata, and every other byte has the origin it had. -/
def RecordedAs (s t : State) (header written : Nat → Prop) : Prop :=
  ∀ a, (written a → t.origin a = some .data)
    ∧ (¬ written a → (header a → t.origin a = some .metadata) ∧ (¬ header a → t.origin a = s.origin a))

/-- The history after an operation that wrote the bytes `written` as data: they are data, the other header bytes
of the list before and of the list after are metadata, and every other byte has the origin it had. -/
def Recorded (s t : State) (written : Nat → Prop) : Prop :=
  RecordedAs s t (fun a => s.HeaderByte a ∨ t.HeaderByte a) written

/-- Data memory after a call that may have left new bytes in the metadata and changed nothing else of it: the
history is as before, and so is every byte that is not metadata (U2). -/
def SameButMetadata (s t : State) : Prop :=
  t.history = s.history ∧ ∀ a, ¬ s.MetadataByte a → t.mem.read a = s.mem.read a

/-- Memory after an operation that handed out the block `b`, zero-filled or not, of memory the heap has used
before (`reused`) or not. A zero-filled payload is zero. Without zero-fill a reused payload keeps only the bytes
never written since reset, and one at the high-water mark keeps all (R278, U11). Every other byte that is not
metadata is as before (R274, U2). -/
def HandsOut (s t : State) (b : Block) (zero reused : Bool) : Prop :=
  Recorded s t (fun a => zero = true ∧ b.Has s.params.hdrSize a)
    ∧ (∀ a, ¬ t.MetadataByte a →
        (b.Has s.params.hdrSize a → zero = false ∧ (reused = true → s.NeverWritten a)) →
        t.mem.read a = s.mem.read a)
    ∧ (zero = true → ∀ a, b.Has s.params.hdrSize a → t.mem.read a = 0)

/-- Every allocated block but the one at `base` stays in the list, and its payload bytes are as before, but for
metadata bytes that nothing has written since (U2). -/
def KeepsOtherBlocks (s t : State) (base : Nat) : Prop :=
  ∀ c ∈ s.blocks, c.free = false → c.base ≠ base →
    c ∈ t.blocks ∧ ∀ a, c.Has s.params.hdrSize a → ¬ s.MetadataByte a → t.mem.read a = s.mem.read a

/-- No free block is large enough (R277). -/
def State.NoFit (s : State) (rs : Nat) : Prop := ∀ b ∈ s.blocks, b.free = true → b.size < rs

/-- The payload size a block has or could have without moving: its own, or with a free block right after
it and that block's header (R282, R286). -/
def roomAt (hdrSize : Nat) (b : Block) : List Block → Nat
  | n :: _ => if n.free then b.size + hdrSize + n.size else b.size
  | [] => b.size

/-- The blocks after that room. -/
def pastRoom : List Block → List Block
  | n :: rest => if n.free then rest else n :: rest
  | [] => []

/-- The list with a block of it freed and merged with free neighbours (R286). -/
def freedList (hdrSize : Nat) (before : List Block) (b : Block) (after : List Block) : List Block :=
  match before.getLast? with
  | some p =>
    if p.free then before.dropLast ++ { p with size := p.size + hdrSize + roomAt hdrSize b after } :: pastRoom after
    else before ++ { b with size := roomAt hdrSize b after, free := true } :: pastRoom after
  | none => { b with size := roomAt hdrSize b after, free := true } :: pastRoom after

/-- The block handed out of a free block for `rs` bytes, and what is left of it (R277). -/
def takenFrom (hdrSize rs : Nat) (c : Block) : Block × List Block :=
  if rs + hdrSize < c.size then
    ({ c with size := rs, free := false },
      [{ base := c.base + hdrSize + rs, size := c.size - rs - hdrSize, free := true }])
  else ({ c with free := false }, [])

/-- What a moving `realloc` of the block `b` does once the block `p` is in the list `taken` (R284): the first
`n` bytes are copied, the old block is freed, the others stay. The bytes behind the copy are as the allocation of
`p` left them. The headers of the three lists (before, with `p`, after) are metadata but where the copy, or the
zero-fill of the whole payload, wrote data since. -/
def MovesTo (s t : State) (b p : Block) (taken : List Block) (n : Nat) (reused : Bool) : Prop :=
  CallReturns s t (p.base + s.params.hdrSize) ∧ p.base ≠ b.base ∧ n ≤ p.size
    ∧ t.numActiveBlocks = s.numActiveBlocks
    ∧ (∃ before after, taken = before ++ b :: after ∧ t.blocks = freedList s.params.hdrSize before b after)
    ∧ p ∈ t.blocks ∧ p.free = false ∧ (∀ c ∈ t.blocks, c.free = false → c.base ≠ b.base)
    ∧ KeepsOtherBlocks s t b.base
    ∧ RecordedAs s t (fun a => s.HeaderByte a ∨ InHeaders s.params.hdrSize taken a ∨ t.HeaderByte a)
        (fun a => p.Has s.params.hdrSize a ∧ (s.alwaysCalloc = true ∨ a < p.base + s.params.hdrSize + n))
    ∧ (∀ a, ¬ p.Has s.params.hdrSize a → ¬ t.MetadataByte a → t.mem.read a = s.mem.read a)
    ∧ (∀ k, k < n → t.mem.read (p.base + s.params.hdrSize + k) = s.mem.read (b.base + s.params.hdrSize + k))
    ∧ (∀ a, p.Has s.params.hdrSize a → p.base + s.params.hdrSize + n ≤ a →
        (s.alwaysCalloc = true → t.mem.read a = 0)
        ∧ (s.alwaysCalloc = false → (reused = true → s.NeverWritten a) → t.mem.read a = s.mem.read a))

end Sys2Proof.Machine
end

