-- ==== Sys2Proof/Certificates/Slice0/Obligations.lean ====
section
/-! DEFINITION. The statements for the provers. Each docstring names the rule it formalises; the terms
are those of Safety.lean. A statement that rests on a choice of the model says so. -/

open Sys2Proof Sys2Proof.Machine

/-- Sanity: words from spec/95_test_vectors.md V1 and the examples of files 40 to 44. -/
def Obligations.SampleWordsDecode : Prop :=
  decode .rv32 0x12345537#32 = .ok (.lui 10 0x12345#20)
    ∧ decode .rv32 0xFF9FF06F#32 = .ok (.jal 0 (-8)) ∧ decode .rv32 0x001580E7#32 = .ok (.jalr 1 11 1)
    ∧ decode .rv32 0xFEB54CE3#32 = .ok (.blt 10 11 (-8)) ∧ decode .rv32 0xFFC5A503#32 = .ok (.lw 10 11 (-4))
    ∧ decode .rv32 0xFEA12E23#32 = .ok (.sw 10 2 (-4)) ∧ decode .rv32 0xFFF58513#32 = .ok (.addi 10 11 (-1))
    ∧ decode .rv32 0x40C58533#32 = .ok (.sub 10 11 12) ∧ decode .rv32 0x0FF0000F#32 = .ok (.fence 0 15 15 0 0)
    ∧ decode .rv32 0x00100073#32 = .ok .ebreak ∧ decode .rv64 0x4045D51B#32 = .ok (.sraiw 10 11 4)
    ∧ decode .rv64 0x02051513#32 = .ok (.slli 10 10 32)
    ∧ decode .rv32 0x02051513#32 = .error (.noRow 0x02051513#32)

/-- No bit of an encoding is dropped: every operand comes back, for all 52 constructors and both `XLEN`s. -/
def Obligations.DecodeOfEncodeIsIdentity : Prop :=
  ∀ (x : Xlen) (i : Instr), i.wf x = true →
    decode x (encode i) = .ok i
      ∧ ∀ rest, decodeBytes x (bytesOfWord (encode i) ++ rest) = .ok (i, rest)

/-- The other direction of the round trip. -/
def Obligations.EncodeOfDecodeIsIdentity : Prop :=
  ∀ (x : Xlen) (w : InstrWord) (i : Instr), decode x w = .ok i → i.wf x = true ∧ encode i = w

/-- R114. -/
def Obligations.DecodeFollowsTheTable : Prop :=
  (∀ (x : Xlen) (w : InstrWord) (r : OpcodeRow), r ∈ opcodeTable → r.has x = true →
      w &&& r.mask = r.pattern → decode x w = .ok (r.build w))
    ∧ (∀ (x : Xlen) (w : InstrWord) (j k : Nat) (hj : j < opcodeTable.length) (hk : k < opcodeTable.length),
      opcodeTable[j].hits x w = true → opcodeTable[k].hits x w = true → j = k)
    ∧ (∀ (s : State) (c : Command) (resume : Bool) (w : InstrWord), s.runState = .running c resume →
      s.underLimit → s.Fetches w →
      (∀ r ∈ opcodeTable, ¬ (r.has s.params.xlen = true ∧ w &&& r.mask = r.pattern)) →
      step s = .next { s with err := .decodeError s.pc w, runState := .halted })

/-- R124. -/
def Obligations.SystemWordsAreEcallAndEbreak : Prop :=
  ∀ (x : Xlen), decode x 0x00000073#32 = .ok .ecall ∧ decode x 0x00100073#32 = .ok .ebreak
    ∧ ∀ w : InstrWord, w.extractLsb' 0 7 = 0x73#7 → w ≠ 0x00000073#32 → w ≠ 0x00100073#32 →
      decode x w = .error (.noRow w)

/-- R123: the fields are ignored, so every such word is the same no-op. -/
def Obligations.MiscMemWordsAreFence : Prop :=
  (∀ (x : Xlen) (w : InstrWord), w.extractLsb' 0 7 = 0x0F#7 →
      (w.extractLsb' 12 3 = 0#3 → ∃ fm pred succ rs1 rd, decode x w = .ok (.fence fm pred succ rs1 rd))
        ∧ (w.extractLsb' 12 3 ≠ 0#3 → decode x w = .error (.noRow w)))
    ∧ (∀ (fm pred succ : BitVec 4) (rs1 rd : RegId) (s : State),
      exec (.fence fm pred succ rs1 rd) s = exec (.fence 0 0 0 0 0) s)

/-- R126. -/
def Obligations.ShortPatternsAreRejected : Prop :=
  ∀ (x : Xlen) (w : InstrWord), w.extractLsb' 0 2 ≠ 0b11#2 → decode x w = .error (.noRow w)

/-- R109, R120. That `exec` itself raises is the model's choice (notes/assumptions/14.md): the engine raises before it. -/
def Obligations.Rv64EncodingsFailOnRv32 : Prop :=
  ∀ i : Instr, i.wf .rv64 = true → i.wf .rv32 = false →
    decode .rv32 (encode i) = .error (.noRow (encode i))
      ∧ ∀ s : State, s.params.xlen = .rv32 → Raises i s (.decodeError s.pc (encode i))

/-- R45, for every choice of the parameters whose data segment fits the address space. -/
def Obligations.ResetValues : Prop :=
  ∀ p : Params, p.dataInit.length ≤ 2 ^ p.xlen.bits →
    (State.ofParams p).x 0 = 0
      ∧ ((State.ofParams p).x 2).toNat = p.resetSp.toNat % 2 ^ p.xlen.bits
      ∧ ((State.ofParams p).x 3).toNat = p.resetGp.toNat % 2 ^ p.xlen.bits
      ∧ (∀ r : RegId, r ≠ 2 → r ≠ 3 → (State.ofParams p).x r = 0)
      ∧ (State.ofParams p).pc = p.entry ∧ (State.ofParams p).cycles = 0
      ∧ (∀ k (h : k < p.dataInit.length),
          (State.ofParams p).mem.read ((p.dataBase + k) % 2 ^ p.xlen.bits) = p.dataInit[k])
      ∧ (∀ a, (∀ k < p.dataInit.length, a ≠ (p.dataBase + k) % 2 ^ p.xlen.bits) →
          (State.ofParams p).mem.read a = 0)
      ∧ (State.ofParams p).runState = .ready ∧ (State.ofParams p).err = .none
      ∧ (State.ofParams p).alignedAddresses = p.alignedAddresses
      ∧ (State.ofParams p).alwaysCalloc = p.alwaysCalloc
      ∧ (State.ofParams p).blocks = [] ∧ (State.ofParams p).hwm = p.heapBase
      ∧ (State.ofParams p).numActiveBlocks = 0 ∧ (State.ofParams p).params = p
      ∧ ∀ (s : State) (rest : List PortRequest), s.params = p → s.isRunning = false →
        s.requests = .reset :: rest → ∃ t, step s = .next t
          ∧ t = { State.ofParams p with requests := t.requests, replies := t.replies }

/-- The base case of `StepKeepsInvariant`. -/
def Obligations.InvariantHoldsAfterReset : Prop :=
  (∀ p : Params, p.valid = true → (State.ofParams p).inv = true) ∧ State.reset.inv = true

/-- R20, R27, R36, R37, R273 and, for metadata, R274, from every state and not only along runs from reset. The record of writes is the model's own field (notes/assumptions/21.md). -/
def Obligations.StepKeepsInvariant : Prop :=
  ∀ s t : State, s.inv = true → step s = .next t → t.inv = true

/-- R336, R390, R391. That requests and replies stay is the model's choice (notes/assumptions/5.md). -/
def Obligations.HostResetRestores : Prop :=
  ∀ (s : State) (rest : List PortRequest), s.isRunning = false → s.requests = .reset :: rest →
    step s = .next { State.ofParams s.params with requests := rest, replies := s.replies }

/-- R312, R313, R317: the per-instruction statements reach a run through this one. -/
def Obligations.StepRunsTheDecodedInstruction : Prop :=
  ∀ (s : State) (c : Command) (resume : Bool) (w : InstrWord) (i : Instr),
    s.runState = .running c resume → s.underLimit → s.Fetches w → decode s.params.xlen w = .ok i →
    (i = .ebreak → s.Honours c → resume = true) →
    step s = match exec i s with
      | .next t => .next { t with runState := runStateAfter c t.runState }
      | .fault r => .fault r
      | .refused r => .refused r

/-- R315. -/
def Obligations.BreakpointPauses : Prop :=
  ∀ (s : State) (c : Command), s.runState = .running c false → s.underLimit →
    s.Fetches 0x00100073#32 → s.Honours c → step s = .next { s with runState := .atBreakpoint }

/-- R316. The two model steps are the acceptance of the command and the first pass of its loop. -/
def Obligations.CommandAfterPauseExecutesBreakpoint : Prop :=
  ∀ (s : State) (c : Command) (rest : List PortRequest), s.runState = .atBreakpoint →
    s.requests = .command c :: rest → s.underLimit → s.notFull → s.Fetches 0x00100073#32 →
    ∃ t u, step s = .next t ∧ t = { s with requests := rest, runState := .running c true }
      ∧ step t = .next u ∧ u.pc.toNat = s.pcPlus4 ∧ u.cycles.toNat = s.cycles.toNat + 1
      ∧ u.runState = (if c = .step then .ready else .running c false)
      ∧ u = { t with pc := u.pc, cycles := u.cycles, runState := u.runState }

/-- R314, R322 and R394. The list of requests is the model's (notes/assumptions/5.md). -/
def Obligations.ReadyAcceptsCommands : Prop :=
  (∀ (s : State) (c : Command) (rest : List PortRequest), s.runState = .ready →
      s.requests = .command c :: rest → step s = .next { s with requests := rest, runState := .running c false })
    ∧ (∀ s : State, s.isRunning = false → s.requests = [] → step s = .next s)

/-- R320, for a clean halt and a fault halt alike. -/
def Obligations.HaltedIsAbsorbing : Prop :=
  (∀ (s : State) (c : Command) (rest : List PortRequest), s.runState = .halted →
      s.requests = .command c :: rest → step s = .next { s with requests := rest })
    ∧ (∀ s t : State, s.runState = .halted → step s = .next t → s.requests.head? ≠ some .reset →
      t.runState = .halted ∧ t.err = s.err)

/-- R318. -/
def Obligations.StepCommandRunsOneInstruction : Prop :=
  ∀ (s t : State) (resume : Bool), s.runState = .running .step resume → s.err = .none → step s = .next t →
    (t.runState = .ready ∧ t.err = .none ∧ t.cycles.toNat = s.cycles.toNat + 1)
      ∨ (t.runState = .halted ∧ t.err = .none ∧ t.cycles.toNat = s.cycles.toNat + 1)
      ∨ t = { s with runState := .atBreakpoint }
      ∨ (t.err ≠ .none ∧ t = { s with err := t.err, runState := .halted })

/-- R319 with conflict C1's resolution. -/
def Obligations.RunPassesBreakpoints : Prop :=
  ∀ (s : State) (resume : Bool), s.runState = .running .run resume → s.params.runStopsAtBreakpoint = false →
    s.underLimit → s.notFull → s.Fetches 0x00100073#32 →
    ∃ t, step s = .next t ∧ t.pc.toNat = s.pcPlus4 ∧ t.cycles.toNat = s.cycles.toNat + 1
      ∧ t = { s with pc := t.pc, cycles := t.cycles, runState := .running .run false }

/-- R323, R361; tested before the fetch (R362). -/
def Obligations.StepGuardStopsTheEngine : Prop :=
  (∀ (s : State) (c : Command) (resume : Bool) (m : Nat), s.runState = .running c resume →
      s.params.maxSteps = some m → m ≤ s.cycles.toNat →
      step s = .next { s with err := .stepLimitExceeded s.cycles, runState := .halted })
    ∧ (∀ (s t : State), s.params.maxSteps = none → s.err = .none → step s = .next t →
      ∀ n, t.err ≠ .stepLimitExceeded n)

/-- R82. -/
def Obligations.FetchReadsTheProgramText : Prop :=
  (∀ (s : State) (c : Command) (resume : Bool), s.runState = .running c resume → s.underLimit →
      (s.pc.toNat % 4 ≠ 0 →
        step s = .next { s with err := .instrAddrMisaligned s.pc s.pc, runState := .halted })
      ∧ (s.pc.toNat % 4 = 0 → (s.pc.toNat < s.params.textBase ∨
          s.params.imem.length ≤ (s.pc.toNat - s.params.textBase) / 4) →
        step s = .next { s with err := .fetchFault s.pc, runState := .halted }))
    ∧ (∀ (s : State) (w : InstrWord), s.Fetches w → s.fetch = .ok w)
    ∧ (∀ (s : State) (m : Memory) (b : Bool),
      State.fetch { s with mem := m, alignedAddresses := b } = s.fetch)

/-- R352: precise faults, for every instruction and every stage of the loop. -/
def Obligations.FaultsHaveNoOtherEffect : Prop :=
  (∀ (s t : State), s.isRunning = true → s.err = .none → step s = .next t → t.err ≠ .none →
      t = { s with err := t.err, runState := .halted })
    ∧ (∀ (s t : State), s.isRunning = false → step s = .next t → s.requests.head? ≠ some .reset →
      t.err = s.err)

/-- R28 and R29: monotone, one per executed instruction. -/
def Obligations.CyclesCountExecutedInstructions : Prop :=
  (∀ (i : Instr) (s t : State), s.err = .none → exec i s = .next t →
      (t.err ≠ .none ∧ t.cycles = s.cycles) ∨ (t.err = .none ∧ t.cycles.toNat = s.cycles.toNat + 1))
    ∧ (∀ s t : State, step s = .next t → s.isRunning = true →
      (t.runState = .atBreakpoint → t.cycles = s.cycles)
        ∧ (s.err = .none → t.err ≠ .none → t.cycles = s.cycles)
        ∧ (s.err = .none → t.err = .none → t.runState ≠ .atBreakpoint → t.cycles.toNat = s.cycles.toNat + 1))
    ∧ (∀ s t : State, step s = .next t → s.isRunning = false → s.requests.head? ≠ some .reset →
      t.cycles = s.cycles)

/-- R29. -/
def Obligations.FullCycleCounterIsRefused : Prop :=
  (∀ (i : Instr) (s : State), s.cycles = BitVec.allOnes 64 →
      (∃ e, e ≠ .none ∧ exec i s = .next { s with err := e, runState := .halted })
        ∨ exec i s = .refused .cycleCounterFull
        ∨ (i = .ecall ∧ exec i s = .refused .headerOverwritten))
    ∧ (∀ (fm pred succ : BitVec 4) (rs1 rd : RegId) (s : State), s.cycles = BitVec.allOnes 64 →
      exec (.fence fm pred succ rs1 rd) s = .refused .cycleCounterFull)

/-- R34, R39, R85. -/
def Obligations.OnlyStoresAndEcallWriteMemory : Prop :=
  (∀ (i : Instr) (s t : State), i.mayWriteMem = false → exec i s = .next t →
      t.mem = s.mem ∧ t.headersTouched = s.headersTouched ∧ t.history = s.history)
    ∧ (∀ (i : Instr) (s t : State), i ≠ .ecall → exec i s = .next t → SameHeap s t)

/-- R32 (written by hardware: never), R33, R35, R84. -/
def Obligations.InstructionsKeepConfiguration : Prop :=
  (∀ (i : Instr) (s t : State), exec i s = .next t →
      t.alignedAddresses = s.alignedAddresses ∧ t.alwaysCalloc = s.alwaysCalloc ∧ t.params = s.params
        ∧ t.requests = s.requests ∧ t.replies = s.replies)
    ∧ (∀ s t : State, step s = .next t → t.params = s.params)

/-- R26. -/
def Obligations.OnlyTransfersLeaveSequence : Prop :=
  ∀ (i : Instr) (s t : State), s.err = .none → exec i s = .next t →
    (t.err = .none → ¬ s.Transfers i → t.pc.toNat = s.pcPlus4) ∧ (t.err ≠ .none → t.pc = s.pc)

/-- R21, R23. -/
def Obligations.OnlyTheDestinationRegisterChanges : Prop :=
  ∀ (i : Instr) (s t : State), exec i s = .next t →
    (∀ r, i.destination ≠ some r → t.x r = s.x r) ∧ t.x 0 = 0

/-- R141, R142, at both `XLEN`s and for `rd = x0` too. -/
def Obligations.UpperImmediates : Prop :=
  ∀ (rd : RegId) (imm : BitVec 20),
    EncodedAs (.lui rd imm) (imm ++ bitsOfReg rd ++ 0x37#7)
      ∧ EncodedAs (.auipc rd imm) (imm ++ bitsOfReg rd ++ 0x17#7)
      ∧ ∀ s : State, s.notFull →
        WritesReg (.lui rd imm) s rd (wrap s.params.xlen (imm ++ 0#12).toInt) s.pcPlus4
          ∧ WritesReg (.auipc rd imm) s rd (wrap s.params.xlen (s.pc.toNat + (imm ++ 0#12).toInt)) s.pcPlus4

/-- R143 to R148. -/
def Obligations.ImmediateArithmetic : Prop :=
  ∀ (rd rs1 : RegId) (imm : BitVec 12),
    EncodedAs (.addi rd rs1 imm) (imm ++ bitsOfReg rs1 ++ 0b000#3 ++ bitsOfReg rd ++ 0x13#7)
      ∧ EncodedAs (.slti rd rs1 imm) (imm ++ bitsOfReg rs1 ++ 0b010#3 ++ bitsOfReg rd ++ 0x13#7)
      ∧ EncodedAs (.sltiu rd rs1 imm) (imm ++ bitsOfReg rs1 ++ 0b011#3 ++ bitsOfReg rd ++ 0x13#7)
      ∧ EncodedAs (.xori rd rs1 imm) (imm ++ bitsOfReg rs1 ++ 0b100#3 ++ bitsOfReg rd ++ 0x13#7)
      ∧ EncodedAs (.ori rd rs1 imm) (imm ++ bitsOfReg rs1 ++ 0b110#3 ++ bitsOfReg rd ++ 0x13#7)
      ∧ EncodedAs (.andi rd rs1 imm) (imm ++ bitsOfReg rs1 ++ 0b111#3 ++ bitsOfReg rd ++ 0x13#7)
      ∧ ∀ s : State, s.notFull →
        WritesReg (.addi rd rs1 imm) s rd (wrap s.params.xlen (s.i rs1 + imm.toInt)) s.pcPlus4
          ∧ WritesReg (.slti rd rs1 imm) s rd (if s.i rs1 < imm.toInt then 1 else 0) s.pcPlus4
          ∧ WritesReg (.sltiu rd rs1 imm) s rd (if s.u rs1 < wrap s.params.xlen imm.toInt then 1 else 0) s.pcPlus4
          ∧ WritesReg (.xori rd rs1 imm) s rd (s.u rs1 ^^^ wrap s.params.xlen imm.toInt) s.pcPlus4
          ∧ WritesReg (.ori rd rs1 imm) s rd (s.u rs1 ||| wrap s.params.xlen imm.toInt) s.pcPlus4
          ∧ WritesReg (.andi rd rs1 imm) s rd (s.u rs1 &&& wrap s.params.xlen imm.toInt) s.pcPlus4

/-- R149 to R151. -/
def Obligations.ImmediateShifts : Prop :=
  ∀ (rd rs1 : RegId) (shamt : BitVec 6),
    EncodedAs (.slli rd rs1 shamt) (0b000000#6 ++ shamt ++ bitsOfReg rs1 ++ 0b001#3 ++ bitsOfReg rd ++ 0x13#7)
      ∧ EncodedAs (.srli rd rs1 shamt) (0b000000#6 ++ shamt ++ bitsOfReg rs1 ++ 0b101#3 ++ bitsOfReg rd ++ 0x13#7)
      ∧ EncodedAs (.srai rd rs1 shamt) (0b010000#6 ++ shamt ++ bitsOfReg rs1 ++ 0b101#3 ++ bitsOfReg rd ++ 0x13#7)
      ∧ (32 ≤ shamt.toNat → ErrorOnRv32 (.slli rd rs1 shamt) ∧ ErrorOnRv32 (.srli rd rs1 shamt)
          ∧ ErrorOnRv32 (.srai rd rs1 shamt))
      ∧ ∀ s : State, s.notFull → shamt.toNat < s.params.xlen.bits →
        WritesReg (.slli rd rs1 shamt) s rd (s.u rs1 * 2 ^ shamt.toNat % 2 ^ s.params.xlen.bits) s.pcPlus4
          ∧ WritesReg (.srli rd rs1 shamt) s rd (s.u rs1 / 2 ^ shamt.toNat) s.pcPlus4
          ∧ WritesReg (.srai rd rs1 shamt) s rd (wrap s.params.xlen (s.i rs1 / 2 ^ shamt.toNat)) s.pcPlus4

/-- R152 to R155. -/
def Obligations.WordImmediates : Prop :=
  ∀ (rd rs1 : RegId) (imm : BitVec 12) (shamt : BitVec 5),
    EncodedAs (.addiw rd rs1 imm) (imm ++ bitsOfReg rs1 ++ 0b000#3 ++ bitsOfReg rd ++ 0x1B#7)
      ∧ EncodedAs (.slliw rd rs1 shamt) (0b0000000#7 ++ shamt ++ bitsOfReg rs1 ++ 0b001#3 ++ bitsOfReg rd ++ 0x1B#7)
      ∧ EncodedAs (.srliw rd rs1 shamt) (0b0000000#7 ++ shamt ++ bitsOfReg rs1 ++ 0b101#3 ++ bitsOfReg rd ++ 0x1B#7)
      ∧ EncodedAs (.sraiw rd rs1 shamt) (0b0100000#7 ++ shamt ++ bitsOfReg rs1 ++ 0b101#3 ++ bitsOfReg rd ++ 0x1B#7)
      ∧ ErrorOnRv32 (.addiw rd rs1 imm) ∧ ErrorOnRv32 (.slliw rd rs1 shamt)
      ∧ ErrorOnRv32 (.srliw rd rs1 shamt) ∧ ErrorOnRv32 (.sraiw rd rs1 shamt)
      ∧ ∀ s : State, s.notFull → s.params.xlen = .rv64 →
        WritesReg (.addiw rd rs1 imm) s rd (wrap .rv64 ((s.i rs1 + imm.toInt).bmod (2 ^ 32))) s.pcPlus4
          ∧ WritesReg (.slliw rd rs1 shamt) s rd
              (wrap .rv64 (((s.u rs1 % 2 ^ 32 * 2 ^ shamt.toNat : Nat) : Int).bmod (2 ^ 32))) s.pcPlus4
          ∧ WritesReg (.srliw rd rs1 shamt) s rd
              (wrap .rv64 (((s.u rs1 % 2 ^ 32 / 2 ^ shamt.toNat : Nat) : Int).bmod (2 ^ 32))) s.pcPlus4
          ∧ WritesReg (.sraiw rd rs1 shamt) s rd
              (wrap .rv64 ((s.u rs1 : Int).bmod (2 ^ 32) / 2 ^ shamt.toNat)) s.pcPlus4

/-- R171, R172, R174, R175, R176, R179, R180. -/
def Obligations.RegisterArithmetic : Prop :=
  ∀ (rd rs1 rs2 : RegId),
    EncodedAs (.add rd rs1 rs2) (0b0000000#7 ++ bitsOfReg rs2 ++ bitsOfReg rs1 ++ 0b000#3 ++ bitsOfReg rd ++ 0x33#7)
      ∧ EncodedAs (.sub rd rs1 rs2) (0b0100000#7 ++ bitsOfReg rs2 ++ bitsOfReg rs1 ++ 0b000#3 ++ bitsOfReg rd ++ 0x33#7)
      ∧ EncodedAs (.slt rd rs1 rs2) (0b0000000#7 ++ bitsOfReg rs2 ++ bitsOfReg rs1 ++ 0b010#3 ++ bitsOfReg rd ++ 0x33#7)
      ∧ EncodedAs (.sltu rd rs1 rs2) (0b0000000#7 ++ bitsOfReg rs2 ++ bitsOfReg rs1 ++ 0b011#3 ++ bitsOfReg rd ++ 0x33#7)
      ∧ EncodedAs (.xor rd rs1 rs2) (0b0000000#7 ++ bitsOfReg rs2 ++ bitsOfReg rs1 ++ 0b100#3 ++ bitsOfReg rd ++ 0x33#7)
      ∧ EncodedAs (.or rd rs1 rs2) (0b0000000#7 ++ bitsOfReg rs2 ++ bitsOfReg rs1 ++ 0b110#3 ++ bitsOfReg rd ++ 0x33#7)
      ∧ EncodedAs (.and rd rs1 rs2) (0b0000000#7 ++ bitsOfReg rs2 ++ bitsOfReg rs1 ++ 0b111#3 ++ bitsOfReg rd ++ 0x33#7)
      ∧ ∀ s : State, s.notFull →
        WritesReg (.add rd rs1 rs2) s rd (wrap s.params.xlen (s.i rs1 + s.i rs2)) s.pcPlus4
          ∧ WritesReg (.sub rd rs1 rs2) s rd (wrap s.params.xlen (s.i rs1 - s.i rs2)) s.pcPlus4
          ∧ WritesReg (.slt rd rs1 rs2) s rd (if s.i rs1 < s.i rs2 then 1 else 0) s.pcPlus4
          ∧ WritesReg (.sltu rd rs1 rs2) s rd (if s.u rs1 < s.u rs2 then 1 else 0) s.pcPlus4
          ∧ WritesReg (.xor rd rs1 rs2) s rd (s.u rs1 ^^^ s.u rs2) s.pcPlus4
          ∧ WritesReg (.or rd rs1 rs2) s rd (s.u rs1 ||| s.u rs2) s.pcPlus4
          ∧ WritesReg (.and rd rs1 rs2) s rd (s.u rs1 &&& s.u rs2) s.pcPlus4

/-- R173, R177, R178. -/
def Obligations.RegisterShifts : Prop :=
  ∀ (rd rs1 rs2 : RegId),
    EncodedAs (.sll rd rs1 rs2) (0b0000000#7 ++ bitsOfReg rs2 ++ bitsOfReg rs1 ++ 0b001#3 ++ bitsOfReg rd ++ 0x33#7)
      ∧ EncodedAs (.srl rd rs1 rs2) (0b0000000#7 ++ bitsOfReg rs2 ++ bitsOfReg rs1 ++ 0b101#3 ++ bitsOfReg rd ++ 0x33#7)
      ∧ EncodedAs (.sra rd rs1 rs2) (0b0100000#7 ++ bitsOfReg rs2 ++ bitsOfReg rs1 ++ 0b101#3 ++ bitsOfReg rd ++ 0x33#7)
      ∧ ∀ s : State, s.notFull →
        WritesReg (.sll rd rs1 rs2) s rd
            (s.u rs1 * 2 ^ (s.u rs2 % s.params.xlen.bits) % 2 ^ s.params.xlen.bits) s.pcPlus4
          ∧ WritesReg (.srl rd rs1 rs2) s rd (s.u rs1 / 2 ^ (s.u rs2 % s.params.xlen.bits)) s.pcPlus4
          ∧ WritesReg (.sra rd rs1 rs2) s rd
              (wrap s.params.xlen (s.i rs1 / 2 ^ (s.u rs2 % s.params.xlen.bits))) s.pcPlus4

/-- R181 to R185. -/
def Obligations.WordRegister : Prop :=
  ∀ (rd rs1 rs2 : RegId),
    EncodedAs (.addw rd rs1 rs2) (0b0000000#7 ++ bitsOfReg rs2 ++ bitsOfReg rs1 ++ 0b000#3 ++ bitsOfReg rd ++ 0x3B#7)
      ∧ EncodedAs (.subw rd rs1 rs2) (0b0100000#7 ++ bitsOfReg rs2 ++ bitsOfReg rs1 ++ 0b000#3 ++ bitsOfReg rd ++ 0x3B#7)
      ∧ EncodedAs (.sllw rd rs1 rs2) (0b0000000#7 ++ bitsOfReg rs2 ++ bitsOfReg rs1 ++ 0b001#3 ++ bitsOfReg rd ++ 0x3B#7)
      ∧ EncodedAs (.srlw rd rs1 rs2) (0b0000000#7 ++ bitsOfReg rs2 ++ bitsOfReg rs1 ++ 0b101#3 ++ bitsOfReg rd ++ 0x3B#7)
      ∧ EncodedAs (.sraw rd rs1 rs2) (0b0100000#7 ++ bitsOfReg rs2 ++ bitsOfReg rs1 ++ 0b101#3 ++ bitsOfReg rd ++ 0x3B#7)
      ∧ ErrorOnRv32 (.addw rd rs1 rs2) ∧ ErrorOnRv32 (.subw rd rs1 rs2) ∧ ErrorOnRv32 (.sllw rd rs1 rs2)
      ∧ ErrorOnRv32 (.srlw rd rs1 rs2) ∧ ErrorOnRv32 (.sraw rd rs1 rs2)
      ∧ ∀ s : State, s.notFull → s.params.xlen = .rv64 →
        WritesReg (.addw rd rs1 rs2) s rd (wrap .rv64 ((s.i rs1 + s.i rs2).bmod (2 ^ 32))) s.pcPlus4
          ∧ WritesReg (.subw rd rs1 rs2) s rd (wrap .rv64 ((s.i rs1 - s.i rs2).bmod (2 ^ 32))) s.pcPlus4
          ∧ WritesReg (.sllw rd rs1 rs2) s rd
              (wrap .rv64 (((s.u rs1 % 2 ^ 32 * 2 ^ (s.u rs2 % 32) : Nat) : Int).bmod (2 ^ 32))) s.pcPlus4
          ∧ WritesReg (.srlw rd rs1 rs2) s rd
              (wrap .rv64 (((s.u rs1 % 2 ^ 32 / 2 ^ (s.u rs2 % 32) : Nat) : Int).bmod (2 ^ 32))) s.pcPlus4
          ∧ WritesReg (.sraw rd rs1 rs2) s rd
              (wrap .rv64 ((s.u rs1 : Int).bmod (2 ^ 32) / 2 ^ (s.u rs2 % 32))) s.pcPlus4

/-- R203, R204, with the faults of R201. -/
def Obligations.Jumps : Prop :=
  ∀ (rd rs1 : RegId) (off : BitVec 21) (imm : BitVec 12),
    (offsetEven off = true → EncodedAs (.jal rd off) (off.extractLsb' 20 1 ++ off.extractLsb' 1 10
        ++ off.extractLsb' 11 1 ++ off.extractLsb' 12 8 ++ bitsOfReg rd ++ 0x6F#7))
      ∧ EncodedAs (.jalr rd rs1 imm) (imm ++ bitsOfReg rs1 ++ 0b000#3 ++ bitsOfReg rd ++ 0x67#7)
      ∧ ∀ (s : State) (target : Nat),
        (target = wrap s.params.xlen (s.pc.toNat + off.toInt) →
          (target % 4 = 0 → s.notFull → WritesReg (.jal rd off) s rd s.pcPlus4 target)
            ∧ (target % 4 ≠ 0 →
              Raises (.jal rd off) s (.instrAddrMisaligned s.pc (BitVec.ofNat 64 target))))
        ∧ (target = wrap s.params.xlen (s.u rs1 + imm.toInt) / 2 * 2 →
          (target % 4 = 0 → s.notFull → WritesReg (.jalr rd rs1 imm) s rd s.pcPlus4 target)
            ∧ (target % 4 ≠ 0 →
              Raises (.jalr rd rs1 imm) s (.instrAddrMisaligned s.pc (BitVec.ofNat 64 target))))

/-- R205 to R211, with the faults of R201. -/
def Obligations.ConditionalBranches : Prop :=
  ∀ (rs1 rs2 : RegId) (off : BitVec 13),
    (offsetEven off = true →
      EncodedAs (.beq rs1 rs2 off) (off.extractLsb' 12 1 ++ off.extractLsb' 5 6 ++ bitsOfReg rs2
          ++ bitsOfReg rs1 ++ 0b000#3 ++ off.extractLsb' 1 4 ++ off.extractLsb' 11 1 ++ 0x63#7)
        ∧ EncodedAs (.bne rs1 rs2 off) (off.extractLsb' 12 1 ++ off.extractLsb' 5 6 ++ bitsOfReg rs2
          ++ bitsOfReg rs1 ++ 0b001#3 ++ off.extractLsb' 1 4 ++ off.extractLsb' 11 1 ++ 0x63#7)
        ∧ EncodedAs (.blt rs1 rs2 off) (off.extractLsb' 12 1 ++ off.extractLsb' 5 6 ++ bitsOfReg rs2
          ++ bitsOfReg rs1 ++ 0b100#3 ++ off.extractLsb' 1 4 ++ off.extractLsb' 11 1 ++ 0x63#7)
        ∧ EncodedAs (.bge rs1 rs2 off) (off.extractLsb' 12 1 ++ off.extractLsb' 5 6 ++ bitsOfReg rs2
          ++ bitsOfReg rs1 ++ 0b101#3 ++ off.extractLsb' 1 4 ++ off.extractLsb' 11 1 ++ 0x63#7)
        ∧ EncodedAs (.bltu rs1 rs2 off) (off.extractLsb' 12 1 ++ off.extractLsb' 5 6 ++ bitsOfReg rs2
          ++ bitsOfReg rs1 ++ 0b110#3 ++ off.extractLsb' 1 4 ++ off.extractLsb' 11 1 ++ 0x63#7)
        ∧ EncodedAs (.bgeu rs1 rs2 off) (off.extractLsb' 12 1 ++ off.extractLsb' 5 6 ++ bitsOfReg rs2
          ++ bitsOfReg rs1 ++ 0b111#3 ++ off.extractLsb' 1 4 ++ off.extractLsb' 11 1 ++ 0x63#7))
      ∧ ∀ s : State,
        BranchRule (.beq rs1 rs2 off) s off (s.u rs1 = s.u rs2)
          ∧ BranchRule (.bne rs1 rs2 off) s off (s.u rs1 ≠ s.u rs2)
          ∧ BranchRule (.blt rs1 rs2 off) s off (s.i rs1 < s.i rs2)
          ∧ BranchRule (.bge rs1 rs2 off) s off (s.i rs2 ≤ s.i rs1)
          ∧ BranchRule (.bltu rs1 rs2 off) s off (s.u rs1 < s.u rs2)
          ∧ BranchRule (.bgeu rs1 rs2 off) s off (s.u rs2 ≤ s.u rs1)

/-- R221, R223 to R229, with the address of R220. -/
def Obligations.Loads : Prop :=
  ∀ (rd rs1 : RegId) (imm : BitVec 12),
    EncodedAs (.lb rd rs1 imm) (imm ++ bitsOfReg rs1 ++ 0b000#3 ++ bitsOfReg rd ++ 0x03#7)
      ∧ EncodedAs (.lh rd rs1 imm) (imm ++ bitsOfReg rs1 ++ 0b001#3 ++ bitsOfReg rd ++ 0x03#7)
      ∧ EncodedAs (.lw rd rs1 imm) (imm ++ bitsOfReg rs1 ++ 0b010#3 ++ bitsOfReg rd ++ 0x03#7)
      ∧ EncodedAs (.lbu rd rs1 imm) (imm ++ bitsOfReg rs1 ++ 0b100#3 ++ bitsOfReg rd ++ 0x03#7)
      ∧ EncodedAs (.lhu rd rs1 imm) (imm ++ bitsOfReg rs1 ++ 0b101#3 ++ bitsOfReg rd ++ 0x03#7)
      ∧ EncodedAs (.lwu rd rs1 imm) (imm ++ bitsOfReg rs1 ++ 0b110#3 ++ bitsOfReg rd ++ 0x03#7)
      ∧ EncodedAs (.ld rd rs1 imm) (imm ++ bitsOfReg rs1 ++ 0b011#3 ++ bitsOfReg rd ++ 0x03#7)
      ∧ ErrorOnRv32 (.lwu rd rs1 imm) ∧ ErrorOnRv32 (.ld rd rs1 imm)
      ∧ ∀ s : State,
        LoadRule (.lb rd rs1 imm) s rd rs1 imm .byte 1 (fun v => wrap s.params.xlen ((v : Int).bmod (2 ^ 8)))
          ∧ LoadRule (.lh rd rs1 imm) s rd rs1 imm .half 2 (fun v => wrap s.params.xlen ((v : Int).bmod (2 ^ 16)))
          ∧ LoadRule (.lw rd rs1 imm) s rd rs1 imm .word 4 (fun v => wrap s.params.xlen ((v : Int).bmod (2 ^ 32)))
          ∧ LoadRule (.lbu rd rs1 imm) s rd rs1 imm .byte 1 (fun v => v)
          ∧ LoadRule (.lhu rd rs1 imm) s rd rs1 imm .half 2 (fun v => v)
          ∧ (s.params.xlen = .rv64 → LoadRule (.lwu rd rs1 imm) s rd rs1 imm .word 4 (fun v => v)
              ∧ LoadRule (.ld rd rs1 imm) s rd rs1 imm .long 8 (fun v => v))

/-- R222, R230 to R233, with the address of R220; the stored bytes are at the address `eaNat` computes. The note and the record of writes are the model's own fields (notes/assumptions/9.md and 21.md). Memory is in canonical form, which every step keeps (`StepKeepsInvariant`). -/
def Obligations.Stores : Prop :=
  ∀ (rs2 rs1 : RegId) (imm : BitVec 12),
    EncodedAs (.sb rs2 rs1 imm) (imm.extractLsb' 5 7 ++ bitsOfReg rs2 ++ bitsOfReg rs1 ++ 0b000#3
        ++ imm.extractLsb' 0 5 ++ 0x23#7)
      ∧ EncodedAs (.sh rs2 rs1 imm) (imm.extractLsb' 5 7 ++ bitsOfReg rs2 ++ bitsOfReg rs1 ++ 0b001#3
        ++ imm.extractLsb' 0 5 ++ 0x23#7)
      ∧ EncodedAs (.sw rs2 rs1 imm) (imm.extractLsb' 5 7 ++ bitsOfReg rs2 ++ bitsOfReg rs1 ++ 0b010#3
        ++ imm.extractLsb' 0 5 ++ 0x23#7)
      ∧ EncodedAs (.sd rs2 rs1 imm) (imm.extractLsb' 5 7 ++ bitsOfReg rs2 ++ bitsOfReg rs1 ++ 0b011#3
        ++ imm.extractLsb' 0 5 ++ 0x23#7)
      ∧ ErrorOnRv32 (.sd rs2 rs1 imm)
      ∧ ∀ s : State,
        StoreRule (.sb rs2 rs1 imm) s rs2 rs1 imm .byte 1 ∧ StoreRule (.sh rs2 rs1 imm) s rs2 rs1 imm .half 2
          ∧ StoreRule (.sw rs2 rs1 imm) s rs2 rs1 imm .word 4
          ∧ (s.params.xlen = .rv64 → StoreRule (.sd rs2 rs1 imm) s rs2 rs1 imm .long 8)

/-- R250. -/
def Obligations.FenceIsNoOperation : Prop :=
  ∀ (fm pred succ : BitVec 4) (rs1 rd : RegId),
    EncodedAs (.fence fm pred succ rs1 rd)
        (fm ++ pred ++ succ ++ bitsOfReg rs1 ++ 0b000#3 ++ bitsOfReg rd ++ 0x0F#7)
      ∧ ∀ s : State, s.notFull → GoesTo (.fence fm pred succ rs1 rd) s s.pcPlus4

/-- R255 (b); the pause, R255 (a), is `BreakpointPauses`. -/
def Obligations.ExecutedEbreakIsNoOperation : Prop :=
  EncodedAs .ebreak 0x00100073#32 ∧ ∀ s : State, s.notFull → GoesTo .ebreak s s.pcPlus4

/-- R253; that nothing executes afterwards is `HaltedIsAbsorbing`'s, repeated here as the last clause. -/
def Obligations.ExitCallHalts : Prop :=
  ∀ s : State, s.x 10 = s.params.exitA0 → s.notFull →
    ∃ t, exec .ecall s = .next t ∧ (∀ r, t.x r = s.x r) ∧ Counted s t s.pcPlus4
      ∧ SameMem s t ∧ SameHeap s t ∧ t.params = s.params ∧ t.runState = .halted ∧ t.err = s.err
      ∧ t.alignedAddresses = s.alignedAddresses ∧ t.alwaysCalloc = s.alwaysCalloc
      ∧ t.requests = s.requests ∧ t.replies = s.replies
      ∧ ∀ u, step t = .next u → t.requests.head? ≠ some .reset → u.cycles = t.cycles ∧ u.runState = .halted

/-- R256, R358; the comparisons are on the whole register (R252). -/
def Obligations.UnservedCallsRaise : Prop :=
  ∀ s : State, s.x 10 ≠ s.params.exitA0 →
    (s.params.hasAllocService = false ∨ s.x 10 ≠ s.params.allocMarker
      ∨ (s.x 16).toNat = 0 ∨ 5 < (s.x 16).toNat) →
    Raises .ecall s (.unsupportedEcall s.pc (s.x 10) (s.x 16))

/-- R277, R279, R280, with R274 under U2 and R278 under U11. That metadata and reused bytes are told apart by a history of writes, and that a payload byte never written since reset stays, is the model's choice (notes/assumptions/8.md, 12.md and 21.md). -/
def Obligations.MallocTakesTheFirstFit : Prop :=
  ∀ (s : State) (sel size rs : Nat) (before after : List Block) (b : Block),
    s.inv = true → s.AllocCall sel → (sel = 1 ∨ sel = 2) → (s.x 11).toNat = size → 0 < size →
    s.RoundedUp size rs →
    s.blocks = before ++ b :: after → b.free = true → rs ≤ b.size →
    (∀ c ∈ before, c.free = true → c.size < rs) →
    ∃ t, CallReturns s t (b.base + s.params.hdrSize)
      ∧ t.hwm = s.hwm ∧ t.numActiveBlocks = s.numActiveBlocks + 1
      ∧ (rs + s.params.hdrSize < b.size →
          t.blocks = before ++ { b with size := rs, free := false }
              :: { base := b.base + s.params.hdrSize + rs, size := b.size - rs - s.params.hdrSize, free := true }
              :: after
            ∧ HandsOut s t { b with size := rs, free := false } (sel == 2 || s.alwaysCalloc) true)
      ∧ (b.size ≤ rs + s.params.hdrSize →
          t.blocks = before ++ { b with free := false } :: after
            ∧ HandsOut s t { b with free := false } (sel == 2 || s.alwaysCalloc) true)

/-- R271, R277, R278, R279, R280. Which bytes outside the headers count as metadata that may change (U2) is told by the model's history of writes, and that no other byte changes is the model's choice (notes/assumptions/8.md, 12.md and 21.md). -/
def Obligations.MallocExtendsOrReturnsNull : Prop :=
  ∀ (s : State) (sel size rs : Nat),
    s.inv = true → s.AllocCall sel → (sel = 1 ∨ sel = 2) → (s.x 11).toNat = size → 0 < size →
    s.RoundedUp size rs →
    s.NoFit rs →
    (s.hwm + s.params.hdrSize + rs ≤ s.params.heapLimit →
      ∃ t, CallReturns s t (s.hwm + s.params.hdrSize)
        ∧ t.blocks = s.blocks ++ [{ base := s.hwm, size := rs, free := false }]
        ∧ t.hwm = s.hwm + s.params.hdrSize + rs ∧ t.numActiveBlocks = s.numActiveBlocks + 1
        ∧ HandsOut s t { base := s.hwm, size := rs, free := false } (sel == 2 || s.alwaysCalloc) false)
    ∧ (s.params.heapLimit < s.hwm + s.params.hdrSize + rs →
      ∃ t, CallReturns s t 0 ∧ SameMem s t ∧ SameHeap s t)

/-- U9: which of the two happens is a free value; the statement holds for both. The model's choice, and no rule of the spec: that a NULL answer changes nothing but metadata bytes and that realloc of a block to size 0 never frees it (notes/assumptions/10.md), that the address is taken modulo `2^XLEN` (18.md), and which payload bytes may change (8.md and 21.md). -/
def Obligations.ZeroSizeRequestsReturnNullOrABlock : Prop :=
  (∀ (s : State) (sel : Nat), s.inv = true → s.AllocCall sel → (sel = 1 ∨ sel = 2) → s.x 11 = 0 →
      ∃ t v, CallReturns s t v
        ∧ ((v = 0 ∧ SameButMetadata s t ∧ t.blocks = s.blocks ∧ t.hwm = s.hwm ∧ t.numActiveBlocks = s.numActiveBlocks)
          ∨ (t.numActiveBlocks = s.numActiveBlocks + 1 ∧
              ∃ b ∈ t.blocks, b.free = false ∧ (b.base + s.params.hdrSize) % 2 ^ s.params.xlen.bits = v
                ∧ KeepsOtherBlocks s t b.base ∧ ∀ c ∈ s.blocks, c.free = false → c.base ≠ b.base)))
    ∧ (∀ (s : State) (before after : List Block) (b : Block), s.inv = true → s.AllocCall 3 → s.x 12 = 0 →
      s.blocks = before ++ b :: after → b.free = false → (s.x 11).toNat = b.base + s.params.hdrSize →
      ∃ t v, CallReturns s t v ∧ t.numActiveBlocks = s.numActiveBlocks ∧ t.hwm = s.hwm
        ∧ ((v = 0 ∧ SameButMetadata s t ∧ t.blocks = s.blocks)
          ∨ (v = (s.x 11).toNat ∧ ∃ c ∈ t.blocks, c.free = false ∧ c.base = b.base
            ∧ KeepsOtherBlocks s t b.base)))

/-- R286, R254 (operation 4 writes no register), R274 under U2. Which bytes of former headers may still change is told by the model's history of writes, and that no other byte changes is the model's choice there (notes/assumptions/8.md and 21.md). -/
def Obligations.FreeMarksAndCoalesces : Prop :=
  ∀ (s : State) (before after : List Block) (b : Block), s.inv = true → s.AllocCall 4 →
    s.blocks = before ++ b :: after → b.free = false → (s.x 11).toNat = b.base + s.params.hdrSize →
    ∃ t, CallReturns s t (s.x 10).toNat
      ∧ t.blocks = freedList s.params.hdrSize before b after
      ∧ t.hwm = s.hwm ∧ t.numActiveBlocks + 1 = s.numActiveBlocks
      ∧ Recorded s t (fun _ => False) ∧ (∀ a, ¬ t.MetadataByte a → t.mem.read a = s.mem.read a)

/-- R286 (a NULL address is a no-op), R288 (it changes no state), R254. That metadata bytes stay too follows these rules over U2, which lets them change at any allocator call: that clause is the model's choice (notes/assumptions/8.md). -/
def Obligations.FreeOfNullAndCount : Prop :=
  (∀ s : State, s.AllocCall 4 → s.x 11 = 0 → GoesTo .ecall s s.pcPlus4)
    ∧ (∀ s : State, s.AllocCall 5 →
      WritesReg .ecall s 10 (s.numActiveBlocks % 2 ^ s.params.xlen.bits) s.pcPlus4)

/-- R282 under U10 and U12. How much of the capacity is kept is a free value; the statement holds for every one. The model's choice: the lists it is chosen from (notes/assumptions/11.md), that a tail byte never written since reset stays (12.md), and which former header bytes may change (8.md and 21.md). -/
def Obligations.ReallocResizesInPlace : Prop :=
  ∀ (s : State) (size rs cap : Nat) (before after : List Block) (b : Block), s.inv = true → s.AllocCall 3 →
    s.blocks = before ++ b :: after → b.free = false → (s.x 11).toNat = b.base + s.params.hdrSize →
    (s.x 12).toNat = size → 0 < size → s.RoundedUp size rs →
    cap = roomAt s.params.hdrSize b after → rs ≤ cap →
    ∃ t, CallReturns s t (s.x 11).toNat
      ∧ t.hwm = s.hwm ∧ t.numActiveBlocks = s.numActiveBlocks
      ∧ (∀ k, k < min b.size size →
          t.mem.read ((s.x 11).toNat + k) = s.mem.read ((s.x 11).toNat + k))
      ∧ ∃ (keep : Nat) (rest : List Block), rs ≤ keep
        ∧ rest = pastRoom after ∧ Recorded s t (fun _ => False) ∧ KeepsOtherBlocks s t b.base
        ∧ (∀ a, ¬ t.MetadataByte a →
            ((s.x 11).toNat + b.size ≤ a ∧ a < (s.x 11).toNat + keep → s.NeverWritten a) →
            t.mem.read a = s.mem.read a)
        ∧ ((keep = cap ∧ t.blocks = before ++ { b with size := cap } :: rest)
          ∨ (keep + s.params.hdrSize ≤ cap ∧ t.blocks = before ++ { b with size := keep }
              :: { base := b.base + s.params.hdrSize + keep, size := cap - keep - s.params.hdrSize, free := true }
              :: rest))

/-- R277, R279, R284, R285, with R274 under U2 and R278 under U11. That a payload byte never written since reset stays, and which former header bytes may change, is the model's choice (notes/assumptions/8.md, 12.md and 21.md). -/
def Obligations.ReallocMovesOrFails : Prop :=
  ∀ (s : State) (size rs cap : Nat) (before after : List Block) (b : Block), s.inv = true → s.AllocCall 3 →
    s.blocks = before ++ b :: after → b.free = false → (s.x 11).toNat = b.base + s.params.hdrSize →
    (s.x 12).toNat = size → 0 < size → s.RoundedUp size rs →
    cap = roomAt s.params.hdrSize b after → cap < rs →
    (∀ (left right : List Block) (c : Block), s.blocks = left ++ c :: right → c.free = true → rs ≤ c.size →
      (∀ d ∈ left, d.free = true → d.size < rs) →
      ∃ t, t.hwm = s.hwm
        ∧ MovesTo s t b (takenFrom s.params.hdrSize rs c).1
            (left ++ (takenFrom s.params.hdrSize rs c).1 :: ((takenFrom s.params.hdrSize rs c).2 ++ right))
            (min b.size size) true)
    ∧ (s.NoFit rs → s.hwm + s.params.hdrSize + rs ≤ s.params.heapLimit →
      ∃ t, t.hwm = s.hwm + s.params.hdrSize + rs
        ∧ MovesTo s t b { base := s.hwm, size := rs, free := false }
            (s.blocks ++ [{ base := s.hwm, size := rs, free := false }]) (min b.size size) false)
    ∧ (s.NoFit rs → s.params.heapLimit < s.hwm + s.params.hdrSize + rs →
      ∃ t, CallReturns s t 0 ∧ SameMem s t ∧ SameHeap s t)

/-- R281: the result of `realloc(NULL, n)` is that of `malloc(n)`; memory and the allocator's state too. That the free values (metadata bytes, reused payload bytes, the answer to a zero-size request) agree in the two runs is the model's choice: both draw from equal counters (notes/assumptions/7.md). -/
def Obligations.ReallocOfNullIsMalloc : Prop :=
  ∀ s u t : State, s.AllocCall 3 → s.x 11 = 0 → u = { s with regs := u.regs } → u.AllocCall 1 → u.x 11 = s.x 12 →
    exec .ecall u = .next t →
    ∃ t', exec .ecall s = .next t' ∧ t'.x 10 = t.x 10 ∧ t' = { t with regs := t'.regs }

/-- R296, R359; tested before the service's metadata accesses (R362). The refusal of R275 comes first (notes/assumptions/9.md). -/
def Obligations.InvalidPointersRaise : Prop :=
  ∀ s : State, s.params.hasAllocService = true → s.x 10 = s.params.allocMarker → s.x 10 ≠ s.params.exitA0 →
    ((s.x 16).toNat = 3 ∨ (s.x 16).toNat = 4) → s.headersTouched = false → s.x 11 ≠ 0 →
    (∀ b ∈ s.blocks, b.free = false → b.base + s.params.hdrSize ≠ (s.x 11).toNat) →
    Raises .ecall s (.invalidFree s.pc (s.x 11))

/-- R275, U3. That the refusal comes before the invalid-pointer and the metadata checks, and that the count and the free of NULL are refused too, is the model's choice (notes/assumptions/9.md). That a store, a host store and removeByte set the note is part of `Stores`, `HostMemoryPort` and `RemoveByteAndLaneMask`. -/
def Obligations.CallsAfterHeaderWritesAreRefused : Prop :=
  ∀ s : State, s.params.hasAllocService = true → s.x 10 = s.params.allocMarker → s.x 10 ≠ s.params.exitA0 →
    1 ≤ (s.x 16).toNat → (s.x 16).toNat ≤ 5 → s.headersTouched = true →
    exec .ecall s = .refused .headerOverwritten

/-- R290 (every allocator `ECALL` raises): the address depends on the unknown layout, so it is a free value. What is said of the fault's width and address, and that the free of NULL and the count are meant too, is read from the spec's words (notes/assumptions/13.md, DEDUCED). The pointers left out here raise `InvalidFree` first (R362), by `InvalidPointersRaise`. -/
def Obligations.MisalignedMetadataRaises : Prop :=
  ∀ s : State, s.params.hasAllocService = true → s.x 10 = s.params.allocMarker → s.x 10 ≠ s.params.exitA0 →
    ((s.x 16).toNat = 1 ∨ (s.x 16).toNat = 2 ∨ (s.x 16).toNat = 5
      ∨ (((s.x 16).toNat = 3 ∨ (s.x 16).toNat = 4) ∧ (s.x 11 = 0
        ∨ ∃ b ∈ s.blocks, b.free = false ∧ b.base + s.params.hdrSize = (s.x 11).toNat))) →
    s.headersTouched = false → s.alignedAddresses = true →
    ¬ (s.params.heapBase % (s.params.xlen.bits / 8) = 0 ∧ s.params.hdrSize % (s.params.xlen.bits / 8) = 0
        ∧ s.params.allocAlign % (s.params.xlen.bits / 8) = 0) →
    ∃ addr w isStore, Raises .ecall s (.alignmentError addr w isStore) ∧ w ≠ .byte
      ∧ (w = .long → s.params.xlen = .rv64) ∧ addr.toNat < 2 ^ s.params.xlen.bits ∧ addr.toNat % w.bytes ≠ 0

/-- R274 (last sentence), R286 (`hwm` does not move). -/
def Obligations.ServiceWritesOnlyTheHeap : Prop :=
  ∀ s t : State, s.inv = true → exec .ecall s = .next t →
    s.hwm ≤ t.hwm ∧ ∀ a, (a < s.params.heapBase ∨ t.hwm ≤ a) → t.mem.read a = s.mem.read a

/-- R289, for the case D00's scenario has (no earlier free block). `u` is any state after the free with the allocator as the free left it, asking for the allocation. -/
def Obligations.FreedBlocksAreReused : Prop :=
  ∀ (s t u : State) (size rs : Nat) (before after : List Block) (b : Block), s.inv = true → s.AllocCall 4 →
    s.blocks = before ++ b :: after → b.free = false → (s.x 11).toNat = b.base + s.params.hdrSize →
    (∀ c ∈ before, c.free = false) → exec .ecall s = .next t →
    u.inv = true → u.params = t.params → u.blocks = t.blocks → u.AllocCall 1 → (u.x 11).toNat = size →
    0 < size → u.RoundedUp size rs → rs ≤ b.size →
    ∃ v, CallReturns u v (b.base + s.params.hdrSize)

/-- R76, R234, from every state with canonical memory. -/
def Obligations.MixedWidthReadsSeeLastWrite : Prop :=
  ∀ (s t : State) (a v : Word) (w m : Width) (k : Nat), s.mem.wf = true → s.memWrite a w v = .ok t →
    k + m.bytes ≤ w.bytes → t.allowed ((a.toNat + k) % 2 ^ t.params.xlen.bits) m.bytes →
    ∃ r, t.memRead (t.params.xlen.narrow (a + BitVec.ofNat 64 k)) m = .ok r
      ∧ r.toNat = v.toNat / 256 ^ k % 256 ^ m.bytes

/-- R332, R369, R275 (a host write that touches a header is noted). The note and the record of writes are the model's own fields (notes/assumptions/9.md and 21.md). -/
def Obligations.HostMemoryPort : Prop :=
  ∀ (s : State) (w : Width) (a v : Word) (rest : List PortRequest), s.isRunning = false → s.mem.wf = true →
    a.toNat < 2 ^ s.params.xlen.bits → (w = .long → s.params.xlen = .rv64) →
    (s.requests = .load w a :: rest →
      (s.allowed a.toNat w.bytes → ∃ d : Word, d.toNat = s.bytesValue a.toNat w.bytes
        ∧ step s = .next { s with requests := rest, replies := s.replies ++ [.data d] })
      ∧ (¬ s.allowed a.toNat w.bytes →
        step s = .next { s with requests := rest, replies := s.replies ++ [.alignmentError a w false] }))
    ∧ (s.requests = .store w a v :: rest →
      (s.allowed a.toNat w.bytes → ∃ t, step s = .next t
        ∧ t = { s with requests := rest, mem := t.mem, headersTouched := t.headersTouched, history := t.history }
        ∧ NotesHeaders s t a.toNat w.bytes ∧ RecordsData s t a.toNat w.bytes
        ∧ (∀ k, k < w.bytes →
            t.mem.read ((a.toNat + k) % 2 ^ s.params.xlen.bits) = BitVec.ofNat 8 (v.toNat / 256 ^ k))
        ∧ (∀ c, (∀ k, k < w.bytes → c ≠ (a.toNat + k) % 2 ^ s.params.xlen.bits) →
            t.mem.read c = s.mem.read c))
      ∧ (¬ s.allowed a.toNat w.bytes →
        step s = .next { s with requests := rest, replies := s.replies ++ [.alignmentError a w true] }))
    ∧ (∀ q : PortRequest, s.requests = q :: rest → (∀ v b, q ≠ .load v b) → (∀ v b d, q ≠ .store v b d) →
      ∃ t, step s = .next t ∧ ∀ b v st, .alignmentError b v st ∈ t.replies → .alignmentError b v st ∈ s.replies)

/-- R74, R75, R333, R275 (a removeByte that touches a header is noted). The note and the record of writes are the model's own fields (notes/assumptions/9.md and 21.md). -/
def Obligations.RemoveByteAndLaneMask : Prop :=
  (∀ (s : State) (a : Word) (rest : List PortRequest), s.isRunning = false → s.mem.wf = true →
      a.toNat < 2 ^ s.params.xlen.bits → s.requests = .removeByte a :: rest →
      ∃ t, step s = .next t
        ∧ t = { s with requests := rest, mem := t.mem, headersTouched := t.headersTouched, history := t.history }
        ∧ NotesHeaders s t a.toNat 1 ∧ RecordsData s t a.toNat 1
        ∧ t.mem.read a.toNat = 0 ∧ (∀ c, c ≠ a.toNat → t.mem.read c = s.mem.read c))
    ∧ (∀ (s : State) (a : Word) (rest : List PortRequest), s.isRunning = false →
      a.toNat < 2 ^ s.params.xlen.bits → s.requests = .wordOffsetMask a :: rest →
      ∃ m : BitVec 32, step s = .next { s with requests := rest, replies := s.replies ++ [.mask m] }
        ∧ (a.toNat % 4 = 0 → m = 0x000000FF#32) ∧ (a.toNat % 4 = 1 → m = 0x0000FF00#32)
        ∧ (a.toNat % 4 = 2 → m = 0x00FF0000#32) ∧ (a.toNat % 4 = 3 → m = 0xFF000000#32))

/-- R330, R331, R334, R335, R32, R350. -/
def Obligations.HostInspectionAndConfiguration : Prop :=
  (∀ (s : State) (rest : List PortRequest) (q : PortRequest) (a : PortReply), s.isRunning = false →
      s.requests = q :: rest →
      ((∃ r, q = .getReg r ∧ a = .value (s.x r)) ∨ (q = .getPC ∧ a = .value s.pc)
        ∨ (q = .getCycles ∧ a = .cycles s.cycles) ∨ (q = .getState ∧ a = .runState s.runState)
        ∨ (q = .getErr ∧ a = .err s.err.code s.err) ∨ (q = .getNumActiveBlocks ∧ a = .count s.numActiveBlocks)
        ∨ (q = .getAlignedAddresses ∧ a = .flag s.alignedAddresses)
        ∨ (q = .getAlwaysCalloc ∧ a = .flag s.alwaysCalloc)) →
      step s = .next { s with requests := rest, replies := s.replies ++ [a] })
    ∧ (∀ (s : State) (b : Bool) (rest : List PortRequest), s.isRunning = false →
      (s.requests = .setAlignedAddresses b :: rest →
        step s = .next { s with requests := rest, alignedAddresses := b })
      ∧ (s.requests = .setAlwaysCalloc b :: rest →
        step s = .next { s with requests := rest, alwaysCalloc := b }))
    ∧ (∀ (a pc : Word) (w : Width) (st : Bool) (word : InstrWord) (b c : Word) (n : BitVec 64),
      Err.none.code = 0 ∧ (Err.alignmentError a w st).code = 1 ∧ (Err.decodeError pc word).code = 2
        ∧ (Err.fetchFault pc).code = 3 ∧ (Err.instrAddrMisaligned pc a).code = 4
        ∧ (Err.unsupportedEcall pc b c).code = 5 ∧ (Err.invalidFree pc a).code = 6
        ∧ (Err.stepLimitExceeded n).code = 7)
end

