-- ==== Sys2Proof/Laws/Bits.lean ====
section
/-! SUPPORT. What the width helpers do, in numbers: a lifted function works on the low `XLEN` bits and
gives an `XLEN`-bit value (R7, R190); extensions and bytes (R8, R65). -/

namespace Sys2Proof

@[simp] theorem Xlen.bits_le (x : Xlen) : x.bits ≤ 64 := by cases x <;> decide

theorem Xlen.bits_pos (x : Xlen) : 0 < x.bits := by cases x <;> decide

theorem Xlen.pow_bits_le (x : Xlen) : 2 ^ x.bits ≤ 2 ^ 64 := by cases x <;> decide

theorem Xlen.pow_bits_pos (x : Xlen) : 0 < 2 ^ x.bits := by cases x <;> decide

/-- The number a lifted function gives: the function's own at `XLEN` bits. -/
theorem Xlen.toNat_lift2 (x : Xlen) (f : (w : Nat) → BitVec w → BitVec w → BitVec w) (a b : Word) :
    (x.lift2 f a b).toNat = (f x.bits (a.setWidth x.bits) (b.setWidth x.bits)).toNat := by
  cases x with
  | rv32 =>
    simp only [Xlen.lift2, Xlen.bits, BitVec.toNat_setWidth]
    exact Nat.mod_eq_of_lt (Nat.lt_of_lt_of_le (BitVec.isLt _) (by decide))
  | rv64 => simp [Xlen.lift2, Xlen.bits]

theorem Xlen.lift2_lt (x : Xlen) (f : (w : Nat) → BitVec w → BitVec w → BitVec w) (a b : Word) :
    (x.lift2 f a b).toNat < 2 ^ x.bits := by
  rw [x.toNat_lift2]; exact BitVec.isLt _

/-- A lifted comparison is the comparison at `XLEN` bits. -/
theorem Xlen.compare_eq (x : Xlen) (f : (w : Nat) → BitVec w → BitVec w → Bool) (a b : Word) :
    x.compare f a b = f x.bits (a.setWidth x.bits) (b.setWidth x.bits) := by
  cases x <;> simp [Xlen.compare, Xlen.bits]

theorem Xlen.toNat_sext (x : Xlen) {n : Nat} (v : BitVec n) :
    (x.sext v).toNat = (v.signExtend x.bits).toNat := by
  simp only [Xlen.sext, BitVec.toNat_setWidth]
  exact Nat.mod_eq_of_lt (Nat.lt_of_lt_of_le (BitVec.isLt _) x.pow_bits_le)

theorem Xlen.sext_lt (x : Xlen) {n : Nat} (v : BitVec n) : (x.sext v).toNat < 2 ^ x.bits := by
  rw [x.toNat_sext]; exact BitVec.isLt _

/-- A sign-extended field is the field's signed value modulo `2^XLEN` (R8). -/
theorem Xlen.toNat_sext_eq (x : Xlen) {n : Nat} (v : BitVec n) :
    (x.sext v).toNat = (v.toInt % (2 ^ x.bits : Nat)).toNat := by
  rw [x.toNat_sext, BitVec.signExtend, BitVec.toNat_ofInt]

theorem Xlen.toNat_zext (x : Xlen) {n : Nat} (v : BitVec n) :
    (x.zext v).toNat = v.toNat % 2 ^ x.bits := by
  simp only [Xlen.zext, BitVec.toNat_setWidth]
  exact Nat.mod_eq_of_lt (Nat.lt_of_lt_of_le (Nat.mod_lt _ x.pow_bits_pos) x.pow_bits_le)

theorem Xlen.zext_lt (x : Xlen) {n : Nat} (v : BitVec n) : (x.zext v).toNat < 2 ^ x.bits := by
  rw [x.toNat_zext]; exact Nat.mod_lt _ x.pow_bits_pos

@[simp] theorem Xlen.toNat_narrow (x : Xlen) (v : Word) : (x.narrow v).toNat = v.toNat % 2 ^ x.bits := by
  cases x with
  | rv32 => simp [Xlen.narrow, Xlen.bits]; omega
  | rv64 => simp [Xlen.narrow, Xlen.bits]; omega

theorem Xlen.narrow_lt (x : Xlen) (v : Word) : (x.narrow v).toNat < 2 ^ x.bits := by
  rw [x.toNat_narrow]; exact Nat.mod_lt _ x.pow_bits_pos

/-- An `XLEN`-bit value is not changed by narrowing. -/
theorem Xlen.narrow_of_lt (x : Xlen) (v : Word) (h : v.toNat < 2 ^ x.bits) : x.narrow v = v := by
  apply BitVec.eq_of_toNat_eq
  rw [x.toNat_narrow, Nat.mod_eq_of_lt h]

theorem Xlen.addrMod_lt (x : Xlen) (a : Nat) : x.addrMod a < 2 ^ x.bits :=
  Nat.mod_lt _ x.pow_bits_pos

/-- `a + b` modulo `2^XLEN` (R190). -/
theorem Machine.State.toNat_add (s : Machine.State) (a b : Word) :
    (s.add a b).toNat = (a.toNat + b.toNat) % 2 ^ s.params.xlen.bits := by
  simp [Machine.State.add, Xlen.toNat_lift2, Machine.aluAdd]

/-- `pc + 4` modulo `2^XLEN` (R26). -/
theorem Machine.State.toNat_seqPc (s : Machine.State) :
    s.seqPc.toNat = (s.pc.toNat + 4) % 2 ^ s.params.xlen.bits := by
  simp [Machine.State.seqPc, Machine.State.toNat_add]

/-- The effective address of a load or store, in numbers (R220). -/
theorem Machine.State.toNat_ea (s : Machine.State) (rs1 : RegId) (imm : BitVec 12) :
    (s.ea rs1 imm).toNat =
      ((s.x rs1).toNat + (imm.toInt % (2 ^ s.params.xlen.bits : Nat)).toNat)
        % 2 ^ s.params.xlen.bits := by
  rw [Machine.State.ea, Machine.State.toNat_add, Machine.State.imm12, Xlen.toNat_sext_eq]

/-! ### Bytes -/

@[simp] theorem bytesLE_length (n : Nat) (v : Word) : (bytesLE n v).length = n := by
  induction n generalizing v with
  | zero => rfl
  | succ n ih => simp [bytesLE, ih]

/-- Byte `i` of a value (R65). -/
theorem bytesLE_getElem (n : Nat) (v : Word) (i : Nat) (h : i < n) :
    (bytesLE n v)[i]'(by simpa using h) = BitVec.ofNat 8 (v.toNat / 256 ^ i) := by
  induction n generalizing v i with
  | zero => omega
  | succ n ih =>
    cases i with
    | zero =>
      simp only [bytesLE, List.getElem_cons_zero]
      apply BitVec.eq_of_toNat_eq
      simp
    | succ i =>
      simp only [bytesLE, List.getElem_cons_succ]
      rw [ih (v >>> 8) i (by omega)]
      have h256 : 256 ^ (i + 1) = 2 ^ 8 * 256 ^ i := by rw [pow_succ]; ring
      simp only [BitVec.toNat_ushiftRight, Nat.shiftRight_eq_div_pow, Nat.div_div_eq_div_mul, h256]

/-- The value of bytes given the least significant first, as a number. -/
theorem composeLE_toNat (bs : List Byte) (h : bs.length ≤ 8) :
    (composeLE bs).toNat = bs.foldr (fun b acc => b.toNat + 256 * acc) 0 ∧
      (composeLE bs).toNat < 256 ^ bs.length := by
  induction bs with
  | nil => simp [composeLE]
  | cons b bs ih =>
    have hl : bs.length ≤ 7 := by rw [List.length_cons] at h; omega
    obtain ⟨h1, h2⟩ := ih (by omega)
    have hb : b.toNat < 256 := b.isLt
    have hp : (256 : Nat) ^ bs.length ≤ 256 ^ 7 := Nat.pow_le_pow_right (by decide) hl
    have hs : ((composeLE bs <<< 8 : Word)).toNat = (composeLE bs).toNat <<< 8 := by
      rw [BitVec.toNat_shiftLeft, Nat.shiftLeft_eq]
      exact Nat.mod_eq_of_lt (by omega)
    have hor : (composeLE bs).toNat <<< 8 ||| b.toNat = (composeLE bs).toNat * 256 + b.toNat := by
      rw [← Nat.shiftLeft_add_eq_or_of_lt (i := 8) hb, Nat.shiftLeft_eq]
    have hv : (composeLE (b :: bs)).toNat = (composeLE bs).toNat * 256 + b.toNat := by
      simp only [composeLE, BitVec.toNat_or, BitVec.toNat_setWidth]
      rw [hs, Nat.mod_eq_of_lt (show b.toNat < 2 ^ 64 by omega), hor]
    refine ⟨?_, ?_⟩
    · rw [hv, h1]; simp only [List.foldr_cons]; ring
    · rw [hv, List.length_cons, pow_succ]; omega

end Sys2Proof
end

