-- ==== Sys2Proof/Laws/Memory.lean ====
section
/-! SUPPORT. The laws of data memory (R34, R66, R67, R76): a byte reads as it was last written, a write
leaves every other byte alone, and every memory operation keeps the canonical form; the same of the history. -/

namespace Sys2Proof.Machine

/-! ### One byte -/

/-- A byte below every listed address is zero (R34). -/
theorem Memory.read_below (m : Memory) (lo a : Nat) (h : m.wfFrom lo = true) (ha : a < lo) :
    m.read a = 0#8 := by
  cases m with
  | nil => rfl
  | cons c rest =>
    obtain ⟨k, b⟩ := c
    simp only [Memory.wfFrom, Bool.and_eq_true, decide_eq_true_eq] at h
    simp only [Memory.read]
    rw [if_pos (by omega)]

theorem Memory.wfFrom_mono (m : Memory) (lo lo' : Nat) (h : m.wfFrom lo = true) (hl : lo' ≤ lo) :
    m.wfFrom lo' = true := by
  cases m with
  | nil => rfl
  | cons c rest =>
    obtain ⟨k, b⟩ := c
    simp only [Memory.wfFrom, Bool.and_eq_true, decide_eq_true_eq] at h ⊢
    exact ⟨⟨by omega, h.1.2⟩, h.2⟩

/-- R76: a byte reads as it was last written. -/
theorem Memory.read_write_same (m : Memory) (lo a : Nat) (b : Byte) (h : m.wfFrom lo = true) :
    (m.write a b).read a = b := by
  induction m generalizing lo with
  | nil => by_cases hb : b = 0#8 <;> simp [Memory.write, hb, Memory.read]
  | cons c rest ih =>
    obtain ⟨k, d⟩ := c
    simp only [Memory.wfFrom, Bool.and_eq_true, decide_eq_true_eq] at h
    by_cases h1 : a < k
    · by_cases hb : b = 0#8 <;> simp [Memory.write, h1, hb, Memory.read]
    · by_cases h2 : a = k
      · subst h2
        by_cases hb : b = 0#8
        · simp [Memory.write, hb, Memory.read_below rest (a + 1) a h.2 (by omega)]
        · simp [Memory.write, hb, Memory.read]
      · simp only [Memory.write, if_neg h1, if_neg h2, Memory.read]
        exact ih (k + 1) h.2

/-- A write leaves every other byte alone. -/
theorem Memory.read_write_other (m : Memory) (lo a a' : Nat) (b : Byte) (h : m.wfFrom lo = true)
    (hne : a' ≠ a) : (m.write a b).read a' = m.read a' := by
  induction m generalizing lo with
  | nil =>
    by_cases hb : b = 0#8
    · simp [Memory.write, hb]
    · simp only [Memory.write, if_neg hb, Memory.read]; split <;> simp
  | cons c rest ih =>
    obtain ⟨k, d⟩ := c
    simp only [Memory.wfFrom, Bool.and_eq_true, decide_eq_true_eq] at h
    by_cases h1 : a < k
    · by_cases hb : b = 0#8
      · simp [Memory.write, h1, hb]
      · simp only [Memory.write, if_pos h1, if_neg hb, Memory.read, if_neg hne]
        by_cases ha : a' < a
        · rw [if_pos ha, if_pos (by omega)]
        · rw [if_neg ha]
    · by_cases h2 : a = k
      · subst h2
        by_cases hb : b = 0#8
        · simp only [Memory.write, if_neg h1, if_true, if_pos hb, Memory.read, if_neg hne]
          by_cases ha : a' < a
          · rw [if_pos ha, Memory.read_below rest (a + 1) a' h.2 (by omega)]
          · rw [if_neg ha]
        · simp only [Memory.write, if_neg h1, if_true, if_neg hb, Memory.read, if_neg hne]
      · simp only [Memory.write, if_neg h1, if_neg h2, Memory.read]
        rw [ih (k + 1) h.2]

theorem Memory.wfFrom_write (m : Memory) (lo a : Nat) (b : Byte) (h : m.wfFrom lo = true) (ha : lo ≤ a) :
    (m.write a b).wfFrom lo = true := by
  induction m generalizing lo with
  | nil => by_cases hb : b = 0#8 <;> simp [Memory.write, hb, Memory.wfFrom, ha]
  | cons c rest ih =>
    obtain ⟨k, d⟩ := c
    have h' := h
    simp only [Memory.wfFrom, Bool.and_eq_true, decide_eq_true_eq] at h
    by_cases h1 : a < k
    · by_cases hb : b = 0#8
      · simpa [Memory.write, h1, hb] using h'
      · simp only [Memory.write, if_pos h1, if_neg hb, Memory.wfFrom, Bool.and_eq_true,
          decide_eq_true_eq]
        exact ⟨⟨ha, by simpa using hb⟩, ⟨by omega, h.1.2⟩, h.2⟩
    · by_cases h2 : a = k
      · subst h2
        by_cases hb : b = 0#8
        · simp only [Memory.write, if_neg h1, if_true, if_pos hb]
          exact Memory.wfFrom_mono rest (a + 1) lo h.2 (by omega)
        · simp only [Memory.write, if_neg h1, if_true, if_neg hb, Memory.wfFrom, Bool.and_eq_true,
            decide_eq_true_eq]
          exact ⟨⟨ha, by simpa using hb⟩, h.2⟩
      · simp only [Memory.write, if_neg h1, if_neg h2, Memory.wfFrom, Bool.and_eq_true,
          decide_eq_true_eq]
        exact ⟨h.1, ih (k + 1) h.2 (by omega)⟩

/-- A write keeps the canonical form. -/
theorem Memory.wf_write (m : Memory) (a : Nat) (b : Byte) (h : m.wf = true) : (m.write a b).wf = true :=
  Memory.wfFrom_write m 0 a b h (Nat.zero_le _)

@[simp] theorem Memory.wf_nil : Memory.wf [] = true := rfl

theorem Memory.within_write (m : Memory) (x : Xlen) (a : Nat) (b : Byte) (h : m.within x = true)
    (ha : a < 2 ^ x.bits) : (m.write a b).within x = true := by
  induction m with
  | nil => by_cases hb : b = 0#8 <;> simp [Memory.write, hb, Memory.within, ha]
  | cons c rest ih =>
    obtain ⟨k, d⟩ := c
    have h' := h
    simp only [Memory.within, List.all_cons, Bool.and_eq_true, decide_eq_true_eq] at h ih
    by_cases h1 : a < k
    · by_cases hb : b = 0#8
      · simpa [Memory.write, h1, hb] using h'
      · simp only [Memory.write, if_pos h1, if_neg hb, Memory.within, List.all_cons, Bool.and_eq_true,
          decide_eq_true_eq]
        exact ⟨ha, h⟩
    · by_cases h2 : a = k
      · by_cases hb : b = 0#8
        · simp only [Memory.write, if_neg h1, if_pos h2, if_pos hb, Memory.within]; exact h.2
        · simp only [Memory.write, if_neg h1, if_pos h2, if_neg hb, Memory.within, List.all_cons,
            Bool.and_eq_true, decide_eq_true_eq]
          exact ⟨ha, h.2⟩
      · simp only [Memory.write, if_neg h1, if_neg h2, Memory.within, List.all_cons, Bool.and_eq_true,
          decide_eq_true_eq]
        exact ⟨h.1, ih h.2⟩

/-! ### Bytes at successive addresses -/

@[simp] theorem Memory.writeBytes_nil (m : Memory) (x : Xlen) (a : Nat) : m.writeBytes x a [] = m := rfl

/-- Writing bytes keeps the canonical form. -/
theorem Memory.wf_writeBytes (m : Memory) (x : Xlen) (a : Nat) (bs : List Byte) (h : m.wf = true) :
    (m.writeBytes x a bs).wf = true := by
  induction bs generalizing m a with
  | nil => exact h
  | cons b bs ih => exact ih _ _ (Memory.wf_write m _ b h)

theorem Memory.within_writeBytes (m : Memory) (x : Xlen) (a : Nat) (bs : List Byte)
    (h : m.within x = true) : (m.writeBytes x a bs).within x = true := by
  induction bs generalizing m a with
  | nil => exact h
  | cons b bs ih => exact ih _ _ (Memory.within_write m x _ b h (x.addrMod_lt a))

/-- Writing bytes leaves every other address alone (R67). -/
theorem Memory.read_writeBytes_other (m : Memory) (x : Xlen) (a c : Nat) (bs : List Byte)
    (h : m.wf = true) (hc : ∀ i < bs.length, c ≠ x.addrMod (a + i)) :
    (m.writeBytes x a bs).read c = m.read c := by
  induction bs generalizing m a with
  | nil => rfl
  | cons b bs ih =>
    simp only [Memory.writeBytes]
    rw [ih _ (a + 1) (Memory.wf_write m _ b h)]
    · exact Memory.read_write_other m 0 _ _ b h (by simpa using hc 0 (by simp))
    · intro i hi
      have := hc (i + 1) (by simpa using hi)
      rwa [show a + (i + 1) = a + 1 + i by omega] at this

/-- Two bytes of one access stand at different addresses (R68). -/
theorem Xlen.addrMod_ne (x : Xlen) (a i j : Nat) (hij : i < j) (hj : j < i + 2 ^ x.bits) :
    x.addrMod (a + i) ≠ x.addrMod (a + j) := by
  intro h
  simp only [Xlen.addrMod] at h
  have hd : (2 ^ x.bits) ∣ (a + j) - (a + i) := (Nat.modEq_iff_dvd' (by omega)).mp h
  have := Nat.le_of_dvd (by omega) hd
  omega

/-- Byte `i` of the bytes written stands at `a + i` (R67). -/
theorem Memory.read_writeBytes_at (m : Memory) (x : Xlen) (a : Nat) (bs : List Byte) (h : m.wf = true)
    (hl : bs.length ≤ 2 ^ x.bits) (i : Nat) (hi : i < bs.length) :
    (m.writeBytes x a bs).read (x.addrMod (a + i)) = bs[i] := by
  induction bs generalizing m a i with
  | nil => simp at hi
  | cons b bs ih =>
    simp only [List.length_cons] at hl hi
    simp only [Memory.writeBytes]
    cases i with
    | zero =>
      rw [Memory.read_writeBytes_other _ x (a + 1) _ bs (Memory.wf_write m _ b h)]
      · simpa using Memory.read_write_same m 0 _ b h
      · intro j hj
        have := Xlen.addrMod_ne x a 0 (j + 1) (by omega) (by omega)
        rwa [show a + (j + 1) = a + 1 + j by omega] at this
    | succ i =>
      have := ih (m.write (x.addrMod a) b) (a + 1) (Memory.wf_write m _ b h) (by omega) i (by omega)
      rw [show a + (i + 1) = a + 1 + i by omega, this]
      rfl

@[simp] theorem Memory.readBytes_length (m : Memory) (x : Xlen) (a n : Nat) :
    (m.readBytes x a n).length = n := by
  induction n generalizing a with
  | zero => rfl
  | succ n ih => simp [Memory.readBytes, ih]

theorem Memory.readBytes_getElem (m : Memory) (x : Xlen) (a n i : Nat) (h : i < n) :
    (m.readBytes x a n)[i]'(by simpa using h) = m.read (x.addrMod (a + i)) := by
  induction n generalizing a i with
  | zero => omega
  | succ n ih =>
    cases i with
    | zero => simp [Memory.readBytes]
    | succ i =>
      simp only [Memory.readBytes, List.getElem_cons_succ]
      rw [ih (a + 1) i (by omega), show a + 1 + i = a + (i + 1) by omega]

/-- A byte-by-byte copy keeps the canonical form. -/
theorem Memory.wf_copyBytes (m : Memory) (x : Xlen) (src dst n : Nat) (h : m.wf = true) :
    (m.copyBytes x src dst n).wf = true := by
  induction n generalizing m src dst with
  | zero => exact h
  | succ n ih => exact ih _ _ _ (Memory.wf_write m _ _ h)

theorem Memory.within_copyBytes (m : Memory) (x : Xlen) (src dst n : Nat) (h : m.within x = true) :
    (m.copyBytes x src dst n).within x = true := by
  induction n generalizing m src dst with
  | zero => exact h
  | succ n ih => exact ih _ _ _ (Memory.within_write m x _ _ h (x.addrMod_lt _))

/-- A copy leaves every address outside the destination alone (R284). -/
theorem Memory.read_copyBytes_other (m : Memory) (x : Xlen) (src dst n c : Nat) (h : m.wf = true)
    (hc : ∀ i < n, c ≠ x.addrMod (dst + i)) : (m.copyBytes x src dst n).read c = m.read c := by
  induction n generalizing m src dst with
  | zero => rfl
  | succ n ih =>
    simp only [Memory.copyBytes]
    rw [ih _ (src + 1) (dst + 1) (Memory.wf_write m _ _ h)]
    · exact Memory.read_write_other m 0 _ _ _ h (by simpa using hc 0 (by omega))
    · intro i hi
      have := hc (i + 1) (by omega)
      rwa [show dst + (i + 1) = dst + 1 + i by omega] at this

/-! ### The history of writes (U2, U11, U12) -/

/-- A byte's origin is what it was last marked as. -/
theorem History.origin_mark (h : History) (a c : Nat) (o : Origin) :
    (h.mark a o).origin c = if c = a then some o else h.origin c := by
  induction h with
  | nil => rfl
  | cons e rest ih =>
    obtain ⟨k, p⟩ := e
    by_cases h1 : a < k
    · simp only [History.mark, if_pos h1, History.origin]
    · by_cases h2 : a = k
      · subst h2
        simp only [History.mark, if_neg h1, if_true, History.origin]
        split <;> simp
      · simp only [History.mark, if_neg h1, if_neg h2, History.origin, ih]
        by_cases h3 : c = k
        · rw [if_pos h3, if_pos h3, if_neg (by omega)]
        · rw [if_neg h3, if_neg h3]

theorem History.wfFrom_mono (h : History) (lo lo' : Nat) (hw : h.wfFrom lo = true) (hl : lo' ≤ lo) :
    h.wfFrom lo' = true := by
  cases h with
  | nil => rfl
  | cons e rest =>
    simp only [History.wfFrom, Bool.and_eq_true, decide_eq_true_eq] at hw ⊢
    exact ⟨by omega, hw.2⟩

theorem History.wfFrom_mark (h : History) (lo a : Nat) (o : Origin) (hw : h.wfFrom lo = true) (ha : lo ≤ a) :
    (h.mark a o).wfFrom lo = true := by
  induction h generalizing lo with
  | nil => simp [History.mark, History.wfFrom, ha]
  | cons e rest ih =>
    obtain ⟨k, p⟩ := e
    simp only [History.wfFrom, Bool.and_eq_true, decide_eq_true_eq] at hw
    by_cases h1 : a < k
    · simp only [History.mark, if_pos h1, History.wfFrom, Bool.and_eq_true, decide_eq_true_eq]
      exact ⟨ha, by omega, hw.2⟩
    · by_cases h2 : a = k
      · subst h2
        simp only [History.mark, if_neg h1, if_true, History.wfFrom, Bool.and_eq_true, decide_eq_true_eq]
        exact hw
      · simp only [History.mark, if_neg h1, if_neg h2, History.wfFrom, Bool.and_eq_true, decide_eq_true_eq]
        exact ⟨hw.1, ih (k + 1) hw.2 (by omega)⟩

/-- Marking a byte keeps the canonical form. -/
theorem History.wf_mark (h : History) (a : Nat) (o : Origin) (hw : h.wf = true) : (h.mark a o).wf = true :=
  History.wfFrom_mark h 0 a o hw (Nat.zero_le _)

/-- A byte below every entry was never written. -/
theorem History.origin_below (h : History) (lo a : Nat) (hw : h.wfFrom lo = true) (ha : a < lo) :
    h.origin a = none := by
  induction h generalizing lo with
  | nil => rfl
  | cons e rest ih =>
    obtain ⟨k, p⟩ := e
    simp only [History.wfFrom, Bool.and_eq_true, decide_eq_true_eq] at hw
    rw [History.origin, if_neg (by omega)]
    exact ih (k + 1) hw.2 (by omega)

/-- In canonical form an entry is the origin of its byte. -/
theorem History.mem_iff (h : History) (lo a : Nat) (o : Origin) (hw : h.wfFrom lo = true) :
    (a, o) ∈ h ↔ lo ≤ a ∧ h.origin a = some o := by
  induction h generalizing lo with
  | nil => simp [History.origin]
  | cons e rest ih =>
    obtain ⟨k, p⟩ := e
    simp only [History.wfFrom, Bool.and_eq_true, decide_eq_true_eq] at hw
    rw [List.mem_cons, ih (k + 1) hw.2, History.origin]
    by_cases hk : a = k
    · subst hk
      simp only [if_true, Prod.mk.injEq, true_and, Option.some.injEq]
      exact ⟨fun h => h.elim (fun e => ⟨hw.1, e.symm⟩) (fun h => absurd h.1 (by omega)), fun h => .inl h.2.symm⟩
    · simp only [Prod.mk.injEq, hk, false_and, false_or, if_false]
      refine ⟨fun h => ⟨by omega, h.2⟩, fun h => ⟨?_, h.2⟩⟩
      by_contra hlt
      have hn : History.origin rest a = none := History.origin_below rest (k + 1) a hw.2 (by omega)
      rw [hn] at h; simp at h

/-- Every other byte keeps its origin. -/
theorem History.origin_markRange_other (h : History) (x : Xlen) (a n c : Nat) (o : Origin)
    (hc : ∀ i, i < n → c ≠ x.addrMod (a + i)) : (h.markRange x a n o).origin c = h.origin c := by
  induction n generalizing h a with
  | zero => rfl
  | succ n ih =>
    simp only [History.markRange]
    rw [ih _ (a + 1) (fun i hi => by rw [show a + 1 + i = a + (i + 1) by omega]; exact hc (i + 1) (by omega)),
      History.origin_mark, if_neg (by simpa using hc 0 (by omega))]

/-- The bytes of a range are what the range was marked as. -/
theorem History.origin_markRange_in (h : History) (x : Xlen) (a n c : Nat) (o : Origin) (i : Nat) (hi : i < n)
    (hc : c = x.addrMod (a + i)) : (h.markRange x a n o).origin c = some o := by
  induction n generalizing h a i with
  | zero => omega
  | succ n ih =>
    cases i with
    | succ i => exact ih _ (a + 1) i (by omega) (by rw [hc, show a + 1 + i = a + (i + 1) by omega])
    | zero =>
      by_cases hx : ∃ j, j < n ∧ c = x.addrMod (a + 1 + j)
      · obtain ⟨j, hj, e⟩ := hx; exact ih _ (a + 1) j hj e
      · simp only [History.markRange]
        rw [History.origin_markRange_other _ x (a + 1) n c o (fun j hj e => hx ⟨j, hj, e⟩), History.origin_mark,
          if_pos (by simpa using hc)]

theorem History.wf_markRange (h : History) (x : Xlen) (a n : Nat) (o : Origin) (hw : h.wf = true) :
    (h.markRange x a n o).wf = true := by
  induction n generalizing h a with
  | zero => exact hw
  | succ n ih => exact ih _ _ (History.wf_mark h _ o hw)

/-- A byte in no header of the blocks keeps its origin. -/
theorem History.origin_markHeaders_other (h : History) (x : Xlen) (hdr : Nat) (bs : List Block) (c : Nat)
    (hc : ∀ b ∈ bs, ∀ i, i < hdr → c ≠ x.addrMod (b.base + i)) :
    (h.markHeaders x hdr bs).origin c = h.origin c := by
  induction bs generalizing h with
  | nil => rfl
  | cons b bs ih =>
    simp only [History.markHeaders]
    rw [ih _ (fun d hd => hc d (List.mem_cons_of_mem _ hd))]
    exact History.origin_markRange_other h x b.base hdr c .metadata (hc b (List.mem_cons_self ..))

/-- The header bytes of the blocks are metadata (R274). -/
theorem History.origin_markHeaders_in (h : History) (x : Xlen) (hdr : Nat) (bs : List Block) (c : Nat) (b : Block)
    (hb : b ∈ bs) (i : Nat) (hi : i < hdr) (hc : c = x.addrMod (b.base + i)) :
    (h.markHeaders x hdr bs).origin c = some .metadata := by
  induction bs generalizing h b i with
  | nil => simp at hb
  | cons d ds ih =>
    by_cases hx : ∃ e ∈ ds, ∃ j, j < hdr ∧ c = x.addrMod (e.base + j)
    · obtain ⟨e, he, j, hj, k⟩ := hx; exact ih _ e he j hj k
    · obtain rfl : b = d := (List.mem_cons.mp hb).resolve_right (fun hd => hx ⟨b, hd, i, hi, hc⟩)
      simp only [History.markHeaders]
      rw [History.origin_markHeaders_other _ x hdr ds c (fun e he j hj k => hx ⟨e, he, j, hj, k⟩)]
      exact History.origin_markRange_in h x b.base hdr c .metadata i hi hc

theorem History.wf_markHeaders (h : History) (x : Xlen) (hdr : Nat) (bs : List Block) (hw : h.wf = true) :
    (h.markHeaders x hdr bs).wf = true := by
  induction bs generalizing h with
  | nil => exact hw
  | cons b bs ih => exact ih _ (History.wf_markRange h x _ _ _ hw)

/-! ### Free bytes -/

/-- Free bytes at metadata addresses leave every other byte alone, and those that are kept (R274, U2). -/
theorem Memory.read_scramble_other (m : Memory) (keep : Nat → Bool) (h : History) (c a : Nat) (hw : m.wf = true)
    (ha : (a, Origin.metadata) ∈ h → keep a = true) : (m.scramble keep h c).read a = m.read a := by
  induction h generalizing m c with
  | nil => rfl
  | cons e rest ih =>
    obtain ⟨k, o⟩ := e
    have hr := fun m' (hm : Memory.wf m' = true) =>
      ih m' (c + 1) hm (fun hx => ha (List.mem_cons_of_mem _ hx))
    simp only [Memory.scramble]
    split
    · next hk =>
      rw [hr _ (Memory.wf_write m k _ hw)]
      refine Memory.read_write_other m 0 k a _ hw ?_
      rintro rfl
      simp only [Bool.and_eq_true, decide_eq_true_eq, Bool.not_eq_true'] at hk
      rw [hk.1] at ha
      rw [ha (List.mem_cons_self ..)] at hk
      simp at hk
    · exact hr m hw

theorem Memory.wf_scramble (m : Memory) (keep : Nat → Bool) (h : History) (c : Nat) (hw : m.wf = true) :
    (m.scramble keep h c).wf = true := by
  induction h generalizing m c with
  | nil => exact hw
  | cons e rest ih =>
    simp only [Memory.scramble]
    split
    · exact ih _ _ (Memory.wf_write m _ _ hw)
    · exact ih _ _ hw

theorem Memory.within_scramble (m : Memory) (x : Xlen) (keep : Nat → Bool) (h : History) (c : Nat)
    (hi : m.within x = true) (hh : ∀ a, (a, Origin.metadata) ∈ h → a < 2 ^ x.bits) :
    (m.scramble keep h c).within x = true := by
  induction h generalizing m c with
  | nil => exact hi
  | cons e rest ih =>
    obtain ⟨k, o⟩ := e
    have hr := fun m' (hm : Memory.within m' x = true) =>
      ih m' (c + 1) hm (fun a ha => hh a (List.mem_cons_of_mem _ ha))
    simp only [Memory.scramble]
    split
    · next hk =>
      simp only [Bool.and_eq_true, decide_eq_true_eq] at hk
      rw [hk.1] at hh
      exact hr _ (Memory.within_write m x k _ hi (hh k (List.mem_cons_self ..)))
    · exact hr m hi

/-- Forgetting a range leaves alone every byte outside it, and those never written since reset (U11, U12). -/
theorem Memory.read_forget_other (m : Memory) (h : History) (x : Xlen) (a n k c : Nat) (hw : m.wf = true)
    (hc : ∀ i, i < n → c = x.addrMod (a + i) → h.origin c = none) : (m.forget h x a n k).read c = m.read c := by
  induction n generalizing m a k with
  | zero => rfl
  | succ n ih =>
    have hr := fun m' (hm : Memory.wf m' = true) => ih m' (a + 1) (k + 1) hm (fun i hi e =>
      hc (i + 1) (by omega) (by rw [e, show a + 1 + i = a + (i + 1) by omega]))
    simp only [Memory.forget]
    split
    · next hs =>
      rw [hr _ (Memory.wf_write m _ _ hw)]
      refine Memory.read_write_other m 0 _ c _ hw ?_
      intro e
      rw [← e, hc 0 (by omega) (by simpa using e)] at hs
      simp at hs
    · exact hr m hw

theorem Memory.wf_forget (m : Memory) (h : History) (x : Xlen) (a n k : Nat) (hw : m.wf = true) :
    (m.forget h x a n k).wf = true := by
  induction n generalizing m a k with
  | zero => exact hw
  | succ n ih =>
    simp only [Memory.forget]
    split
    · exact ih _ _ _ (Memory.wf_write m _ _ hw)
    · exact ih _ _ _ hw

theorem Memory.within_forget (m : Memory) (h : History) (x : Xlen) (a n k : Nat) (hi : m.within x = true) :
    (m.forget h x a n k).within x = true := by
  induction n generalizing m a k with
  | zero => exact hi
  | succ n ih =>
    simp only [Memory.forget]
    split
    · exact ih _ _ _ (Memory.within_write m x _ _ hi (x.addrMod_lt _))
    · exact ih _ _ _ hi

/-- The memory of reset is canonical (R45). -/
theorem Memory.wf_initial (p : Params) : (Memory.initial p).wf = true :=
  Memory.wf_writeBytes [] _ _ _ rfl

theorem Memory.within_initial (p : Params) : (Memory.initial p).within p.xlen = true :=
  Memory.within_writeBytes [] _ _ _ rfl

end Sys2Proof.Machine
end

