-- ==== Sys2Proof/Laws/State.lean ====
section
/-! SUPPORT. One lemma per field per update of the state, so that no later proof unfolds an update; and
the registers behind their accessors. -/

namespace Sys2Proof.Machine

/-! ### `State.raise` -/

@[simp] theorem State.raise_params (s : State) (e : Err) : (s.raise e).params = s.params := rfl
@[simp] theorem State.raise_regs (s : State) (e : Err) : (s.raise e).regs = s.regs := rfl
@[simp] theorem State.raise_pc (s : State) (e : Err) : (s.raise e).pc = s.pc := rfl
@[simp] theorem State.raise_cycles (s : State) (e : Err) : (s.raise e).cycles = s.cycles := rfl
@[simp] theorem State.raise_mem (s : State) (e : Err) : (s.raise e).mem = s.mem := rfl
@[simp] theorem State.raise_runState (s : State) (e : Err) : (s.raise e).runState = .halted := rfl
@[simp] theorem State.raise_err (s : State) (e : Err) : (s.raise e).err = e := rfl
@[simp] theorem State.raise_alignedAddresses (s : State) (e : Err) : (s.raise e).alignedAddresses = s.alignedAddresses := rfl
@[simp] theorem State.raise_alwaysCalloc (s : State) (e : Err) : (s.raise e).alwaysCalloc = s.alwaysCalloc := rfl
@[simp] theorem State.raise_blocks (s : State) (e : Err) : (s.raise e).blocks = s.blocks := rfl
@[simp] theorem State.raise_hwm (s : State) (e : Err) : (s.raise e).hwm = s.hwm := rfl
@[simp] theorem State.raise_numActiveBlocks (s : State) (e : Err) : (s.raise e).numActiveBlocks = s.numActiveBlocks := rfl
@[simp] theorem State.raise_headersTouched (s : State) (e : Err) : (s.raise e).headersTouched = s.headersTouched := rfl
@[simp] theorem State.raise_history (s : State) (e : Err) : (s.raise e).history = s.history := rfl
@[simp] theorem State.raise_freeCount (s : State) (e : Err) : (s.raise e).freeCount = s.freeCount := rfl
@[simp] theorem State.raise_requests (s : State) (e : Err) : (s.raise e).requests = s.requests := rfl
@[simp] theorem State.raise_replies (s : State) (e : Err) : (s.raise e).replies = s.replies := rfl

/-! ### `State.advance` -/

@[simp] theorem State.advance_params (s : State) (n : Word) : (s.advance n).params = s.params := rfl
@[simp] theorem State.advance_regs (s : State) (n : Word) : (s.advance n).regs = s.regs := rfl
@[simp] theorem State.advance_pc (s : State) (n : Word) : (s.advance n).pc = n := rfl
@[simp] theorem State.advance_cycles (s : State) (n : Word) : (s.advance n).cycles = s.cycles + 1 := rfl
@[simp] theorem State.advance_mem (s : State) (n : Word) : (s.advance n).mem = s.mem := rfl
@[simp] theorem State.advance_runState (s : State) (n : Word) : (s.advance n).runState = s.runState := rfl
@[simp] theorem State.advance_err (s : State) (n : Word) : (s.advance n).err = s.err := rfl
@[simp] theorem State.advance_alignedAddresses (s : State) (n : Word) : (s.advance n).alignedAddresses = s.alignedAddresses := rfl
@[simp] theorem State.advance_alwaysCalloc (s : State) (n : Word) : (s.advance n).alwaysCalloc = s.alwaysCalloc := rfl
@[simp] theorem State.advance_blocks (s : State) (n : Word) : (s.advance n).blocks = s.blocks := rfl
@[simp] theorem State.advance_hwm (s : State) (n : Word) : (s.advance n).hwm = s.hwm := rfl
@[simp] theorem State.advance_numActiveBlocks (s : State) (n : Word) : (s.advance n).numActiveBlocks = s.numActiveBlocks := rfl
@[simp] theorem State.advance_headersTouched (s : State) (n : Word) : (s.advance n).headersTouched = s.headersTouched := rfl
@[simp] theorem State.advance_history (s : State) (n : Word) : (s.advance n).history = s.history := rfl
@[simp] theorem State.advance_freeCount (s : State) (n : Word) : (s.advance n).freeCount = s.freeCount := rfl
@[simp] theorem State.advance_requests (s : State) (n : Word) : (s.advance n).requests = s.requests := rfl
@[simp] theorem State.advance_replies (s : State) (n : Word) : (s.advance n).replies = s.replies := rfl

/-! ### `State.halt` -/

@[simp] theorem State.halt_params (s : State) : (s.halt).params = s.params := rfl
@[simp] theorem State.halt_regs (s : State) : (s.halt).regs = s.regs := rfl
@[simp] theorem State.halt_pc (s : State) : (s.halt).pc = s.pc := rfl
@[simp] theorem State.halt_cycles (s : State) : (s.halt).cycles = s.cycles := rfl
@[simp] theorem State.halt_mem (s : State) : (s.halt).mem = s.mem := rfl
@[simp] theorem State.halt_runState (s : State) : (s.halt).runState = .halted := rfl
@[simp] theorem State.halt_err (s : State) : (s.halt).err = s.err := rfl
@[simp] theorem State.halt_alignedAddresses (s : State) : (s.halt).alignedAddresses = s.alignedAddresses := rfl
@[simp] theorem State.halt_alwaysCalloc (s : State) : (s.halt).alwaysCalloc = s.alwaysCalloc := rfl
@[simp] theorem State.halt_blocks (s : State) : (s.halt).blocks = s.blocks := rfl
@[simp] theorem State.halt_hwm (s : State) : (s.halt).hwm = s.hwm := rfl
@[simp] theorem State.halt_numActiveBlocks (s : State) : (s.halt).numActiveBlocks = s.numActiveBlocks := rfl
@[simp] theorem State.halt_headersTouched (s : State) : (s.halt).headersTouched = s.headersTouched := rfl
@[simp] theorem State.halt_history (s : State) : (s.halt).history = s.history := rfl
@[simp] theorem State.halt_freeCount (s : State) : (s.halt).freeCount = s.freeCount := rfl
@[simp] theorem State.halt_requests (s : State) : (s.halt).requests = s.requests := rfl
@[simp] theorem State.halt_replies (s : State) : (s.halt).replies = s.replies := rfl

/-! ### `State.writeData` -/

@[simp] theorem State.writeData_params (s : State) (a : Nat) (bs : List Byte) : (s.writeData a bs).params = s.params := rfl
@[simp] theorem State.writeData_regs (s : State) (a : Nat) (bs : List Byte) : (s.writeData a bs).regs = s.regs := rfl
@[simp] theorem State.writeData_pc (s : State) (a : Nat) (bs : List Byte) : (s.writeData a bs).pc = s.pc := rfl
@[simp] theorem State.writeData_cycles (s : State) (a : Nat) (bs : List Byte) : (s.writeData a bs).cycles = s.cycles := rfl
@[simp] theorem State.writeData_mem (s : State) (a : Nat) (bs : List Byte) : (s.writeData a bs).mem = s.mem.writeBytes s.params.xlen a bs := rfl
@[simp] theorem State.writeData_runState (s : State) (a : Nat) (bs : List Byte) : (s.writeData a bs).runState = s.runState := rfl
@[simp] theorem State.writeData_err (s : State) (a : Nat) (bs : List Byte) : (s.writeData a bs).err = s.err := rfl
@[simp] theorem State.writeData_alignedAddresses (s : State) (a : Nat) (bs : List Byte) : (s.writeData a bs).alignedAddresses = s.alignedAddresses := rfl
@[simp] theorem State.writeData_alwaysCalloc (s : State) (a : Nat) (bs : List Byte) : (s.writeData a bs).alwaysCalloc = s.alwaysCalloc := rfl
@[simp] theorem State.writeData_blocks (s : State) (a : Nat) (bs : List Byte) : (s.writeData a bs).blocks = s.blocks := rfl
@[simp] theorem State.writeData_hwm (s : State) (a : Nat) (bs : List Byte) : (s.writeData a bs).hwm = s.hwm := rfl
@[simp] theorem State.writeData_numActiveBlocks (s : State) (a : Nat) (bs : List Byte) : (s.writeData a bs).numActiveBlocks = s.numActiveBlocks := rfl
@[simp] theorem State.writeData_headersTouched (s : State) (a : Nat) (bs : List Byte) : (s.writeData a bs).headersTouched = (s.headersTouched || s.touchesHeader a bs.length) := rfl
@[simp] theorem State.writeData_history (s : State) (a : Nat) (bs : List Byte) : (s.writeData a bs).history = s.history.markRange s.params.xlen a bs.length .data := rfl
@[simp] theorem State.writeData_freeCount (s : State) (a : Nat) (bs : List Byte) : (s.writeData a bs).freeCount = s.freeCount := rfl
@[simp] theorem State.writeData_requests (s : State) (a : Nat) (bs : List Byte) : (s.writeData a bs).requests = s.requests := rfl
@[simp] theorem State.writeData_replies (s : State) (a : Nat) (bs : List Byte) : (s.writeData a bs).replies = s.replies := rfl

/-! ### `State.relist` -/

@[simp] theorem State.relist_params (s : State) (bs : List Block) : (s.relist bs).params = s.params := rfl
@[simp] theorem State.relist_regs (s : State) (bs : List Block) : (s.relist bs).regs = s.regs := rfl
@[simp] theorem State.relist_pc (s : State) (bs : List Block) : (s.relist bs).pc = s.pc := rfl
@[simp] theorem State.relist_cycles (s : State) (bs : List Block) : (s.relist bs).cycles = s.cycles := rfl
@[simp] theorem State.relist_mem (s : State) (bs : List Block) : (s.relist bs).mem = s.mem := rfl
@[simp] theorem State.relist_runState (s : State) (bs : List Block) : (s.relist bs).runState = s.runState := rfl
@[simp] theorem State.relist_err (s : State) (bs : List Block) : (s.relist bs).err = s.err := rfl
@[simp] theorem State.relist_alignedAddresses (s : State) (bs : List Block) : (s.relist bs).alignedAddresses = s.alignedAddresses := rfl
@[simp] theorem State.relist_alwaysCalloc (s : State) (bs : List Block) : (s.relist bs).alwaysCalloc = s.alwaysCalloc := rfl
@[simp] theorem State.relist_blocks (s : State) (bs : List Block) : (s.relist bs).blocks = bs := rfl
@[simp] theorem State.relist_hwm (s : State) (bs : List Block) : (s.relist bs).hwm = s.hwm := rfl
@[simp] theorem State.relist_numActiveBlocks (s : State) (bs : List Block) : (s.relist bs).numActiveBlocks = s.numActiveBlocks := rfl
@[simp] theorem State.relist_headersTouched (s : State) (bs : List Block) : (s.relist bs).headersTouched = s.headersTouched := rfl
@[simp] theorem State.relist_history (s : State) (bs : List Block) : (s.relist bs).history = (s.history.markHeaders s.params.xlen s.params.hdrSize s.blocks).markHeaders s.params.xlen s.params.hdrSize bs := rfl
@[simp] theorem State.relist_freeCount (s : State) (bs : List Block) : (s.relist bs).freeCount = s.freeCount := rfl
@[simp] theorem State.relist_requests (s : State) (bs : List Block) : (s.relist bs).requests = s.requests := rfl
@[simp] theorem State.relist_replies (s : State) (bs : List Block) : (s.relist bs).replies = s.replies := rfl

/-! ### `State.refresh` -/

@[simp] theorem State.refresh_params (s : State) (keep : Nat → Bool) : (s.refresh keep).params = s.params := rfl
@[simp] theorem State.refresh_regs (s : State) (keep : Nat → Bool) : (s.refresh keep).regs = s.regs := rfl
@[simp] theorem State.refresh_pc (s : State) (keep : Nat → Bool) : (s.refresh keep).pc = s.pc := rfl
@[simp] theorem State.refresh_cycles (s : State) (keep : Nat → Bool) : (s.refresh keep).cycles = s.cycles := rfl
@[simp] theorem State.refresh_mem (s : State) (keep : Nat → Bool) : (s.refresh keep).mem = s.mem.scramble keep s.history s.freeCount := rfl
@[simp] theorem State.refresh_runState (s : State) (keep : Nat → Bool) : (s.refresh keep).runState = s.runState := rfl
@[simp] theorem State.refresh_err (s : State) (keep : Nat → Bool) : (s.refresh keep).err = s.err := rfl
@[simp] theorem State.refresh_alignedAddresses (s : State) (keep : Nat → Bool) : (s.refresh keep).alignedAddresses = s.alignedAddresses := rfl
@[simp] theorem State.refresh_alwaysCalloc (s : State) (keep : Nat → Bool) : (s.refresh keep).alwaysCalloc = s.alwaysCalloc := rfl
@[simp] theorem State.refresh_blocks (s : State) (keep : Nat → Bool) : (s.refresh keep).blocks = s.blocks := rfl
@[simp] theorem State.refresh_hwm (s : State) (keep : Nat → Bool) : (s.refresh keep).hwm = s.hwm := rfl
@[simp] theorem State.refresh_numActiveBlocks (s : State) (keep : Nat → Bool) : (s.refresh keep).numActiveBlocks = s.numActiveBlocks := rfl
@[simp] theorem State.refresh_headersTouched (s : State) (keep : Nat → Bool) : (s.refresh keep).headersTouched = s.headersTouched := rfl
@[simp] theorem State.refresh_history (s : State) (keep : Nat → Bool) : (s.refresh keep).history = s.history := rfl
@[simp] theorem State.refresh_freeCount (s : State) (keep : Nat → Bool) : (s.refresh keep).freeCount = s.freeCount + s.history.length := rfl
@[simp] theorem State.refresh_requests (s : State) (keep : Nat → Bool) : (s.refresh keep).requests = s.requests := rfl
@[simp] theorem State.refresh_replies (s : State) (keep : Nat → Bool) : (s.refresh keep).replies = s.replies := rfl

/-! ### `State.forget` -/

@[simp] theorem State.forget_params (s : State) (a n : Nat) : (s.forget a n).params = s.params := rfl
@[simp] theorem State.forget_regs (s : State) (a n : Nat) : (s.forget a n).regs = s.regs := rfl
@[simp] theorem State.forget_pc (s : State) (a n : Nat) : (s.forget a n).pc = s.pc := rfl
@[simp] theorem State.forget_cycles (s : State) (a n : Nat) : (s.forget a n).cycles = s.cycles := rfl
@[simp] theorem State.forget_mem (s : State) (a n : Nat) : (s.forget a n).mem = s.mem.forget s.history s.params.xlen a n s.freeCount := rfl
@[simp] theorem State.forget_runState (s : State) (a n : Nat) : (s.forget a n).runState = s.runState := rfl
@[simp] theorem State.forget_err (s : State) (a n : Nat) : (s.forget a n).err = s.err := rfl
@[simp] theorem State.forget_alignedAddresses (s : State) (a n : Nat) : (s.forget a n).alignedAddresses = s.alignedAddresses := rfl
@[simp] theorem State.forget_alwaysCalloc (s : State) (a n : Nat) : (s.forget a n).alwaysCalloc = s.alwaysCalloc := rfl
@[simp] theorem State.forget_blocks (s : State) (a n : Nat) : (s.forget a n).blocks = s.blocks := rfl
@[simp] theorem State.forget_hwm (s : State) (a n : Nat) : (s.forget a n).hwm = s.hwm := rfl
@[simp] theorem State.forget_numActiveBlocks (s : State) (a n : Nat) : (s.forget a n).numActiveBlocks = s.numActiveBlocks := rfl
@[simp] theorem State.forget_headersTouched (s : State) (a n : Nat) : (s.forget a n).headersTouched = s.headersTouched := rfl
@[simp] theorem State.forget_history (s : State) (a n : Nat) : (s.forget a n).history = s.history := rfl
@[simp] theorem State.forget_freeCount (s : State) (a n : Nat) : (s.forget a n).freeCount = s.freeCount + n := rfl
@[simp] theorem State.forget_requests (s : State) (a n : Nat) : (s.forget a n).requests = s.requests := rfl
@[simp] theorem State.forget_replies (s : State) (a n : Nat) : (s.forget a n).replies = s.replies := rfl

/-! ### `State.zeroPayload` -/

@[simp] theorem State.zeroPayload_params (s : State) (b : Block) : (s.zeroPayload b).params = s.params := rfl
@[simp] theorem State.zeroPayload_regs (s : State) (b : Block) : (s.zeroPayload b).regs = s.regs := rfl
@[simp] theorem State.zeroPayload_pc (s : State) (b : Block) : (s.zeroPayload b).pc = s.pc := rfl
@[simp] theorem State.zeroPayload_cycles (s : State) (b : Block) : (s.zeroPayload b).cycles = s.cycles := rfl
@[simp] theorem State.zeroPayload_mem (s : State) (b : Block) : (s.zeroPayload b).mem = s.mem.writeBytes s.params.xlen (b.payload s.params.hdrSize) (List.replicate b.size 0) := rfl
@[simp] theorem State.zeroPayload_runState (s : State) (b : Block) : (s.zeroPayload b).runState = s.runState := rfl
@[simp] theorem State.zeroPayload_err (s : State) (b : Block) : (s.zeroPayload b).err = s.err := rfl
@[simp] theorem State.zeroPayload_alignedAddresses (s : State) (b : Block) : (s.zeroPayload b).alignedAddresses = s.alignedAddresses := rfl
@[simp] theorem State.zeroPayload_alwaysCalloc (s : State) (b : Block) : (s.zeroPayload b).alwaysCalloc = s.alwaysCalloc := rfl
@[simp] theorem State.zeroPayload_blocks (s : State) (b : Block) : (s.zeroPayload b).blocks = s.blocks := rfl
@[simp] theorem State.zeroPayload_hwm (s : State) (b : Block) : (s.zeroPayload b).hwm = s.hwm := rfl
@[simp] theorem State.zeroPayload_numActiveBlocks (s : State) (b : Block) : (s.zeroPayload b).numActiveBlocks = s.numActiveBlocks := rfl
@[simp] theorem State.zeroPayload_headersTouched (s : State) (b : Block) : (s.zeroPayload b).headersTouched = s.headersTouched := rfl
@[simp] theorem State.zeroPayload_history (s : State) (b : Block) : (s.zeroPayload b).history = s.history.markRange s.params.xlen (b.payload s.params.hdrSize) b.size .data := rfl
@[simp] theorem State.zeroPayload_freeCount (s : State) (b : Block) : (s.zeroPayload b).freeCount = s.freeCount := rfl
@[simp] theorem State.zeroPayload_requests (s : State) (b : Block) : (s.zeroPayload b).requests = s.requests := rfl
@[simp] theorem State.zeroPayload_replies (s : State) (b : Block) : (s.zeroPayload b).replies = s.replies := rfl

/-! ### `State.copyPayload` -/

@[simp] theorem State.copyPayload_params (s : State) (src dst n : Nat) : (s.copyPayload src dst n).params = s.params := rfl
@[simp] theorem State.copyPayload_regs (s : State) (src dst n : Nat) : (s.copyPayload src dst n).regs = s.regs := rfl
@[simp] theorem State.copyPayload_pc (s : State) (src dst n : Nat) : (s.copyPayload src dst n).pc = s.pc := rfl
@[simp] theorem State.copyPayload_cycles (s : State) (src dst n : Nat) : (s.copyPayload src dst n).cycles = s.cycles := rfl
@[simp] theorem State.copyPayload_mem (s : State) (src dst n : Nat) : (s.copyPayload src dst n).mem = s.mem.copyBytes s.params.xlen src dst n := rfl
@[simp] theorem State.copyPayload_runState (s : State) (src dst n : Nat) : (s.copyPayload src dst n).runState = s.runState := rfl
@[simp] theorem State.copyPayload_err (s : State) (src dst n : Nat) : (s.copyPayload src dst n).err = s.err := rfl
@[simp] theorem State.copyPayload_alignedAddresses (s : State) (src dst n : Nat) : (s.copyPayload src dst n).alignedAddresses = s.alignedAddresses := rfl
@[simp] theorem State.copyPayload_alwaysCalloc (s : State) (src dst n : Nat) : (s.copyPayload src dst n).alwaysCalloc = s.alwaysCalloc := rfl
@[simp] theorem State.copyPayload_blocks (s : State) (src dst n : Nat) : (s.copyPayload src dst n).blocks = s.blocks := rfl
@[simp] theorem State.copyPayload_hwm (s : State) (src dst n : Nat) : (s.copyPayload src dst n).hwm = s.hwm := rfl
@[simp] theorem State.copyPayload_numActiveBlocks (s : State) (src dst n : Nat) : (s.copyPayload src dst n).numActiveBlocks = s.numActiveBlocks := rfl
@[simp] theorem State.copyPayload_headersTouched (s : State) (src dst n : Nat) : (s.copyPayload src dst n).headersTouched = s.headersTouched := rfl
@[simp] theorem State.copyPayload_history (s : State) (src dst n : Nat) : (s.copyPayload src dst n).history = s.history.markRange s.params.xlen dst n .data := rfl
@[simp] theorem State.copyPayload_freeCount (s : State) (src dst n : Nat) : (s.copyPayload src dst n).freeCount = s.freeCount := rfl
@[simp] theorem State.copyPayload_requests (s : State) (src dst n : Nat) : (s.copyPayload src dst n).requests = s.requests := rfl
@[simp] theorem State.copyPayload_replies (s : State) (src dst n : Nat) : (s.copyPayload src dst n).replies = s.replies := rfl

/-! ### `State.draw` -/

@[simp] theorem State.draw_params (s : State) : (s.draw).params = s.params := rfl
@[simp] theorem State.draw_regs (s : State) : (s.draw).regs = s.regs := rfl
@[simp] theorem State.draw_pc (s : State) : (s.draw).pc = s.pc := rfl
@[simp] theorem State.draw_cycles (s : State) : (s.draw).cycles = s.cycles := rfl
@[simp] theorem State.draw_mem (s : State) : (s.draw).mem = s.mem := rfl
@[simp] theorem State.draw_runState (s : State) : (s.draw).runState = s.runState := rfl
@[simp] theorem State.draw_err (s : State) : (s.draw).err = s.err := rfl
@[simp] theorem State.draw_alignedAddresses (s : State) : (s.draw).alignedAddresses = s.alignedAddresses := rfl
@[simp] theorem State.draw_alwaysCalloc (s : State) : (s.draw).alwaysCalloc = s.alwaysCalloc := rfl
@[simp] theorem State.draw_blocks (s : State) : (s.draw).blocks = s.blocks := rfl
@[simp] theorem State.draw_hwm (s : State) : (s.draw).hwm = s.hwm := rfl
@[simp] theorem State.draw_numActiveBlocks (s : State) : (s.draw).numActiveBlocks = s.numActiveBlocks := rfl
@[simp] theorem State.draw_headersTouched (s : State) : (s.draw).headersTouched = s.headersTouched := rfl
@[simp] theorem State.draw_history (s : State) : (s.draw).history = s.history := rfl
@[simp] theorem State.draw_freeCount (s : State) : (s.draw).freeCount = s.freeCount + 1 := rfl
@[simp] theorem State.draw_requests (s : State) : (s.draw).requests = s.requests := rfl
@[simp] theorem State.draw_replies (s : State) : (s.draw).replies = s.replies := rfl

/-! ### `State.reply` -/

@[simp] theorem State.reply_params (s : State) (r : PortReply) : (s.reply r).params = s.params := rfl
@[simp] theorem State.reply_regs (s : State) (r : PortReply) : (s.reply r).regs = s.regs := rfl
@[simp] theorem State.reply_pc (s : State) (r : PortReply) : (s.reply r).pc = s.pc := rfl
@[simp] theorem State.reply_cycles (s : State) (r : PortReply) : (s.reply r).cycles = s.cycles := rfl
@[simp] theorem State.reply_mem (s : State) (r : PortReply) : (s.reply r).mem = s.mem := rfl
@[simp] theorem State.reply_runState (s : State) (r : PortReply) : (s.reply r).runState = s.runState := rfl
@[simp] theorem State.reply_err (s : State) (r : PortReply) : (s.reply r).err = s.err := rfl
@[simp] theorem State.reply_alignedAddresses (s : State) (r : PortReply) : (s.reply r).alignedAddresses = s.alignedAddresses := rfl
@[simp] theorem State.reply_alwaysCalloc (s : State) (r : PortReply) : (s.reply r).alwaysCalloc = s.alwaysCalloc := rfl
@[simp] theorem State.reply_blocks (s : State) (r : PortReply) : (s.reply r).blocks = s.blocks := rfl
@[simp] theorem State.reply_hwm (s : State) (r : PortReply) : (s.reply r).hwm = s.hwm := rfl
@[simp] theorem State.reply_numActiveBlocks (s : State) (r : PortReply) : (s.reply r).numActiveBlocks = s.numActiveBlocks := rfl
@[simp] theorem State.reply_headersTouched (s : State) (r : PortReply) : (s.reply r).headersTouched = s.headersTouched := rfl
@[simp] theorem State.reply_history (s : State) (r : PortReply) : (s.reply r).history = s.history := rfl
@[simp] theorem State.reply_freeCount (s : State) (r : PortReply) : (s.reply r).freeCount = s.freeCount := rfl
@[simp] theorem State.reply_requests (s : State) (r : PortReply) : (s.reply r).requests = s.requests := rfl
@[simp] theorem State.reply_replies (s : State) (r : PortReply) : (s.reply r).replies = s.replies ++ [r] := rfl

/-! ### `State.settle` -/

@[simp] theorem State.settle_params (s : State) (c : Command) : (s.settle c).params = s.params := rfl
@[simp] theorem State.settle_regs (s : State) (c : Command) : (s.settle c).regs = s.regs := rfl
@[simp] theorem State.settle_pc (s : State) (c : Command) : (s.settle c).pc = s.pc := rfl
@[simp] theorem State.settle_cycles (s : State) (c : Command) : (s.settle c).cycles = s.cycles := rfl
@[simp] theorem State.settle_mem (s : State) (c : Command) : (s.settle c).mem = s.mem := rfl
@[simp] theorem State.settle_err (s : State) (c : Command) : (s.settle c).err = s.err := rfl
@[simp] theorem State.settle_alignedAddresses (s : State) (c : Command) : (s.settle c).alignedAddresses = s.alignedAddresses := rfl
@[simp] theorem State.settle_alwaysCalloc (s : State) (c : Command) : (s.settle c).alwaysCalloc = s.alwaysCalloc := rfl
@[simp] theorem State.settle_blocks (s : State) (c : Command) : (s.settle c).blocks = s.blocks := rfl
@[simp] theorem State.settle_hwm (s : State) (c : Command) : (s.settle c).hwm = s.hwm := rfl
@[simp] theorem State.settle_numActiveBlocks (s : State) (c : Command) : (s.settle c).numActiveBlocks = s.numActiveBlocks := rfl
@[simp] theorem State.settle_headersTouched (s : State) (c : Command) : (s.settle c).headersTouched = s.headersTouched := rfl
@[simp] theorem State.settle_history (s : State) (c : Command) : (s.settle c).history = s.history := rfl
@[simp] theorem State.settle_freeCount (s : State) (c : Command) : (s.settle c).freeCount = s.freeCount := rfl
@[simp] theorem State.settle_requests (s : State) (c : Command) : (s.settle c).requests = s.requests := rfl
@[simp] theorem State.settle_replies (s : State) (c : Command) : (s.settle c).replies = s.replies := rfl

/-! ### `State.setX` -/

@[simp] theorem State.setX_params (s : State) (r : RegId) (v : Word) : (s.setX r v).params = s.params := by
  unfold State.setX; split <;> rfl
@[simp] theorem State.setX_pc (s : State) (r : RegId) (v : Word) : (s.setX r v).pc = s.pc := by
  unfold State.setX; split <;> rfl
@[simp] theorem State.setX_cycles (s : State) (r : RegId) (v : Word) : (s.setX r v).cycles = s.cycles := by
  unfold State.setX; split <;> rfl
@[simp] theorem State.setX_mem (s : State) (r : RegId) (v : Word) : (s.setX r v).mem = s.mem := by
  unfold State.setX; split <;> rfl
@[simp] theorem State.setX_runState (s : State) (r : RegId) (v : Word) : (s.setX r v).runState = s.runState := by
  unfold State.setX; split <;> rfl
@[simp] theorem State.setX_err (s : State) (r : RegId) (v : Word) : (s.setX r v).err = s.err := by
  unfold State.setX; split <;> rfl
@[simp] theorem State.setX_alignedAddresses (s : State) (r : RegId) (v : Word) : (s.setX r v).alignedAddresses = s.alignedAddresses := by
  unfold State.setX; split <;> rfl
@[simp] theorem State.setX_alwaysCalloc (s : State) (r : RegId) (v : Word) : (s.setX r v).alwaysCalloc = s.alwaysCalloc := by
  unfold State.setX; split <;> rfl
@[simp] theorem State.setX_blocks (s : State) (r : RegId) (v : Word) : (s.setX r v).blocks = s.blocks := by
  unfold State.setX; split <;> rfl
@[simp] theorem State.setX_hwm (s : State) (r : RegId) (v : Word) : (s.setX r v).hwm = s.hwm := by
  unfold State.setX; split <;> rfl
@[simp] theorem State.setX_numActiveBlocks (s : State) (r : RegId) (v : Word) : (s.setX r v).numActiveBlocks = s.numActiveBlocks := by
  unfold State.setX; split <;> rfl
@[simp] theorem State.setX_headersTouched (s : State) (r : RegId) (v : Word) : (s.setX r v).headersTouched = s.headersTouched := by
  unfold State.setX; split <;> rfl
@[simp] theorem State.setX_history (s : State) (r : RegId) (v : Word) : (s.setX r v).history = s.history := by
  unfold State.setX; split <;> rfl
@[simp] theorem State.setX_freeCount (s : State) (r : RegId) (v : Word) : (s.setX r v).freeCount = s.freeCount := by
  unfold State.setX; split <;> rfl
@[simp] theorem State.setX_requests (s : State) (r : RegId) (v : Word) : (s.setX r v).requests = s.requests := by
  unfold State.setX; split <;> rfl
@[simp] theorem State.setX_replies (s : State) (r : RegId) (v : Word) : (s.setX r v).replies = s.replies := by
  unfold State.setX; split <;> rfl

/-! ### Registers -/

/-- A register read sees the register file only. -/
theorem State.x_of_regs_eq (s t : State) (h : t.regs = s.regs) (r : RegId) : t.x r = s.x r := by
  simp [State.x, h]

@[simp] theorem State.x_zero (s : State) : s.x 0 = 0 := rfl

/-- R21: a write to `x0` is discarded. -/
@[simp] theorem State.setX_zero (s : State) (v : Word) : s.setX 0 v = s := rfl

theorem State.x_setX_same (s : State) (r : RegId) (v : Word) (h : r ≠ 0) : (s.setX r v).x r = v := by
  have h0 : r.val ≠ 0 := fun e => h (Fin.ext e)
  simp [State.x, State.setX, h0]

theorem State.x_setX_other (s : State) (r q : RegId) (v : Word) (h : q ≠ r) :
    (s.setX r v).x q = s.x q := by
  by_cases hr : r.val = 0
  · simp [State.setX, hr]
  · by_cases hq : q.val = 0
    · simp [State.x, hq]
    · have hne : r.val - 1 ≠ q.val - 1 := fun e => h (Fin.ext (by omega))
      simp [State.x, State.setX, hr, hq, Vector.getElem_set_ne, hne]

/-- R21: what a register reads as after a write, whichever register was written. -/
theorem State.x_setX (s : State) (r q : RegId) (v : Word) :
    (s.setX r v).x q = if q = r then (if r = 0 then 0 else v) else s.x q := by
  split
  · next h =>
    subst h
    split
    · next h0 => subst h0; rfl
    · next h0 => exact s.x_setX_same q v h0
  · next h => exact s.x_setX_other r q v h

@[simp] theorem State.raise_x (s : State) (e : Err) (r : RegId) : (s.raise e).x r = s.x r := rfl
@[simp] theorem State.advance_x (s : State) (n : Word) (r : RegId) : (s.advance n).x r = s.x r := rfl
@[simp] theorem State.halt_x (s : State) (r : RegId) : (s.halt).x r = s.x r := rfl
@[simp] theorem State.writeData_x (s : State) (a : Nat) (bs : List Byte) (r : RegId) : (s.writeData a bs).x r = s.x r := rfl
@[simp] theorem State.relist_x (s : State) (bs : List Block) (r : RegId) : (s.relist bs).x r = s.x r := rfl
@[simp] theorem State.refresh_x (s : State) (keep : Nat → Bool) (r : RegId) : (s.refresh keep).x r = s.x r := rfl
@[simp] theorem State.forget_x (s : State) (a n : Nat) (r : RegId) : (s.forget a n).x r = s.x r := rfl
@[simp] theorem State.zeroPayload_x (s : State) (b : Block) (r : RegId) : (s.zeroPayload b).x r = s.x r := rfl
@[simp] theorem State.copyPayload_x (s : State) (src dst n : Nat) (r : RegId) : (s.copyPayload src dst n).x r = s.x r := rfl
@[simp] theorem State.draw_x (s : State) (r : RegId) : (s.draw).x r = s.x r := rfl
@[simp] theorem State.reply_x (s : State) (p : PortReply) (r : RegId) : (s.reply p).x r = s.x r := rfl
@[simp] theorem State.settle_x (s : State) (c : Command) (r : RegId) : (s.settle c).x r = s.x r := rfl

/-- The run state after an instruction of each command (R317). -/
theorem State.settle_runState (s : State) (c : Command) :
    (s.settle c).runState = match s.runState, c with
      | .halted, _ => .halted
      | _, .step => .ready
      | _, .run => .running .run false
      | _, .runToBp => .running .runToBp false := rfl

@[simp] theorem State.ofParams_params (p : Params) : (State.ofParams p).params = p := rfl

end Sys2Proof.Machine
end

