-- ==== Sys2Proof/Laws/Ops.lean ====
section
/-! SUPPORT. What each shared operation can do, said once: `complete`, `takeFault`, the memory arbiter, the
operation per instruction shape, and then `exec` as a whole (`exec_cases`). -/

namespace Sys2Proof.Machine

/-! ### Completing -/

/-- `cycles` is not at its last value. -/
theorem State.notFull_iff (s : State) : s.notFull ↔ s.cycles ≠ BitVec.allOnes 64 := by
  constructor
  · intro h e
    simp [State.notFull, e] at h
  · intro h
    by_contra hc
    apply h
    apply BitVec.eq_of_toNat_eq
    have := s.cycles.isLt
    simp only [State.notFull, BitVec.toNat_allOnes] at hc ⊢
    omega

/-- Completing below the counter's last value is a next state (R28). -/
theorem complete_of_notFull (n : Word) (s : State) (h : s.notFull) : complete n s = .next (s.advance n) :=
  if_neg (s.notFull_iff.mp h)

/-- Completing at the counter's last value is refused (R29). -/
theorem complete_of_full (n : Word) (s : State) (h : s.cycles = BitVec.allOnes 64) :
    complete n s = .refused .cycleCounterFull := if_pos h

/-- All that completing can do. -/
theorem complete_cases (n : Word) (s : State) :
    (s.notFull ∧ complete n s = .next (s.advance n))
      ∨ (s.cycles = BitVec.allOnes 64 ∧ complete n s = .refused .cycleCounterFull) := by
  by_cases h : s.cycles = BitVec.allOnes 64
  · exact .inr ⟨h, complete_of_full n s h⟩
  · exact .inl ⟨s.notFull_iff.mpr h, complete_of_notFull n s (s.notFull_iff.mpr h)⟩

/-- The counter goes up by one. -/
theorem State.advance_cycles_toNat (s : State) (n : Word) (h : s.notFull) :
    (s.advance n).cycles.toNat = s.cycles.toNat + 1 := by
  simp only [State.notFull] at h
  simp [BitVec.toNat_add]; omega

theorem takeFault_eq (e : Err) (s : State) :
    takeFault e s = .next { s with err := e, runState := .halted } := rfl

/-- An instruction that the machine's `XLEN` has does what its meaning says. -/
theorem whenDecodable_of_wf (i : Instr) (s : State) (o : Outcome) (h : i.wf s.params.xlen = true) :
    whenDecodable i s o = o := if_pos h

/-- One that it does not have raises `DecodeError`. -/
theorem whenDecodable_of_not_wf (i : Instr) (s : State) (o : Outcome) (h : i.wf s.params.xlen = false) :
    whenDecodable i s o = takeFault (.decodeError s.pc (encode i)) s := by
  simp [whenDecodable, h]

/-! ### What no instruction writes before it completes -/

/-- The fields that an instruction's effects leave alone. -/
structure Kept (s u : State) : Prop where
  params : u.params = s.params
  pc : u.pc = s.pc
  cycles : u.cycles = s.cycles
  err : u.err = s.err
  alignedAddresses : u.alignedAddresses = s.alignedAddresses
  alwaysCalloc : u.alwaysCalloc = s.alwaysCalloc
  requests : u.requests = s.requests
  replies : u.replies = s.replies

theorem Kept.rfl (s : State) : Kept s s := by constructor <;> simp

theorem Kept.trans {s t u : State} (h : Kept s t) (k : Kept t u) : Kept s u :=
  ⟨k.params.trans h.params, k.pc.trans h.pc, k.cycles.trans h.cycles, k.err.trans h.err,
    k.alignedAddresses.trans h.alignedAddresses, k.alwaysCalloc.trans h.alwaysCalloc,
    k.requests.trans h.requests, k.replies.trans h.replies⟩

theorem Kept.setX (s : State) (r : RegId) (v : Word) : Kept s (s.setX r v) := by constructor <;> simp

theorem Kept.writeData (s : State) (a : Nat) (bs : List Byte) : Kept s (s.writeData a bs) := by
  constructor <;> simp

theorem Kept.seqPc {s u : State} (h : Kept s u) : u.seqPc = s.seqPc := by
  simp [State.seqPc, State.add, h.params, h.pc]

/-- The allocator's state and data memory are as before. -/
structure SameData (s u : State) : Prop where
  mem : u.mem = s.mem
  headersTouched : u.headersTouched = s.headersTouched
  history : u.history = s.history

theorem SameHeap.refl (s : State) : SameHeap s s := ⟨rfl, rfl, rfl, rfl⟩

theorem SameData.setX (s : State) (r : RegId) (v : Word) : SameData s (s.setX r v) := by
  constructor <;> simp

theorem SameHeap.setX (s : State) (r : RegId) (v : Word) : SameHeap s (s.setX r v) := by
  simp [SameHeap]

/-! ### The memory arbiter -/

/-- The alignment rule (R70) in numbers. -/
theorem State.misaligned_iff (s : State) (a : Word) (w : Width) :
    s.misaligned a w = true ↔ ¬ s.allowed a.toNat w.bytes := by
  cases w <;> simp [State.misaligned, State.allowed, Width.bytes, Nat.mod_one]

theorem State.memRead_allowed (s : State) (a : Word) (w : Width) (h : s.allowed a.toNat w.bytes) :
    s.memRead a w = .ok (composeLE (s.mem.readBytes s.params.xlen a.toNat w.bytes)) := by
  have : s.misaligned a w = false := by
    cases hm : s.misaligned a w with
    | false => rfl
    | true => exact absurd h ((s.misaligned_iff a w).mp hm)
  simp [State.memRead, this]

theorem State.memRead_not_allowed (s : State) (a : Word) (w : Width) (h : ¬ s.allowed a.toNat w.bytes) :
    s.memRead a w = .error (.alignmentError a w false) := by
  simp [State.memRead, (s.misaligned_iff a w).mpr h]

theorem State.memWrite_allowed (s : State) (a v : Word) (w : Width) (h : s.allowed a.toNat w.bytes) :
    s.memWrite a w v = .ok (s.writeData a.toNat (bytesLE w.bytes v)) := by
  have : s.misaligned a w = false := by
    cases hm : s.misaligned a w with
    | false => rfl
    | true => exact absurd h ((s.misaligned_iff a w).mp hm)
  simp [State.memWrite, this]

theorem State.memWrite_not_allowed (s : State) (a v : Word) (w : Width) (h : ¬ s.allowed a.toNat w.bytes) :
    s.memWrite a w v = .error (.alignmentError a w true) := by
  simp [State.memWrite, (s.misaligned_iff a w).mpr h]

/-- All that a read can answer (R66). -/
theorem State.memRead_cases (s : State) (a : Word) (w : Width) :
    s.memRead a w = .error (.alignmentError a w false)
      ∨ s.memRead a w = .ok (composeLE (s.mem.readBytes s.params.xlen a.toNat w.bytes)) := by
  by_cases h : s.allowed a.toNat w.bytes
  · exact .inr (s.memRead_allowed a w h)
  · exact .inl (s.memRead_not_allowed a w h)

/-- All that a write can do (R67). -/
theorem State.memWrite_cases (s : State) (a v : Word) (w : Width) :
    s.memWrite a w v = .error (.alignmentError a w true)
      ∨ s.memWrite a w v = .ok (s.writeData a.toNat (bytesLE w.bytes v)) := by
  by_cases h : s.allowed a.toNat w.bytes
  · exact .inr (s.memWrite_allowed a v w h)
  · exact .inl (s.memWrite_not_allowed a v w h)

/-- One of the bytes from `a` on lies in a header (R275). -/
theorem State.touchesHeader_iff (s : State) (a n : Nat) :
    s.touchesHeader a n = true ↔ ∃ k < n, ∃ b ∈ s.blocks,
      b.base ≤ s.params.xlen.addrMod (a + k)
        ∧ s.params.xlen.addrMod (a + k) < b.base + s.params.hdrSize := by
  induction n generalizing a with
  | zero => simp [State.touchesHeader]
  | succ n ih =>
    simp only [State.touchesHeader, Bool.or_eq_true, ih, List.any_eq_true, Block.headerHas,
      Bool.and_eq_true, decide_eq_true_eq]
    constructor
    · rintro (⟨b, hb, h⟩ | ⟨k, hk, h⟩)
      · exact ⟨0, by omega, b, hb, h⟩
      · exact ⟨k + 1, by omega, by rwa [show a + (k + 1) = a + 1 + k by omega]⟩
    · rintro ⟨k, hk, h⟩
      cases k with
      | zero => exact .inl h
      | succ k => exact .inr ⟨k, by omega, by rwa [show a + 1 + k = a + (k + 1) by omega]⟩

/-- Writing data notes a touched header (R275). -/
theorem State.notes_writeData (s : State) (a : Nat) (bs : List Byte) (n : Nat) (h : bs.length = n) :
    NotesHeaders s (s.writeData a bs) a n := by
  show (s.headersTouched || s.touchesHeader a bs.length) = true ↔ _
  rw [Bool.or_eq_true, State.touchesHeader_iff, h]
  rfl

/-- Writing data records the bytes as data. -/
theorem State.records_writeData (s : State) (a : Nat) (bs : List Byte) (n : Nat) (h : bs.length = n) :
    RecordsData s (s.writeData a bs) a n := by
  subst h
  exact ⟨fun k hk => History.origin_markRange_in s.history s.params.xlen a _ _ .data k hk rfl,
    fun c hc => History.origin_markRange_other s.history s.params.xlen a _ c .data hc⟩

/-- The bytes read, as the number claims speak of (R65, R68). -/
theorem State.toNat_readBytes (s : State) (a n : Nat) (h : n ≤ 8) :
    (composeLE (s.mem.readBytes s.params.xlen a n)).toNat = s.bytesValue a n := by
  rw [(composeLE_toNat _ (by simpa using h)).1]
  clear h
  induction n generalizing a with
  | zero => rfl
  | succ n ih =>
    simp only [Memory.readBytes, List.foldr_cons, State.bytesValue, ih, Xlen.addrMod]

/-! ### What an instruction can do, shape by shape -/

/-- An instruction that may write `dest`, may write data memory or the allocator, may transfer control:
a fault that is latched and nothing else, a refusal of R275, or completion with effects within those
permissions. -/
inductive Does (dest : Option RegId) (writesMem transfers heap : Bool) (s : State) : Outcome → Prop where
  | faults (e : Err) (he : e ≠ .none) (hl : ∀ n, e ≠ .stepLimitExceeded n) :
      Does dest writesMem transfers heap s (takeFault e s)
  | refuses (hh : heap = true) : Does dest writesMem transfers heap s (.refused .headerOverwritten)
  | completes (next : Word) (u : State) (kept : Kept s u)
      (run : u.runState = s.runState ∨ (heap = true ∧ u.runState = .halted))
      (regs : ∀ r, dest ≠ some r → u.x r = s.x r)
      (seq : transfers = false → next = s.seqPc)
      (data : writesMem = false → SameData s u)
      (same : heap = false → SameHeap s u) :
      Does dest writesMem transfers heap s (complete next u)

theorem Does.whenDecodable {d : Option RegId} {m t h : Bool} {s : State} {o : Outcome} (i : Instr)
    (k : Does d m t h s o) : Does d m t h s (whenDecodable i s o) := by
  cases hw : i.wf s.params.xlen with
  | true => rwa [whenDecodable_of_wf i s o hw]
  | false => rw [whenDecodable_of_not_wf i s o hw]; exact .faults _ (by simp) (by simp)

theorem writeBack_does (rd : RegId) (v : Word) (s : State) :
    Does (some rd) false false false s (writeBack rd v s) :=
  .completes _ _ (Kept.setX ..) (.inl (by simp))
    (fun r hr => s.x_setX_other rd r v (fun e => hr (by rw [e]))) (fun _ => rfl)
    (fun _ => SameData.setX ..) (fun _ => SameHeap.setX ..)

theorem opLoad_does (w : Width) (f : Word → Word) (rd rs1 : RegId) (imm : BitVec 12) (s : State) :
    Does (some rd) false false false s (opLoad w f rd rs1 imm s) := by
  rcases s.memRead_cases (s.ea rs1 imm) w with h | h <;> simp only [opLoad, h]
  · exact .faults _ (by simp) (by simp)
  · exact writeBack_does ..

theorem opStore_does (w : Width) (rs2 rs1 : RegId) (imm : BitVec 12) (s : State) :
    Does none true false false s (opStore w rs2 rs1 imm s) := by
  rcases s.memWrite_cases (s.ea rs1 imm) (s.x rs2) w with h | h <;> simp only [opStore, h]
  · exact .faults _ (by simp) (by simp)
  · exact .completes _ _ (Kept.writeData ..) (.inl (by simp)) (fun _ _ => rfl) (fun _ => rfl) (by simp)
      (fun _ => ⟨rfl, rfl, rfl, rfl⟩)

theorem transferTo_does (d : Option RegId) (target : Word) (u s : State) (kept : Kept s u)
    (run : u.runState = s.runState) (regs : ∀ r, d ≠ some r → u.x r = s.x r) (data : SameData s u)
    (same : SameHeap s u) : Does d false true false s (transferTo target u s) := by
  unfold transferTo
  split
  · exact .faults _ (by simp) (by simp)
  · exact .completes _ _ kept (.inl run) regs (by simp) (fun _ => data) (fun _ => same)

theorem jump_does (rd : RegId) (target : Word) (s : State) :
    Does (some rd) false true false s (transferTo target (s.setX rd s.seqPc) s) :=
  transferTo_does _ _ _ _ (Kept.setX ..) (by simp)
    (fun r hr => s.x_setX_other rd r _ (fun e => hr (by rw [e]))) (SameData.setX ..) (SameHeap.setX ..)

theorem opBranch_does (c : (w : Nat) → BitVec w → BitVec w → Bool) (rs1 rs2 : RegId) (off : BitVec 13)
    (s : State) : Does none false true false s (opBranch c rs1 rs2 off s) := by
  unfold opBranch
  split
  · exact transferTo_does _ _ _ _ (Kept.rfl s) rfl (fun _ _ => rfl) ⟨rfl, rfl, rfl⟩ (SameHeap.refl s)
  · exact .completes _ _ (Kept.rfl s) (.inl rfl) (fun _ _ => rfl) (by simp) (fun _ => ⟨rfl, rfl, rfl⟩)
      (fun _ => SameHeap.refl s)

theorem advance_does (s : State) : Does none false false false s (complete s.seqPc s) :=
  .completes _ _ (Kept.rfl s) (.inl rfl) (fun _ _ => rfl) (fun _ => rfl) (fun _ => ⟨rfl, rfl, rfl⟩)
    (fun _ => SameHeap.refl s)

/-! ### The allocator's operations, seen from outside -/

/-- An allocator operation changes memory and the allocator's state only. -/
structure ServiceKept (s u : State) : Prop extends Kept s u where
  regs : u.regs = s.regs
  runState : u.runState = s.runState
  headersTouched : u.headersTouched = s.headersTouched

theorem ServiceKept.refl (s : State) : ServiceKept s s := ⟨Kept.rfl s, rfl, rfl, rfl⟩

theorem ServiceKept.trans {s t u : State} (h : ServiceKept s t) (k : ServiceKept t u) : ServiceKept s u :=
  ⟨h.toKept.trans k.toKept, k.regs.trans h.regs, k.runState.trans h.runState,
    k.headersTouched.trans h.headersTouched⟩

theorem ServiceKept.relist (s : State) (bs : List Block) : ServiceKept s (s.relist bs) := by
  constructor <;> first | rfl | constructor <;> rfl

theorem ServiceKept.refresh (s : State) (keep : Nat → Bool) : ServiceKept s (s.refresh keep) := by
  constructor <;> first | rfl | constructor <;> rfl

theorem ServiceKept.forget (s : State) (a n : Nat) : ServiceKept s (s.forget a n) := by
  constructor <;> first | rfl | constructor <;> rfl

theorem ServiceKept.draw (s : State) : ServiceKept s s.draw := by
  constructor <;> first | rfl | constructor <;> rfl

theorem ServiceKept.copyPayload (s : State) (a b n : Nat) : ServiceKept s (s.copyPayload a b n) := by
  constructor <;> first | rfl | constructor <;> rfl

theorem ServiceKept.grant (s : State) (b : Block) (z r : Bool) : ServiceKept s (s.grant b z r) := by
  unfold State.grant
  dsimp only
  split
  · constructor <;> first | rfl | constructor <;> rfl
  · split <;> constructor <;> first | rfl | constructor <;> rfl

theorem ServiceKept.alloc (s : State) (n : Nat) (z : Bool) (r : State × Block) (h : s.alloc n z = some r) :
    ServiceKept s r.1 := by
  unfold State.alloc at h
  dsimp only at h
  split at h
  · cases h; exact (ServiceKept.relist ..).trans (ServiceKept.grant ..)
  · split at h
    · cases h
    · cases h
      refine ServiceKept.trans ?_ (ServiceKept.grant ..)
      constructor <;> first | rfl | constructor <;> rfl

theorem ServiceKept.allocate (s : State) (n : Nat) (z : Bool) : ServiceKept s (s.allocate n z).1 := by
  unfold State.allocate
  split
  · exact ServiceKept.refl s
  · next h => exact (ServiceKept.alloc s n z _ h).trans (ServiceKept.refresh ..)

theorem ServiceKept.answerNull (s : State) : ServiceKept s s.answerNull.1 :=
  (ServiceKept.draw s).trans (ServiceKept.refresh ..)

theorem ServiceKept.request (s : State) (n : Nat) (z : Bool) : ServiceKept s (s.request n z).1 := by
  unfold State.request
  split
  · split
    · exact ServiceKept.answerNull s
    · exact (ServiceKept.draw s).trans (ServiceKept.allocate ..)
  · exact ServiceKept.allocate ..

theorem ServiceKept.release (s : State) (f : Found) : ServiceKept s (s.release f) := by
  constructor <;> first | rfl | constructor <;> rfl

theorem ServiceKept.freeBlock (s : State) (f : Found) : ServiceKept s (s.freeBlock f) :=
  (ServiceKept.release ..).trans (ServiceKept.refresh ..)

theorem ServiceKept.resizeInPlace (s : State) (f : Found) (n : Nat) : ServiceKept s (s.resizeInPlace f n) :=
  (ServiceKept.draw s).trans ((ServiceKept.relist ..).trans ((ServiceKept.forget ..).trans (ServiceKept.refresh ..)))

theorem ServiceKept.resizeMoving (s : State) (f : Found) (n : Nat) : ServiceKept s (s.resizeMoving f n).1 := by
  unfold State.resizeMoving
  dsimp only
  split
  · exact ServiceKept.refl s
  · next h =>
    have k := fun a b c => (ServiceKept.alloc s n false _ h).trans (ServiceKept.copyPayload _ a b c)
    split
    · exact (k _ _ _).trans (ServiceKept.freeBlock ..)
    · exact k _ _ _

theorem ServiceKept.resize (s : State) (f : Found) (n : Nat) : ServiceKept s (s.resize f n).1 := by
  unfold State.resize
  split
  · exact ServiceKept.answerNull s
  · split
    · exact ServiceKept.resizeInPlace ..
    · exact ServiceKept.resizeMoving ..

theorem returnA0_does (s : State) (r : State × Nat) (h : ServiceKept s r.1) :
    Does (some 10) true false true s (returnA0 s r) :=
  .completes _ _ (h.toKept.trans (Kept.setX ..)) (.inl (by simp [h.runState]))
    (fun q hq => by
      rw [r.1.x_setX_other 10 q _ (fun e => hq (by rw [e]))]
      exact s.x_of_regs_eq r.1 h.regs q) (fun _ => rfl) (by simp) (by simp)

theorem runService_does (op : AllocOp) (p : Pointer) (s : State) :
    Does (some 10) true false true s (runService op p s) := by
  have free : ∀ u, ServiceKept s u → Does (some 10) true false true s (complete s.seqPc u) := fun u h =>
    .completes _ _ h.toKept (.inl h.runState) (fun q _ => s.x_of_regs_eq u h.regs q) (fun _ => rfl)
      (by simp) (by simp)
  cases op <;> cases p <;> simp only [runService] <;>
    first
    | exact returnA0_does _ _ (ServiceKept.request ..)
    | exact returnA0_does _ _ (ServiceKept.resize ..)
    | exact returnA0_does _ _ (ServiceKept.refl s)
    | exact free _ (ServiceKept.freeBlock ..)
    | exact free _ (ServiceKept.refl s)

theorem allocatorCall_does (op : AllocOp) (s : State) :
    Does (some 10) true false true s (allocatorCall op s) := by
  unfold allocatorCall
  split
  · exact .refuses rfl
  · split
    · exact .faults _ (by simp) (by simp)
    · split
      · exact .faults _ (by simp [State.metadataFault]) (by simp [State.metadataFault])
      · exact runService_does ..

theorem execEcall_does (s : State) : Does (some 10) true false true s (execEcall s) := by
  have unsupported : Does (some 10) true false true s (unsupportedCall s) := .faults _ (by simp) (by simp)
  unfold execEcall
  split
  · exact .completes _ _ (by constructor <;> rfl) (.inr ⟨rfl, rfl⟩) (fun _ _ => rfl) (fun _ => rfl)
      (by simp) (by simp)
  · split
    · split
      · exact allocatorCall_does ..
      · exact unsupported
    · exact unsupported

/-! ### Every instruction -/

/-- What executing an instruction can do, for every instruction. -/
theorem exec_does (i : Instr) (s : State) :
    Does i.destination i.mayWriteMem i.isTransfer (i == .ecall) s (exec i s) := by
  cases i
  case ecall => exact execEcall_does s
  case fence => exact advance_does s
  case ebreak => exact advance_does s
  case jal => exact jump_does ..
  case jalr => exact jump_does ..
  all_goals
    first
    | exact writeBack_does ..
    | exact Does.whenDecodable _ (writeBack_does ..)
    | exact opBranch_does ..
    | exact opLoad_does ..
    | exact Does.whenDecodable _ (opLoad_does ..)
    | exact opStore_does ..
    | exact Does.whenDecodable _ (opStore_does ..)

/-- A next state of an instruction: a latched fault and nothing else, or an instruction counted with
effects within the instruction's permissions. -/
theorem exec_next_cases (i : Instr) (s t : State) (h : exec i s = .next t) :
    (∃ e, e ≠ .none ∧ (∀ n, e ≠ .stepLimitExceeded n) ∧ t = s.raise e)
      ∨ (∃ next u, s.notFull ∧ t = State.advance u next ∧ Kept s u
        ∧ (u.runState = s.runState ∨ (i = .ecall ∧ u.runState = .halted))
        ∧ (∀ r, i.destination ≠ some r → u.x r = s.x r)
        ∧ (i.isTransfer = false → next = s.seqPc)
        ∧ (i.mayWriteMem = false → SameData s u)
        ∧ (i ≠ .ecall → SameHeap s u)) := by
  have hd := exec_does i s
  generalize exec i s = o at hd h
  cases hd with
  | faults e he hl => exact .inl ⟨e, he, hl, by simpa [takeFault] using h.symm⟩
  | refuses => simp at h
  | completes next u kept run regs seq data same =>
    right
    rcases complete_cases next u with ⟨hf, hc⟩ | ⟨_, hc⟩
    · rw [hc] at h
      refine ⟨next, u, ?_, by simpa using h.symm, kept, ?_, regs, seq, data, ?_⟩
      · simpa [State.notFull, kept.cycles] using hf
      · simpa using run
      · intro hi; exact same (by simpa using hi)
    · rw [hc] at h; simp at h

end Sys2Proof.Machine
end

