-- ==== Sys2Proof/Laws/Allocator.lean ====
section
/-! SUPPORT. The allocator's block list and its effects on memory (R272 to R286): what each helper answers,
which bytes each effect leaves alone, and that the invariants of R273 are kept by each change of the list. -/

namespace Sys2Proof.Machine

/-! ### Looking for a block -/

/-- What a search found is a split of the list at the first block that the test accepts. -/
theorem findBlock_some (test : Block → Bool) (l : List Block) (f : Found) (h : findBlock test l = some f) :
    l = f.before ++ f.block :: f.after ∧ test f.block = true ∧ ∀ b ∈ f.before, test b = false := by
  induction l generalizing f with
  | nil => simp [findBlock] at h
  | cons b bs ih =>
    unfold findBlock at h
    split at h
    · next ht => cases h; simp [ht]
    · next ht =>
      split at h
      · cases h
      · next g hg =>
        cases h
        obtain ⟨h1, h2, h3⟩ := ih g hg
        refine ⟨by rw [h1]; rfl, h2, ?_⟩
        intro c hc
        rcases List.mem_cons.mp hc with rfl | hc
        · simpa using ht
        · exact h3 c hc

theorem findBlock_none (test : Block → Bool) (l : List Block) (h : ∀ b ∈ l, test b = false) :
    findBlock test l = none := by
  induction l with
  | nil => rfl
  | cons b bs ih =>
    rw [findBlock, h b (List.mem_cons_self ..), ih (fun c hc => h c (List.mem_cons_of_mem _ hc))]
    rfl

theorem findBlock_eq_none (test : Block → Bool) (l : List Block) (h : findBlock test l = none) :
    ∀ b ∈ l, test b = false := by
  induction l with
  | nil => simp
  | cons b bs ih =>
    unfold findBlock at h
    split at h
    · cases h
    · next ht =>
      split at h
      · next hn =>
        intro c hc
        rcases List.mem_cons.mp hc with rfl | hc
        · simpa using ht
        · exact ih hn c hc
      · cases h

/-- The first block that the test accepts is the one found. -/
theorem findBlock_first (test : Block → Bool) (before : List Block) (b : Block) (after : List Block)
    (hb : test b = true) (h : ∀ c ∈ before, test c = false) :
    findBlock test (before ++ b :: after) = some ⟨before, b, after⟩ := by
  induction before with
  | nil => simp [findBlock, hb]
  | cons c cs ih =>
    rw [List.cons_append, findBlock, h c (List.mem_cons_self ..),
      ih (fun d hd => h d (List.mem_cons_of_mem _ hd))]
    rfl

/-! ### Tiling (R273) -/

theorem tiles_append (hdr lo hi : Nat) (l k : List Block) :
    tiles hdr lo (l ++ k) hi = true ↔ ∃ mid, tiles hdr lo l mid = true ∧ tiles hdr mid k hi = true := by
  induction l generalizing lo with
  | nil => simp [tiles]
  | cons b bs ih =>
    simp only [List.cons_append, tiles, Bool.and_eq_true, ih]
    constructor
    · rintro ⟨h, mid, h1, h2⟩; exact ⟨mid, ⟨h, h1⟩, h2⟩
    · rintro ⟨mid, ⟨h, h1⟩, h2⟩; exact ⟨h, mid, h1, h2⟩

theorem tiles_cons (hdr lo hi : Nat) (b : Block) (l : List Block) :
    tiles hdr lo (b :: l) hi = true ↔ b.base = lo ∧ tiles hdr (lo + hdr + b.size) l hi = true := by
  simp [tiles]

theorem tiles_nil (hdr lo hi : Nat) : tiles hdr lo [] hi = true ↔ lo = hi := by simp [tiles]

theorem tiles_le (hdr lo hi : Nat) (l : List Block) (h : tiles hdr lo l hi = true) : lo ≤ hi := by
  induction l generalizing lo with
  | nil => rw [tiles_nil] at h; omega
  | cons b bs ih => rw [tiles_cons] at h; have := ih _ h.2; omega

/-- Every block lies within the range. -/
theorem tiles_mem (hdr lo hi : Nat) (l : List Block) (h : tiles hdr lo l hi = true) (b : Block) (hb : b ∈ l) :
    lo ≤ b.base ∧ b.base + hdr + b.size ≤ hi := by
  induction l generalizing lo with
  | nil => simp at hb
  | cons c cs ih =>
    rw [tiles_cons] at h
    rcases List.mem_cons.mp hb with rfl | hb
    · have := tiles_le _ _ _ _ h.2; omega
    · have := ih _ h.2 hb; omega

/-- A tiled list split at a block: what lies before it ends where it begins, and what lies after it begins
where it ends. -/
theorem tiles_split (hdr lo hi : Nat) (before after : List Block) (b : Block) :
    tiles hdr lo (before ++ b :: after) hi = true ↔
      tiles hdr lo before b.base = true ∧ tiles hdr (b.base + hdr + b.size) after hi = true := by
  rw [tiles_append]
  constructor
  · rintro ⟨mid, h1, h2⟩; rw [tiles_cons] at h2; obtain ⟨rfl, h2⟩ := h2; exact ⟨h1, h2⟩
  · rintro ⟨h1, h2⟩; exact ⟨b.base, h1, (tiles_cons ..).mpr ⟨rfl, h2⟩⟩

/-! ### Coalescing (R273) -/

/-- Two blocks may stand side by side. -/
def Apart (b c : Block) : Prop := ¬ (b.free = true ∧ c.free = true)

theorem coalesced_iff (l : List Block) : coalesced l = true ↔ l.IsChain Apart := by
  induction l with
  | nil => simp [coalesced]
  | cons b bs ih =>
    cases bs with
    | nil => simp [coalesced]
    | cons c cs =>
      rw [List.isChain_cons_cons, ← ih, coalesced, Bool.and_eq_true]
      cases hb : b.free <;> simp [Apart, hb]

/-! ### The invariants as propositions -/

/-- R273. -/
structure HeapInv (s : State) : Prop where
  tiled : tiles s.params.hdrSize s.params.heapBase s.blocks s.hwm = true
  low : s.params.heapBase ≤ s.hwm
  high : s.hwm ≤ s.params.heapLimit
  apart : s.blocks.IsChain Apart
  count : s.numActiveBlocks = s.blocks.countP (fun b => !b.free)

theorem State.heapOk_iff (s : State) : s.heapOk = true ↔ HeapInv s := by
  simp only [State.heapOk, Bool.and_eq_true, decide_eq_true_eq, coalesced_iff, beq_iff_eq]
  exact ⟨fun ⟨⟨⟨⟨a, b⟩, c⟩, d⟩, e⟩ => ⟨a, b, c, d, e⟩, fun ⟨a, b, c, d, e⟩ => ⟨⟨⟨⟨a, b⟩, c⟩, d⟩, e⟩⟩

/-- What R6 and R393 say of the heap's parameters. -/
theorem heapParams_of_valid (p : Params) (h : p.valid = true) :
    p.heapBase ≤ p.heapLimit ∧ p.heapLimit ≤ 2 ^ p.xlen.bits ∧ 0 < p.allocAlign ∧ 0 < p.hdrSize
      ∧ p.hdrSize % p.allocAlign = 0 ∧ p.heapBase % p.allocAlign = 0 := by
  simp only [Params.valid, Bool.and_eq_true, beq_iff_eq, decide_eq_true_eq] at h
  refine ⟨h.1.1.1.1.1.2, h.1.1.1.1.2, ?_, h.1.1.2, h.1.2, h.2⟩
  have := h.1.1.1.2
  have h2 : 0 < 2 ^ p.allocAlign.log2 := Nat.two_pow_pos _
  omega

/-- A byte outside the tiled range lies in no header. -/
theorem HeapInv.not_headerByte {s : State} (h : HeapInv s) (a : Nat) (ha : a < s.params.heapBase ∨ s.hwm ≤ a) :
    ¬ s.HeaderByte a := by
  rintro ⟨b, hb, h1, h2⟩
  have := tiles_mem _ _ _ _ h.tiled b hb
  omega

/-- A payload byte of a block of the list lies in no header. -/
theorem HeapInv.payload_not_header {s : State} (h : HeapInv s) (b : Block) (hb : b ∈ s.blocks) (a : Nat)
    (ha : b.Has s.params.hdrSize a) : ¬ s.HeaderByte a := by
  obtain ⟨ha1, ha2⟩ := ha
  rintro ⟨c, hc, h1, h2⟩
  have ht := h.tiled
  obtain ⟨before, after, e⟩ := List.append_of_mem hb
  rw [e, tiles_split] at ht
  rw [e] at hc
  rcases List.mem_append.mp hc with hc | hc
  · have := tiles_mem _ _ _ _ ht.1 c hc; omega
  · rcases List.mem_cons.mp hc with rfl | hc
    · omega
    · have := tiles_mem _ _ _ _ ht.2 c hc; omega

/-- Two blocks of the list are one, or lie apart. -/
theorem HeapInv.apart_of_ne {s : State} (h : HeapInv s) (b c : Block) (hb : b ∈ s.blocks) (hc : c ∈ s.blocks)
    (hne : c.base ≠ b.base) :
    c.base + s.params.hdrSize + c.size ≤ b.base ∨ b.base + s.params.hdrSize + b.size ≤ c.base := by
  have ht := h.tiled
  obtain ⟨before, after, e⟩ := List.append_of_mem hb
  rw [e, tiles_split] at ht
  rw [e] at hc
  rcases List.mem_append.mp hc with hc | hc
  · exact .inl (tiles_mem _ _ _ _ ht.1 c hc).2
  · rcases List.mem_cons.mp hc with rfl | hc
    · exact absurd rfl hne
    · exact .inr (tiles_mem _ _ _ _ ht.2 c hc).1

/-- Everything that the allocator's operations rely on and keep: valid parameters, canonical memory and
history, the invariants of R273, and metadata in the heap only (R274). -/
structure HeapSound (s : State) : Prop where
  valid : s.params.valid = true
  wf : s.mem.wf = true
  within : s.mem.within s.params.xlen = true
  heap : HeapInv s
  history : s.history.wf = true
  metadata : ∀ a, s.MetadataByte a → s.params.heapBase ≤ a ∧ a < s.hwm

/-- Metadata in the heap, entry by entry and byte by byte. -/
theorem State.metadataInHeap_iff (s : State) (h : s.history.wf = true) :
    s.metadataInHeap = true ↔ ∀ a, s.MetadataByte a → s.params.heapBase ≤ a ∧ a < s.hwm := by
  simp only [State.metadataInHeap, List.all_eq_true, Bool.or_eq_true, Bool.and_eq_true, decide_eq_true_eq,
    beq_iff_eq, Prod.forall]
  constructor
  · intro k a ha
    exact (k a .metadata ((History.mem_iff _ 0 a _ h).mpr ⟨Nat.zero_le _, ha⟩)).resolve_left (by simp)
  · intro k a o ha
    cases o with
    | data => exact .inl rfl
    | metadata => exact .inr (k a ((History.mem_iff _ 0 a _ h).mp ha).2)

/-- The heap lies in the address space. -/
theorem HeapSound.hwm_le {s : State} (h : HeapSound s) : s.hwm ≤ 2 ^ s.params.xlen.bits :=
  h.heap.high.trans (heapParams_of_valid s.params h.valid).2.1

/-- The headers lie in the address space. -/
theorem HeapSound.header_le {s : State} (h : HeapSound s) (b : Block) (hb : b ∈ s.blocks) :
    b.base + s.params.hdrSize ≤ 2 ^ s.params.xlen.bits := by
  have := tiles_mem _ _ _ _ h.heap.tiled b hb
  have := h.hwm_le
  omega

/-! ### Rounding (R276) -/

theorem roundUp_spec (align size : Nat) (h : 0 < align) :
    roundUp align size % align = 0 ∧ size ≤ roundUp align size ∧ roundUp align size < size + align := by
  have h1 := Nat.div_add_mod (size + align - 1) align
  have h2 := Nat.mod_lt (size + align - 1) h
  have h3 : roundUp align size = align * ((size + align - 1) / align) := Nat.mul_comm ..
  rw [h3]
  exact ⟨Nat.mul_mod_right .., by omega, by omega⟩

/-- The least multiple of the granularity that is at least the size is the rounded size. -/
theorem State.roundUp_eq (s : State) (size rs : Nat) (h : s.RoundedUp size rs) :
    roundUp s.params.allocAlign size = rs := by
  obtain ⟨h1, h2, h3⟩ := h
  have hp : 0 < s.params.allocAlign := by omega
  obtain ⟨r1, r2, r3⟩ := roundUp_spec s.params.allocAlign size hp
  obtain ⟨a, ha⟩ := Nat.dvd_of_mod_eq_zero h1
  obtain ⟨b, hb⟩ := Nat.dvd_of_mod_eq_zero r1
  rw [ha] at h2 h3
  rw [hb] at r2 r3
  rw [ha, hb]
  congr 1
  rcases Nat.lt_trichotomy a b with h | h | h
  · have : s.params.allocAlign * (a + 1) ≤ s.params.allocAlign * b := Nat.mul_le_mul_left _ h
    rw [Nat.mul_add] at this; omega
  · exact h.symm
  · have : s.params.allocAlign * (b + 1) ≤ s.params.allocAlign * a := Nat.mul_le_mul_left _ h
    rw [Nat.mul_add] at this; omega

theorem roundUp_zero (align : Nat) : roundUp align 0 = 0 := by
  unfold roundUp
  rcases Nat.eq_zero_or_pos align with h | h
  · simp [h]
  · rw [Nat.zero_add, Nat.div_eq_of_lt (by omega), Nat.zero_mul]

/-! ### Effects on memory -/

theorem Xlen.addrMod_of_lt (x : Xlen) (a : Nat) (h : a < 2 ^ x.bits) : x.addrMod a = a := Nat.mod_eq_of_lt h

/-- Marking headers makes exactly their bytes metadata (R274). -/
theorem History.origin_markHeaders (h : History) (x : Xlen) (hdr : Nat) (bs : List Block) (c : Nat)
    (hl : ∀ b ∈ bs, b.base + hdr ≤ 2 ^ x.bits) :
    (InHeaders hdr bs c → (h.markHeaders x hdr bs).origin c = some .metadata)
      ∧ (¬ InHeaders hdr bs c → (h.markHeaders x hdr bs).origin c = h.origin c) := by
  constructor
  · rintro ⟨b, hb, h1, h2⟩
    have := hl b hb
    exact History.origin_markHeaders_in h x hdr bs c b hb (c - b.base) (by omega)
      (by rw [Xlen.addrMod_of_lt _ _ (by omega)]; omega)
  · intro hn
    refine History.origin_markHeaders_other h x hdr bs c fun b hb i hi e => hn ⟨b, hb, ?_⟩
    have := hl b hb
    rw [Xlen.addrMod_of_lt _ _ (by omega)] at e
    omega

/-- A change of the list records the headers of both lists, and nothing else (R274, U2). -/
theorem State.relist_recorded (s : State) (bs : List Block)
    (hs : ∀ b ∈ s.blocks, b.base + s.params.hdrSize ≤ 2 ^ s.params.xlen.bits)
    (hb : ∀ b ∈ bs, b.base + s.params.hdrSize ≤ 2 ^ s.params.xlen.bits) :
    Recorded s (s.relist bs) (fun _ => False) := by
  intro a
  have o1 := History.origin_markHeaders s.history s.params.xlen s.params.hdrSize s.blocks a hs
  have o2 := History.origin_markHeaders (s.history.markHeaders s.params.xlen s.params.hdrSize s.blocks)
    s.params.xlen s.params.hdrSize bs a hb
  refine ⟨False.elim, fun _ => ⟨fun h => ?_, fun h => ?_⟩⟩
  · by_cases h2 : InHeaders s.params.hdrSize bs a
    · exact o2.1 h2
    · exact (o2.2 h2).trans (o1.1 (h.resolve_right h2))
  · exact (o2.2 fun h2 => h (.inr h2)).trans (o1.2 fun h1 => h (.inl h1))

/-- A record rests on the history and the list of the state after. -/
theorem Recorded.of_eq {s t u : State} {W : Nat → Prop} (h : Recorded s t W) (hy : u.history = t.history)
    (hb : u.blocks = t.blocks) (hp : u.params = t.params) : Recorded s u W := by
  intro a
  have hc : u.HeaderByte a ↔ t.HeaderByte a := by simp [State.HeaderByte, hb, hp]
  beta_reduce
  rw [State.origin, hy, hc]
  exact h a

/-- Bytes of a range written as data afterwards. -/
theorem Recorded.writes {s t u : State} (h : Recorded s t (fun _ => False)) (hb : u.blocks = t.blocks)
    (hp : u.params = t.params) (a n : Nat)
    (hh : u.history = t.history.markRange t.params.xlen a n .data) (hl : a + n ≤ 2 ^ t.params.xlen.bits) :
    Recorded s u (fun c => a ≤ c ∧ c < a + n) := by
  intro c
  have hc : u.HeaderByte c ↔ t.HeaderByte c := by simp [State.HeaderByte, hb, hp]
  have ho : u.origin c = (t.history.markRange t.params.xlen a n .data).origin c := by rw [State.origin, hh]
  beta_reduce
  rw [ho, hc]
  refine ⟨fun hw => History.origin_markRange_in _ _ a n c .data (c - a) (by omega)
    (by rw [Xlen.addrMod_of_lt _ _ (by omega)]; omega), fun hw => ?_⟩
  rw [History.origin_markRange_other _ _ a n c .data]
  · exact (h c).2 id
  · intro i hi e
    rw [Xlen.addrMod_of_lt _ _ (by omega)] at e
    omega

/-- One record after another: what was written last counts. -/
theorem RecordedAs.trans {s t u : State} {H W H' W' : Nat → Prop} (h : RecordedAs s t H W)
    (k : RecordedAs t u H' W') : RecordedAs s u (fun a => H a ∨ H' a) (fun a => W' a ∨ (W a ∧ ¬ H' a)) := by
  intro a
  obtain ⟨h1, h2⟩ := h a
  obtain ⟨k1, k2⟩ := k a
  by_cases w' : W' a
  · exact ⟨fun _ => k1 w', fun n => absurd (.inl w') n⟩
  · obtain ⟨k3, k4⟩ := k2 w'
    refine ⟨fun hw => ?_, fun n => ?_⟩
    · obtain ⟨hw, hh⟩ := hw.resolve_left w'
      exact (k4 hh).trans (h1 hw)
    · by_cases hh : H' a
      · exact ⟨fun _ => k3 hh, fun m => absurd (.inr hh) m⟩
      · have hw : ¬ W a := fun hw => n (.inr ⟨hw, hh⟩)
        rw [k4 hh]
        exact ⟨fun m => (h2 hw).1 (m.resolve_right hh), fun m => (h2 hw).2 fun x => m (.inl x)⟩

/-- The same record under other names for its bytes. -/
theorem RecordedAs.congr {s t : State} {H W H' W' : Nat → Prop} (h : RecordedAs s t H W)
    (hH : ∀ a, ¬ W' a → (H a ↔ H' a)) (hW : ∀ a, W a ↔ W' a) : RecordedAs s t H' W' := by
  intro a
  have k := h a
  rw [hW] at k
  exact ⟨k.1, fun n => by rw [← hH a n]; exact k.2 n⟩

/-- The copy of R284 records its destination as data. -/
theorem State.copyPayload_recorded (s : State) (src dst n : Nat) (hl : dst + n ≤ 2 ^ s.params.xlen.bits) :
    RecordedAs s (s.copyPayload src dst n) (fun _ => False) (fun c => dst ≤ c ∧ c < dst + n) := by
  intro c
  refine ⟨fun hw => History.origin_markRange_in _ _ dst n c .data (c - dst) (by omega)
    (by rw [Xlen.addrMod_of_lt _ _ (by omega)]; omega), fun hw => ⟨False.elim, fun _ => ?_⟩⟩
  refine History.origin_markRange_other _ _ dst n c .data fun i hi e => ?_
  rw [Xlen.addrMod_of_lt _ _ (by omega)] at e
  omega

/-- A byte in no header of either list, and not metadata, is not metadata afterwards. -/
theorem Recorded.not_metadata {s t : State} {W : Nat → Prop} (h : Recorded s t W) (a : Nat)
    (hs : ¬ s.HeaderByte a) (ht : ¬ t.HeaderByte a) (hm : ¬ s.MetadataByte a) : ¬ t.MetadataByte a := by
  intro hx
  by_cases hw : W a
  · rw [State.MetadataByte, (h a).1 hw] at hx; simp at hx
  · rw [State.MetadataByte, ((h a).2 hw).2 (fun k => k.elim hs ht)] at hx; exact hm hx

/-- The zero-fill leaves every byte outside the payload alone (R276). -/
theorem State.read_zeroPayload_other (s : State) (b : Block) (a : Nat) (hw : s.mem.wf = true)
    (hl : b.base + s.params.hdrSize + b.size ≤ 2 ^ s.params.xlen.bits) (ha : ¬ b.Has s.params.hdrSize a) :
    (s.zeroPayload b).mem.read a = s.mem.read a := by
  apply Memory.read_writeBytes_other _ _ _ _ _ hw
  intro i hi
  simp only [List.length_replicate] at hi
  rw [Block.payload, Xlen.addrMod_of_lt _ _ (by omega)]
  rintro rfl
  exact ha ⟨by omega, by omega⟩

/-- The zero-fill leaves the payload zero (R276). -/
theorem State.read_zeroPayload (s : State) (b : Block) (a : Nat) (hw : s.mem.wf = true)
    (hl : b.base + s.params.hdrSize + b.size ≤ 2 ^ s.params.xlen.bits) (ha : b.Has s.params.hdrSize a) :
    (s.zeroPayload b).mem.read a = 0 := by
  obtain ⟨h1, h2⟩ := ha
  have h := Memory.read_writeBytes_at s.mem s.params.xlen (b.payload s.params.hdrSize)
    (List.replicate b.size 0) hw (by simp; omega) (a - (b.base + s.params.hdrSize)) (by simp; omega)
  rw [Block.payload, Xlen.addrMod_of_lt _ _ (by omega),
    show b.base + s.params.hdrSize + (a - (b.base + s.params.hdrSize)) = a by omega] at h
  exact h.trans (by simp)

/-- The copy of R284 between ranges that do not overlap. -/
theorem Memory.read_copyBytes (m : Memory) (x : Xlen) (src dst n : Nat) (hw : m.wf = true)
    (hs : src + n ≤ 2 ^ x.bits) (hd : dst + n ≤ 2 ^ x.bits) (hdis : src + n ≤ dst ∨ dst + n ≤ src)
    (k : Nat) (hk : k < n) : (m.copyBytes x src dst n).read (dst + k) = m.read (src + k) := by
  induction n generalizing m src dst k with
  | zero => omega
  | succ n ih =>
    simp only [Memory.copyBytes]
    rw [Xlen.addrMod_of_lt x src (by omega), Xlen.addrMod_of_lt x dst (by omega)]
    cases k with
    | zero =>
      rw [Memory.read_copyBytes_other _ _ _ _ _ _ (Memory.wf_write m _ _ hw)]
      · exact Memory.read_write_same m 0 _ _ hw
      · intro i hi; rw [Xlen.addrMod_of_lt _ _ (by omega)]; omega
    | succ k =>
      have := ih (m.write dst (m.read src)) (src + 1) (dst + 1) (Memory.wf_write m _ _ hw) (by omega) (by omega)
        (by omega) k (by omega)
      rw [show dst + (k + 1) = dst + 1 + k by omega, this,
        Memory.read_write_other m 0 _ _ _ hw (by omega), show src + (k + 1) = src + 1 + k by omega]

/-! ### What the effects keep -/

/-- An operation that keeps the invariants of R273 and records what it wrote leaves a sound heap. -/
theorem HeapSound.of_recorded {s u : State} {W : Nat → Prop} (h : HeapSound s) (hp : u.params = s.params)
    (hi : HeapInv u) (hh : s.hwm ≤ u.hwm) (hw : u.mem.wf = true) (hx : u.mem.within s.params.xlen = true)
    (hy : u.history.wf = true) (hr : Recorded s u W) : HeapSound u := by
  refine ⟨by rw [hp]; exact h.valid, hw, by rw [hp]; exact hx, hi, hy, fun a ha => ?_⟩
  by_cases hin : a < u.params.heapBase ∨ u.hwm ≤ a
  · refine absurd ha (hr.not_metadata a (h.heap.not_headerByte a ?_) (hi.not_headerByte a hin) fun hm => ?_)
    · rw [hp] at hin; omega
    · have := h.metadata a hm; rw [hp] at hin; omega
  · omega

/-- Free bytes at metadata addresses leave a sound heap, and every other byte (R274, U2). -/
theorem HeapSound.refresh {s : State} (h : HeapSound s) (keep : Nat → Bool) : HeapSound (s.refresh keep) := by
  refine ⟨h.valid, Memory.wf_scramble _ _ _ _ h.wf, Memory.within_scramble _ _ _ _ _ h.within fun a ha => ?_,
    ⟨h.heap.1, h.heap.2, h.heap.3, h.heap.4, h.heap.5⟩, h.history, h.metadata⟩
  exact Nat.lt_of_lt_of_le (h.metadata a ((History.mem_iff _ 0 a _ h.history).mp ha).2).2 h.hwm_le

theorem State.read_refresh (s : State) (keep : Nat → Bool) (a : Nat) (hw : s.mem.wf = true)
    (hy : s.history.wf = true) (ha : s.MetadataByte a → keep a = true) :
    (s.refresh keep).mem.read a = s.mem.read a :=
  Memory.read_scramble_other s.mem keep s.history s.freeCount a hw
    fun hm => ha ((History.mem_iff _ 0 a _ hy).mp hm).2

/-- Forgetting a range leaves a sound heap, every byte outside it and those never written since reset. -/
theorem HeapSound.forget {s : State} (h : HeapSound s) (a n : Nat) : HeapSound (s.forget a n) :=
  ⟨h.valid, Memory.wf_forget _ _ _ _ _ _ h.wf, Memory.within_forget _ _ _ _ _ _ h.within,
    ⟨h.heap.1, h.heap.2, h.heap.3, h.heap.4, h.heap.5⟩, h.history, h.metadata⟩

theorem State.read_forget (s : State) (a n c : Nat) (hw : s.mem.wf = true) (hl : a + n ≤ 2 ^ s.params.xlen.bits)
    (hc : a ≤ c → c < a + n → s.NeverWritten c) : (s.forget a n).mem.read c = s.mem.read c := by
  refine Memory.read_forget_other s.mem s.history s.params.xlen a n s.freeCount c hw fun i hi e => ?_
  rw [Xlen.addrMod_of_lt _ _ (by omega)] at e
  exact hc (by omega) (by omega)

theorem HeapSound.draw {s : State} (h : HeapSound s) : HeapSound s.draw :=
  ⟨h.valid, h.wf, h.within, ⟨h.heap.1, h.heap.2, h.heap.3, h.heap.4, h.heap.5⟩, h.history, h.metadata⟩

/-- A sound heap rests on these fields alone. -/
theorem HeapSound.of_same {s u : State} (h : HeapSound s) (hp : u.params = s.params) (hm : u.mem = s.mem)
    (hb : u.blocks = s.blocks) (hh : u.hwm = s.hwm) (hn : u.numActiveBlocks = s.numActiveBlocks)
    (hy : u.history = s.history) : HeapSound u := by
  refine ⟨by rw [hp]; exact h.valid, by rw [hm]; exact h.wf, by rw [hp, hm]; exact h.within, ⟨?_, ?_, ?_, ?_, ?_⟩,
    by rw [hy]; exact h.history, fun a ha => ?_⟩
  · rw [hp, hb, hh]; exact h.heap.tiled
  · rw [hp, hh]; exact h.heap.low
  · rw [hp, hh]; exact h.heap.high
  · rw [hb]; exact h.heap.apart
  · rw [hn, hb]; exact h.heap.count
  · rw [hp, hh]
    exact h.metadata a (by rwa [State.MetadataByte, State.origin, hy] at ha)

/-- A program's or the host's bytes leave a sound heap. -/
theorem HeapSound.writeData {s : State} (h : HeapSound s) (a : Nat) (bs : List Byte) :
    HeapSound (s.writeData a bs) := by
  refine ⟨h.valid, Memory.wf_writeBytes _ _ _ _ h.wf, Memory.within_writeBytes _ _ _ _ h.within,
    ⟨h.heap.1, h.heap.2, h.heap.3, h.heap.4, h.heap.5⟩, History.wf_markRange _ _ _ _ _ h.history, fun c hc => ?_⟩
  obtain ⟨r1, r2⟩ := s.records_writeData a bs bs.length rfl
  by_cases hx : ∃ k, k < bs.length ∧ c = (a + k) % 2 ^ s.params.xlen.bits
  · obtain ⟨k, hk, rfl⟩ := hx
    rw [State.MetadataByte, r1 k hk] at hc; simp at hc
  · rw [State.MetadataByte, r2 c fun k hk e => hx ⟨k, hk, e⟩] at hc
    exact h.metadata c hc

/-- A copy makes no byte metadata. -/
theorem State.metadata_of_copy (s : State) (src dst n a : Nat) (h : (s.copyPayload src dst n).MetadataByte a) :
    s.MetadataByte a := by
  rw [State.MetadataByte, State.origin, State.copyPayload_history] at h
  by_cases hx : ∃ i, i < n ∧ a = s.params.xlen.addrMod (dst + i)
  · obtain ⟨i, hi, e⟩ := hx
    rw [History.origin_markRange_in _ _ dst n a .data i hi e] at h; simp at h
  · rwa [History.origin_markRange_other _ _ dst n a .data (fun i hi e => hx ⟨i, hi, e⟩)] at h

/-- The copy of R284 leaves a sound heap. -/
theorem HeapSound.copyPayload {s : State} (h : HeapSound s) (src dst n : Nat) : HeapSound (s.copyPayload src dst n) := by
  refine ⟨h.valid, Memory.wf_copyBytes _ _ _ _ _ h.wf, Memory.within_copyBytes _ _ _ _ _ h.within,
    ⟨h.heap.1, h.heap.2, h.heap.3, h.heap.4, h.heap.5⟩, History.wf_markRange _ _ _ _ _ h.history, fun a ha => ?_⟩
  exact h.metadata a (State.metadata_of_copy s src dst n a ha)

/-! ### Changes of the list keep the invariants -/

/-- The ends of a coalesced list split at a block. -/
theorem apart_split (before after : List Block) (b : Block) :
    (before ++ b :: after).IsChain Apart ↔
      before.IsChain Apart ∧ after.IsChain Apart ∧ (∀ p ∈ before.getLast?, Apart p b)
        ∧ (∀ n ∈ after.head?, Apart b n) := by
  rw [List.isChain_append, List.isChain_cons]
  constructor
  · rintro ⟨h1, ⟨h2, h3⟩, h4⟩
    exact ⟨h1, h3, fun p hp => h4 p hp b rfl, h2⟩
  · rintro ⟨h1, h2, h3, h4⟩
    refine ⟨h1, ⟨h4, h2⟩, fun p hp c hc => ?_⟩
    simp only [List.head?_cons, Option.mem_some_iff] at hc
    subst hc
    exact h3 p hp

/-- Beside an allocated block anything may stand. -/
theorem apart_of_allocated_right (p b : Block) (h : b.free = false) : Apart p b := by simp [Apart, h]

theorem apart_of_allocated_left (b n : Block) (h : b.free = false) : Apart b n := by simp [Apart, h]

/-- The neighbours of a free block are allocated. -/
theorem allocated_of_apart_left (b n : Block) (h : Apart b n) (hb : b.free = true) : n.free = false := by
  cases hn : n.free with
  | false => rfl
  | true => exact absurd ⟨hb, hn⟩ h

theorem allocated_of_apart_right (p b : Block) (h : Apart p b) (hb : b.free = true) : p.free = false := by
  cases hp : p.free with
  | false => rfl
  | true => exact absurd ⟨hp, hb⟩ h

end Sys2Proof.Machine
end

