-- ==== Sys2Proof/Laws/AllocatorOps.lean ====
section
/-! SUPPORT. What each allocator operation does, said once: the list, the high-water mark and the count it
leaves, the bytes it leaves alone, and that it leaves a sound heap. -/

namespace Sys2Proof.Machine

/-! ### Merging (R286) -/

theorem mergePrev_concat (hdr : Nat) (ps : List Block) (p b : Block) (rest : List Block) :
    mergePrev hdr (ps ++ [p]) (b :: rest)
      = if p.free then ps ++ { p with size := p.size + hdr + b.size } :: rest else ps ++ p :: b :: rest := by
  induction ps with
  | nil => simp [mergePrev]
  | cons q qs ih =>
    have : mergePrev hdr (q :: qs ++ [p]) (b :: rest) = q :: mergePrev hdr (qs ++ [p]) (b :: rest) := by
      cases qs <;> rfl
    rw [this, ih]
    split <;> rfl

theorem Found.capacity_eq (f : Found) (hdr : Nat) : f.capacity hdr = roomAt hdr f.block f.after := by
  obtain ⟨before, b, after⟩ := f
  cases after <;> rfl

theorem Found.beyond_eq (f : Found) : f.beyond = pastRoom f.after := by
  obtain ⟨before, b, after⟩ := f
  cases after <;> rfl

theorem mergeNext_eq (hdr : Nat) (b : Block) (after : List Block) :
    mergeNext hdr { b with free := true } after
      = { b with size := roomAt hdr b after, free := true } :: pastRoom after := by
  cases after with
  | nil => rfl
  | cons n rest =>
    by_cases hn : n.free = true
    · simp [mergeNext, roomAt, pastRoom, hn]
    · simp [mergeNext, roomAt, pastRoom, hn]

/-- Merging with the right neighbour and then the left one is the list claims speak of. -/
theorem merge_eq_freedList (hdr : Nat) (before after : List Block) (b : Block) :
    mergePrev hdr before (mergeNext hdr { b with free := true } after) = freedList hdr before b after := by
  rw [mergeNext_eq]
  rcases List.eq_nil_or_concat before with rfl | ⟨ps, p, rfl⟩
  · rfl
  · rw [List.concat_eq_append, mergePrev_concat, freedList]
    simp only [List.getLast?_append, List.getLast?_singleton, Option.some_or, List.dropLast_concat]
    split <;> simp

/-- The room of an allocated block in a coalesced list: what it covers and what lies past it. -/
theorem roomAt_spec (hdr : Nat) (b : Block) (after : List Block) (ha : after.IsChain Apart) :
    (∀ lo hi, tiles hdr (lo + hdr + b.size) after hi = true →
        tiles hdr (lo + hdr + roomAt hdr b after) (pastRoom after) hi = true)
      ∧ b.size ≤ roomAt hdr b after
      ∧ (∀ n ∈ (pastRoom after).head?, n.free = false) ∧ (pastRoom after).IsChain Apart
      ∧ after.countP (fun c => !c.free) = (pastRoom after).countP (fun c => !c.free)
      ∧ (∀ c ∈ pastRoom after, c ∈ after) ∧ (∀ c ∈ after, c.free = false → c ∈ pastRoom after) := by
  cases after with
  | nil => exact ⟨fun _ _ h => h, le_rfl, by simp [pastRoom], by simp [pastRoom], rfl, by simp [pastRoom], by simp⟩
  | cons n rest =>
    rw [List.isChain_cons] at ha
    by_cases hn : n.free = true
    · simp only [roomAt, pastRoom, hn, if_true]
      refine ⟨fun lo hi h => ?_, by omega, fun m hm => allocated_of_apart_left n m (ha.1 m hm) hn, ha.2,
        by simp [hn], fun c hc => List.mem_cons_of_mem _ hc, fun c hc hf => ?_⟩
      · rw [tiles_cons] at h
        rw [show lo + hdr + (b.size + hdr + n.size) = lo + hdr + b.size + hdr + n.size by omega]
        exact h.2
      · rcases List.mem_cons.mp hc with rfl | hc
        · rw [hn] at hf; simp at hf
        · exact hc
    · simp only [roomAt, pastRoom, if_neg hn]
      exact ⟨fun _ _ h => h, le_rfl, by simpa using hn, List.isChain_cons.mpr ha, trivial, fun c hc => hc,
        fun c hc _ => hc⟩

/-- How the list after a `free` looks: the blocks up to the free one, the free one, the blocks after it. -/
theorem freedList_shape (hdr : Nat) (before after : List Block) (b : Block)
    (hc : (before ++ b :: after).IsChain Apart) (hb : b.free = false) :
    ∃ left m right, freedList hdr before b after = left ++ m :: right ∧ m.free = true
      ∧ (∀ p ∈ left.getLast?, p.free = false) ∧ (∀ n ∈ right.head?, n.free = false)
      ∧ left.IsChain Apart ∧ right.IsChain Apart
      ∧ (∀ lo hi, tiles hdr lo (before ++ b :: after) hi = true → tiles hdr lo (left ++ m :: right) hi = true)
      ∧ (before ++ b :: after).countP (fun c => !c.free) = (left ++ right).countP (fun c => !c.free) + 1
      ∧ (∀ c ∈ left ++ right, c ∈ before ∨ c ∈ after)
      ∧ (∀ c ∈ before ++ after, c.free = false → c ∈ left ++ right)
      ∧ ((∀ c ∈ before, c.free = false) → left = before ∧ m.base = b.base ∧ b.size ≤ m.size) := by
  rw [apart_split] at hc
  obtain ⟨hl, hr, _, _⟩ := hc
  obtain ⟨htile, hsz, hhead, hchain, hcount, hsub, hsup⟩ := roomAt_spec hdr b after hr
  unfold freedList
  rcases List.eq_nil_or_concat before with rfl | ⟨ps, p, rfl⟩
  · refine ⟨[], { b with size := roomAt hdr b after, free := true }, pastRoom after, rfl, rfl, by simp, hhead,
      by simp, hchain, fun lo hi h => ?_, ?_, fun c hc => .inr (hsub c (by simpa using hc)),
      fun c hc hf => by simpa using hsup c (by simpa using hc) hf, fun _ => ⟨rfl, rfl, hsz⟩⟩
    · simp only [List.nil_append, tiles_cons] at h ⊢
      exact ⟨h.1, htile lo hi h.2⟩
    · simp [hb, hcount]
  · rw [List.concat_eq_append] at *
    simp only [List.getLast?_append, List.getLast?_singleton, Option.some_or, List.dropLast_concat]
    by_cases hp : p.free = true
    · rw [if_pos hp]
      rw [List.isChain_append] at hl
      refine ⟨ps, { p with size := p.size + hdr + roomAt hdr b after }, pastRoom after, rfl, hp,
        fun q hq => allocated_of_apart_right q p (hl.2.2 q hq p rfl) hp, hhead, hl.1, hchain, fun lo hi h => ?_,
        ?_, fun c hc => ?_, fun c hc hf => ?_, fun h => ?_⟩
      · rw [List.append_assoc, List.singleton_append, tiles_split, tiles_cons] at h
        rw [tiles_split]
        refine ⟨h.1, ?_⟩
        have := htile (p.base + hdr + p.size) hi h.2.2
        rwa [show p.base + hdr + p.size + hdr + roomAt hdr b after
          = p.base + hdr + (p.size + hdr + roomAt hdr b after) by omega] at this
      · simp [hb, hp, hcount]; omega
      · rcases List.mem_append.mp hc with hc | hc
        · exact .inl (by simp [hc])
        · exact .inr (hsub c hc)
      · rcases List.mem_append.mp hc with hc | hc
        · rcases List.mem_append.mp hc with hc | hc
          · exact List.mem_append_left _ hc
          · rw [List.mem_singleton] at hc; subst hc; rw [hp] at hf; simp at hf
        · exact List.mem_append_right _ (hsup c hc hf)
      · have := h p (by simp); rw [hp] at this; simp at this
    · rw [if_neg hp]
      have hp' : p.free = false := by simpa using hp
      refine ⟨ps ++ [p], { b with size := roomAt hdr b after, free := true }, pastRoom after, rfl, rfl,
        by simpa using hp', hhead, hl, hchain, fun lo hi h => ?_, ?_, fun c hc => ?_, fun c hc hf => ?_,
        fun _ => ⟨rfl, rfl, hsz⟩⟩
      · rw [tiles_split] at h ⊢
        exact ⟨h.1, htile b.base hi h.2⟩
      · simp [hb, hp', hcount]; omega
      · rcases List.mem_append.mp hc with hc | hc
        · exact .inl hc
        · exact .inr (hsub c hc)
      · rcases List.mem_append.mp hc with hc | hc
        · exact List.mem_append_left _ hc
        · exact List.mem_append_right _ (hsup c hc hf)

/-! ### Handing out a block (R277) -/

/-- What handing out a block `b` leaves before the headers take new bytes: the block in the list, every block that
was allocated before still in it and apart from `b`, the history, and the bytes, none of the payload's a header
byte before (R277, R278, U11). -/
structure Granted (s u : State) (b : Block) (zero reused : Bool) : Prop where
  sound : HeapSound u
  params : u.params = s.params
  count : u.numActiveBlocks = s.numActiveBlocks + 1
  hwm : s.hwm ≤ u.hwm
  listed : b ∈ u.blocks
  allocated : b.free = false
  keeps : ∀ c ∈ s.blocks, c.free = false → c ∈ u.blocks ∧ c.base ≠ b.base
  fresh : ∀ a, b.Has s.params.hdrSize a → ¬ s.HeaderByte a ∧ (reused = false → ¬ s.MetadataByte a)
  recorded : Recorded s u (fun a => zero = true ∧ b.Has s.params.hdrSize a)
  bytes : ∀ a, (b.Has s.params.hdrSize a → zero = false ∧ (reused = true → s.NeverWritten a)) →
    u.mem.read a = s.mem.read a
  zeroed : zero = true → ∀ a, b.Has s.params.hdrSize a → u.mem.read a = 0

/-- The list, mark and count after a block was handed out. -/
theorem State.grant_frame (s : State) (b : Block) (z r : Bool) :
    (s.grant b z r).params = s.params ∧ (s.grant b z r).blocks = s.blocks ∧ (s.grant b z r).hwm = s.hwm
      ∧ (s.grant b z r).numActiveBlocks = s.numActiveBlocks + 1 := by
  unfold State.grant
  dsimp only
  split
  · exact ⟨rfl, rfl, rfl, rfl⟩
  · split <;> exact ⟨rfl, rfl, rfl, rfl⟩

/-- Handing out a block of a new list that meets the invariants but for the count. -/
theorem State.grant_does (s t : State) (b : Block) (z r : Bool) (bs : List Block) (h : HeapSound s)
    (htp : t.params = s.params) (htb : t.blocks = bs) (htm : t.mem = s.mem) (hta : t.alwaysCalloc = s.alwaysCalloc)
    (htn : t.numActiveBlocks = s.numActiveBlocks) (hth : t.history = (s.relist bs).history) (hh : s.hwm ≤ t.hwm) (hlim : t.hwm ≤ s.params.heapLimit)
    (htile : tiles s.params.hdrSize s.params.heapBase bs t.hwm = true) (hapart : bs.IsChain Apart)
    (hcount : s.numActiveBlocks + 1 = bs.countP (fun c => !c.free)) (hb : b ∈ bs) (hf : b.free = false)
    (hkeep : ∀ c ∈ s.blocks, c.free = false → c ∈ bs ∧ c.base ≠ b.base)
    (hnew : ∀ a, b.Has s.params.hdrSize a → ¬ s.HeaderByte a ∧ (r = false → ¬ s.MetadataByte a)) :
    Granted s (t.grant b z r) b (z || s.alwaysCalloc) r := by
  have htop : t.hwm ≤ 2 ^ s.params.xlen.bits := hlim.trans (heapParams_of_valid s.params h.valid).2.1
  have hm := fun c (hc : c ∈ bs) => tiles_mem _ _ _ _ htile c hc
  have hrl := s.relist_recorded bs h.header_le (fun c hc => by have := (hm c hc).2; omega)
  have hrec : Recorded s t (fun _ => False) := hrl.of_eq hth htb htp
  have hwf : t.history.wf = true := by
    rw [hth]; exact History.wf_markHeaders _ _ _ _ (History.wf_markHeaders _ _ _ _ h.history)
  have hbm := hm b hb
  obtain ⟨g1, g2, g3, g4⟩ := t.grant_frame b z r
  have hinv : HeapInv (t.grant b z r) := by
    refine ⟨?_, ?_, ?_, ?_, ?_⟩
    · rw [g1, g2, g3, htp, htb]; exact htile
    · rw [g1, g3, htp]; exact h.heap.low.trans hh
    · rw [g1, g3, htp]; exact hlim
    · rw [g2, htb]; exact hapart
    · rw [g4, g2, htn, htb]; exact hcount
  have mk : ∀ W : Nat → Prop, (t.grant b z r).mem.wf = true → (t.grant b z r).mem.within s.params.xlen = true →
      (t.grant b z r).history.wf = true → Recorded s (t.grant b z r) W → HeapSound (t.grant b z r) :=
    fun W k1 k2 k3 k4 => h.of_recorded (by rw [g1, htp]) hinv (by rw [g3]; exact hh) k1 k2 k3 k4
  have hw := h.wf
  have hi := h.within
  rw [← htm] at hw hi
  have hlen : b.base + s.params.hdrSize + b.size ≤ 2 ^ t.params.xlen.bits := by rw [htp]; omega
  have hpay : b.payload t.params.hdrSize = b.base + s.params.hdrSize := by rw [htp]; rfl
  rw [← hta]
  by_cases hz : (z || t.alwaysCalloc) = true
  · have e : t.grant b z r = State.zeroPayload { t with numActiveBlocks := t.numActiveBlocks + 1 } b := by
      simp [State.grant, hz]
    have r1 : Recorded s (t.grant b z r) (fun a => (z || t.alwaysCalloc) = true ∧ b.Has s.params.hdrSize a) := by
      have k := hrec.writes (u := t.grant b z r) (by rw [g2]) (by rw [g1]) (b.base + s.params.hdrSize) b.size
        (by rw [e, ← hpay]; rfl) hlen
      intro a
      have := k a
      simp only [hz, true_and]
      exact this
    refine ⟨mk _ ?_ ?_ ?_ r1, by rw [g1, htp], by rw [g4, htn], by rw [g3]; exact hh, by rw [g2, htb]; exact hb, hf,
      fun c hc hcf => ?_, hnew, r1, fun a ha => ?_, fun _ a ha => ?_⟩
    · rw [e]; exact Memory.wf_writeBytes _ _ _ _ hw
    · rw [e]; exact Memory.within_writeBytes _ _ _ _ (by rw [← htp] at hi; exact hi) |> (by rw [← htp]; exact ·)
    · rw [e]; exact History.wf_markRange _ _ _ _ _ hwf
    · rw [g2, htb]; exact hkeep c hc hcf
    · rw [e]
      refine (State.read_zeroPayload_other { t with numActiveBlocks := t.numActiveBlocks + 1 } b a hw ?_ ?_).trans
        (congrArg (fun m : Memory => m.read a) htm)
      · simpa only [htp] using hlen
      · intro hx
        simp only [htp] at hx
        have := (ha hx).1
        rw [hz] at this; simp at this
    · rw [e]
      exact State.read_zeroPayload { t with numActiveBlocks := t.numActiveBlocks + 1 } b a hw
        (by simpa only [htp] using hlen) (by simpa only [htp] using ha)
  · have hz' : (z || t.alwaysCalloc) = false := by simpa using hz
    have r1 : ∀ u : State, u.history = t.history → u.blocks = t.blocks → u.params = t.params →
        Recorded s u (fun a => (z || t.alwaysCalloc) = true ∧ b.Has s.params.hdrSize a) := by
      intro u k1 k2 k3
      exact (hrec.of_eq k1 k2 k3).congr (fun _ _ => Iff.rfl) (fun a => by simp [hz'])
    cases r with
    | false =>
      have e : t.grant b z false = { t with numActiveBlocks := t.numActiveBlocks + 1 } := by
        simp [State.grant, hz']
      have r2 := r1 (t.grant b z false) (by rw [e]) g2 g1
      refine ⟨mk _ (by rw [e]; exact hw) (by rw [e]; exact hi) (by rw [e]; exact hwf) r2, by rw [g1, htp],
        by rw [g4, htn], by rw [g3]; exact hh, by rw [g2, htb]; exact hb, hf,
        fun c hc hcf => by rw [g2, htb]; exact hkeep c hc hcf, hnew, r2, fun a _ => ?_, fun k => by simp [hz'] at k⟩
      rw [e]; exact congrArg (fun m : Memory => m.read a) htm
    | true =>
      have e : t.grant b z true
          = State.forget { t with numActiveBlocks := t.numActiveBlocks + 1 } (b.base + s.params.hdrSize) b.size := by
        rw [← hpay]; simp [State.grant, hz']
      have r2 := r1 (t.grant b z true) (by rw [e]; rfl) g2 g1
      refine ⟨mk _ (by rw [e]; exact Memory.wf_forget _ _ _ _ _ _ hw)
        (by rw [e, ← htp]; exact Memory.within_forget _ _ _ _ _ _ (by rw [htp]; exact hi)) (by rw [e]; exact hwf) r2,
        by rw [g1, htp], by rw [g4, htn], by rw [g3]; exact hh, by rw [g2, htb]; exact hb, hf,
        fun c hc hcf => by rw [g2, htb]; exact hkeep c hc hcf, hnew, r2, fun a ha => ?_, fun k => by simp [hz'] at k⟩
      rw [e]
      refine (State.read_forget { t with numActiveBlocks := t.numActiveBlocks + 1 } _ _ a hw hlen
        fun k1 k2 => ?_).trans (congrArg (fun m : Memory => m.read a) htm)
      have hx : b.Has s.params.hdrSize a := ⟨k1, k2⟩
      have hn := (ha hx).2 rfl
      have hnt : ¬ t.HeaderByte a := by
        have := hinv.payload_not_header b (by rw [g2, htb]; exact hb) a (by rw [g1, htp]; exact hx)
        simpa [State.HeaderByte, g1, g2] using this
      exact (((hrec a).2 id).2 (fun k => k.elim (hnew a hx).1 hnt)).trans hn

/-- Once the headers have taken new bytes, a block is handed out as claims say (R274, R278). -/
theorem Granted.handsOut {s u : State} {b : Block} {z r : Bool} (h : Granted s u b z r) :
    HandsOut s (u.refresh keepNone) b z r := by
  have rd := fun a (ha : ¬ u.MetadataByte a) => u.read_refresh keepNone a h.sound.wf h.sound.history
    (fun k => absurd k ha)
  refine ⟨h.recorded, fun a ha hb => (rd a ha).trans (h.bytes a hb), fun hz a ha => ?_⟩
  rw [rd a, h.zeroed hz a ha]
  rw [State.MetadataByte, (h.recorded a).1 ⟨hz, ha⟩]
  simp

/-- The other allocated blocks keep their payload bytes through that (U2). -/
theorem Granted.keepsOtherBlocks {s u : State} {b : Block} {z r : Bool} (h : Granted s u b z r) (hs : HeapSound s)
    (base : Nat) : KeepsOtherBlocks s (u.refresh keepNone) base := by
  intro c hc hf _
  obtain ⟨k1, k2⟩ := h.keeps c hc hf
  refine ⟨k1, fun a ha hm => ?_⟩
  have hnu : ¬ u.HeaderByte a := h.sound.heap.payload_not_header c k1 a (by rw [h.params]; exact ha)
  have hns : ¬ s.HeaderByte a := hs.heap.payload_not_header c hc a ha
  rw [u.read_refresh keepNone a h.sound.wf h.sound.history
    (fun k => absurd k (h.recorded.not_metadata a hns hnu hm)), h.bytes a fun hb => ?_]
  have := h.sound.heap.apart_of_ne b c h.listed k1 k2
  rw [h.params] at this
  obtain ⟨hb1, hb2⟩ := hb
  obtain ⟨ha1, ha2⟩ := ha
  omega

/-! ### The block that is handed out -/

/-- Splitting a block keeps its extent (R277). -/
theorem carve_spec (hdr rs : Nat) (b : Block) (h : rs ≤ b.size) :
    (carve hdr rs b).1.free = false ∧ (carve hdr rs b).1.base = b.base ∧ rs ≤ (carve hdr rs b).1.size
      ∧ (carve hdr rs b).1.size ≤ b.size
      ∧ (∀ c ∈ (carve hdr rs b).2, c.free = true)
      ∧ (∀ lo hi after, tiles hdr lo (b :: after) hi = true →
          tiles hdr lo ((carve hdr rs b).1 :: ((carve hdr rs b).2 ++ after)) hi = true)
      ∧ ((carve hdr rs b).2 = [] ∨ ∃ c, (carve hdr rs b).2 = [c]) := by
  unfold carve
  split
  · next hs =>
    refine ⟨rfl, rfl, le_rfl, h, by simp, fun lo hi after ht => ?_, .inr ⟨_, rfl⟩⟩
    simp only [tiles_cons, List.singleton_append] at ht ⊢
    refine ⟨ht.1, by omega, ?_⟩
    rw [show lo + hdr + rs + hdr + (b.size - rs - hdr) = lo + hdr + b.size by omega]
    exact ht.2
  · refine ⟨rfl, rfl, h, le_rfl, by simp, fun lo hi after ht => ?_, .inl rfl⟩
    simpa [tiles_cons] using ht

/-- All that `alloc` can do (R277). -/
theorem State.alloc_cases (s : State) (n : Nat) (z : Bool) :
    (∃ before b after, s.blocks = before ++ b :: after ∧ b.free = true
        ∧ roundUp s.params.allocAlign n ≤ b.size
        ∧ (∀ c ∈ before, c.free = true → c.size < roundUp s.params.allocAlign n)
        ∧ s.alloc n z = some
            (State.grant (s.relist (before ++ (carve s.params.hdrSize (roundUp s.params.allocAlign n) b).1
                :: ((carve s.params.hdrSize (roundUp s.params.allocAlign n) b).2 ++ after)))
              (carve s.params.hdrSize (roundUp s.params.allocAlign n) b).1 z true,
             (carve s.params.hdrSize (roundUp s.params.allocAlign n) b).1))
      ∨ (s.NoFit (roundUp s.params.allocAlign n)
        ∧ s.hwm + s.params.hdrSize + roundUp s.params.allocAlign n ≤ s.params.heapLimit
        ∧ s.alloc n z = some
            (State.grant { s.relist (s.blocks ++ [⟨s.hwm, roundUp s.params.allocAlign n, false⟩]) with
                hwm := s.hwm + s.params.hdrSize + roundUp s.params.allocAlign n }
              ⟨s.hwm, roundUp s.params.allocAlign n, false⟩ z false,
             ⟨s.hwm, roundUp s.params.allocAlign n, false⟩))
      ∨ (s.NoFit (roundUp s.params.allocAlign n)
        ∧ s.params.heapLimit < s.hwm + s.params.hdrSize + roundUp s.params.allocAlign n
        ∧ s.alloc n z = none) := by
  unfold State.alloc
  dsimp only
  cases hf : findBlock (fun b => b.free && decide (roundUp s.params.allocAlign n ≤ b.size)) s.blocks with
  | some f =>
    obtain ⟨h1, h2, h3⟩ := findBlock_some _ _ _ hf
    simp only [Bool.and_eq_true, decide_eq_true_eq] at h2
    refine .inl ⟨f.before, f.block, f.after, h1, h2.1, h2.2, fun c hc hcf => ?_, rfl⟩
    have := h3 c hc
    simpa [hcf] using this
  | none =>
    have hn : s.NoFit (roundUp s.params.allocAlign n) := by
      intro b hb hbf
      have := findBlock_eq_none _ _ hf b hb
      simpa [hbf] using this
    by_cases hl : s.hwm + s.params.hdrSize + roundUp s.params.allocAlign n > s.params.heapLimit
    · exact .inr (.inr ⟨hn, hl, by simp [hl]⟩)
    · exact .inr (.inl ⟨hn, by omega, by simp [hl]⟩)

/-- With a first fitting free block, `alloc` hands that one out. -/
theorem State.alloc_first_fit (s : State) (n : Nat) (z : Bool) (before after : List Block) (b : Block)
    (hs : s.blocks = before ++ b :: after) (hb : b.free = true) (hr : roundUp s.params.allocAlign n ≤ b.size)
    (hbef : ∀ c ∈ before, c.free = true → c.size < roundUp s.params.allocAlign n) :
    s.alloc n z = some
      (State.grant (s.relist (before ++ (carve s.params.hdrSize (roundUp s.params.allocAlign n) b).1
          :: ((carve s.params.hdrSize (roundUp s.params.allocAlign n) b).2 ++ after)))
        (carve s.params.hdrSize (roundUp s.params.allocAlign n) b).1 z true,
       (carve s.params.hdrSize (roundUp s.params.allocAlign n) b).1) := by
  unfold State.alloc
  dsimp only
  rw [hs, findBlock_first _ before b after (by simp [hb, hr])]
  intro c hc
  cases hcf : c.free with
  | false => rfl
  | true => simp [hbef c hc hcf]

theorem State.noFit_test (s : State) (rs : Nat) (h : s.NoFit rs) :
    findBlock (fun b => b.free && decide (rs ≤ b.size)) s.blocks = none := by
  apply findBlock_none
  intro b hb
  cases hbf : b.free with
  | false => rfl
  | true => simp [h b hb hbf]

/-- The list in which a free block was carved keeps the invariants but for the count. -/
theorem HeapInv.carved (s : State) (h : HeapInv s) (before after : List Block) (b : Block) (rs : Nat)
    (hs : s.blocks = before ++ b :: after) (hb : b.free = true) (hr : rs ≤ b.size) :
    tiles s.params.hdrSize s.params.heapBase
        (before ++ (carve s.params.hdrSize rs b).1 :: ((carve s.params.hdrSize rs b).2 ++ after)) s.hwm = true
      ∧ (before ++ (carve s.params.hdrSize rs b).1 :: ((carve s.params.hdrSize rs b).2 ++ after)).IsChain Apart
      ∧ s.numActiveBlocks + 1 = (before ++ (carve s.params.hdrSize rs b).1
          :: ((carve s.params.hdrSize rs b).2 ++ after)).countP (fun c => !c.free) := by
  obtain ⟨c1, c2, c3, c4, c5, c6, c7⟩ := carve_spec s.params.hdrSize rs b hr
  have ht := h.tiled
  have ha := h.apart
  have hc := h.count
  rw [hs] at ht ha hc
  rw [tiles_append] at ht
  obtain ⟨mid, t1, t2⟩ := ht
  rw [apart_split] at ha
  obtain ⟨a1, a2, a3, a4⟩ := ha
  refine ⟨(tiles_append ..).mpr ⟨mid, t1, c6 _ _ _ t2⟩, ?_, ?_⟩
  · rw [apart_split]
    refine ⟨a1, ?_, fun p _ => apart_of_allocated_right p _ c1, fun n _ => apart_of_allocated_left _ n c1⟩
    rcases c7 with e | ⟨c, e⟩
    · rw [e]; exact a2
    · rw [e, List.singleton_append, List.isChain_cons]
      exact ⟨fun n hn => apart_of_allocated_right c n (allocated_of_apart_left b n (a4 n hn) hb), a2⟩
  · have h0 : (carve s.params.hdrSize rs b).2.countP (fun c => !c.free) = 0 := by
      rw [List.countP_eq_zero]; intro c hc; simp [c5 c hc]
    simp [hc, hb, c1, h0]; omega

/-- The list extended at the high-water mark keeps the invariants but for the count. -/
theorem HeapInv.extended (s : State) (h : HeapInv s) (rs : Nat) :
    tiles s.params.hdrSize s.params.heapBase (s.blocks ++ [({ base := s.hwm, size := rs, free := false } : Block)])
        (s.hwm + s.params.hdrSize + rs) = true
      ∧ (s.blocks ++ [({ base := s.hwm, size := rs, free := false } : Block)]).IsChain Apart
      ∧ s.numActiveBlocks + 1
        = (s.blocks ++ [({ base := s.hwm, size := rs, free := false } : Block)]).countP (fun c => !c.free) := by
  refine ⟨(tiles_append ..).mpr ⟨s.hwm, h.tiled, by simp [tiles]⟩, ?_, by simp [h.count]⟩
  rw [apart_split]
  exact ⟨h.apart, by simp, fun p _ => apart_of_allocated_right p _ rfl, by simp⟩

/-- A block carved out of a free block of the list is handed out as `Granted` says (R277). -/
theorem State.grant_carved (s : State) (h : HeapSound s) (before after : List Block) (b : Block) (rs : Nat) (z : Bool)
    (hs : s.blocks = before ++ b :: after) (hb : b.free = true) (hr : rs ≤ b.size) :
    Granted s (State.grant (s.relist (before ++ (carve s.params.hdrSize rs b).1
        :: ((carve s.params.hdrSize rs b).2 ++ after))) (carve s.params.hdrSize rs b).1 z true)
      (carve s.params.hdrSize rs b).1 (z || s.alwaysCalloc) true := by
  obtain ⟨c1, c2, c3, c4, -, -, -⟩ := carve_spec s.params.hdrSize rs b hr
  obtain ⟨k1, k2, k3⟩ := h.heap.carved s before after b rs hs hb hr
  have hbm : b ∈ s.blocks := by rw [hs]; simp
  refine s.grant_does _ _ z true _ h rfl rfl rfl rfl rfl rfl le_rfl h.heap.high k1 k2 k3 (by simp) c1 (fun c hc hf => ?_)
    fun a ⟨a1, a2⟩ => ⟨h.heap.payload_not_header b hbm a ⟨by omega, by omega⟩, by simp⟩
  have hcs := hc
  rw [hs] at hc
  refine ⟨?_, ?_⟩
  · rcases List.mem_append.mp hc with hc | hc
    · exact List.mem_append_left _ hc
    · rcases List.mem_cons.mp hc with rfl | hc
      · rw [hb] at hf; simp at hf
      · exact List.mem_append_right _ (List.mem_cons_of_mem _ (List.mem_append_right _ hc))
  · rw [c2]
    have hp := (heapParams_of_valid s.params h.valid).2.2.2.1
    have ht := h.heap.tiled
    rw [hs, tiles_split] at ht
    rcases List.mem_append.mp hc with hc | hc
    · have := (tiles_mem _ _ _ _ ht.1 c hc).2; omega
    · rcases List.mem_cons.mp hc with rfl | hc
      · rw [hb] at hf; simp at hf
      · have := (tiles_mem _ _ _ _ ht.2 c hc).1; omega

/-- A block carved at the high-water mark is handed out as `Granted` says (R277). -/
theorem State.grant_extended (s : State) (h : HeapSound s) (rs : Nat) (z : Bool)
    (hl : s.hwm + s.params.hdrSize + rs ≤ s.params.heapLimit) :
    Granted s (State.grant { s.relist (s.blocks ++ [⟨s.hwm, rs, false⟩]) with
        hwm := s.hwm + s.params.hdrSize + rs } ⟨s.hwm, rs, false⟩ z false)
      ⟨s.hwm, rs, false⟩ (z || s.alwaysCalloc) false := by
  obtain ⟨k1, k2, k3⟩ := h.heap.extended s rs
  have hp := (heapParams_of_valid s.params h.valid).2.2.2.1
  refine s.grant_does _ _ z false _ h rfl rfl rfl rfl rfl rfl ?_ hl k1 k2 k3 (List.mem_append_right _ (by simp)) rfl
    (fun c hc _ => ⟨List.mem_append_left _ hc, ?_⟩) fun a ha => ?_
  · show s.hwm ≤ s.hwm + s.params.hdrSize + rs
    omega
  · have := (tiles_mem _ _ _ _ h.heap.tiled c hc).2
    show c.base ≠ s.hwm
    omega
  · have ha' : s.hwm ≤ a := Nat.le_trans (Nat.le_add_right ..) ha.1
    exact ⟨h.heap.not_headerByte a (.inr ha'), fun _ hm => absurd (h.metadata a hm).2 (by omega)⟩

/-- What `alloc` answers: out of space, or a large enough block handed out. -/
theorem State.alloc_does (s : State) (h : HeapSound s) (n : Nat) (z : Bool) :
    s.alloc n z = none ∨ ∃ u b r, s.alloc n z = some (u, b) ∧ roundUp s.params.allocAlign n ≤ b.size
      ∧ Granted s u b (z || s.alwaysCalloc) r := by
  rcases s.alloc_cases n z with ⟨before, b, after, hs, hb, hr, _, e⟩ | ⟨_, hl, e⟩ | ⟨_, _, e⟩
  · exact .inr ⟨_, _, _, e, (carve_spec s.params.hdrSize _ b hr).2.2.1, s.grant_carved h before after b _ z hs hb hr⟩
  · exact .inr ⟨_, _, _, e, le_rfl, s.grant_extended h _ z hl⟩
  · exact .inl e

theorem State.allocate_none (s : State) (n : Nat) (z : Bool) (h : s.alloc n z = none) : s.allocate n z = (s, 0) := by
  unfold State.allocate; rw [h]

theorem State.allocate_some (s u : State) (b : Block) (n : Nat) (z : Bool) (h : s.alloc n z = some (u, b)) :
    s.allocate n z = (u.refresh keepNone, b.base + s.params.hdrSize) := by
  unfold State.allocate; rw [h]; rfl

/-- A zero-size request that answers NULL changes metadata bytes at most (U2, U9). -/
theorem State.answerNull_does (s : State) (h : HeapSound s) : SameButMetadata s s.answerNull.1 :=
  ⟨rfl, fun a ha => s.draw.read_refresh keepNone a h.wf h.history fun hm => absurd hm ha⟩

/-! ### Allocating reads and writes no register -/

theorem State.grant_regs (s : State) (R : Vector Word 31) (b : Block) (z r : Bool) :
    State.grant { s with regs := R } b z r = { s.grant b z r with regs := R } := by
  unfold State.grant
  dsimp only
  by_cases h : (z || s.alwaysCalloc) = true
  · rw [if_pos h, if_pos h]; rfl
  · rw [if_neg h, if_neg h]; cases r <;> rfl

theorem State.alloc_regs (s : State) (R : Vector Word 31) (n : Nat) (z : Bool) :
    State.alloc { s with regs := R } n z = (s.alloc n z).map (fun r => ({ r.1 with regs := R }, r.2)) := by
  unfold State.alloc
  dsimp only
  cases findBlock (fun b => b.free && decide (roundUp s.params.allocAlign n ≤ b.size)) s.blocks with
  | some f => exact congrArg (fun u => some (u, _)) (State.grant_regs (s.relist _) R _ z true)
  | none =>
    dsimp only
    split
    · rfl
    · exact congrArg (fun u => some (u, _)) (State.grant_regs { s.relist _ with hwm := _ } R _ z false)

theorem State.allocate_regs (s : State) (R : Vector Word 31) (n : Nat) (z : Bool) :
    State.allocate { s with regs := R } n z = ({ (s.allocate n z).1 with regs := R }, (s.allocate n z).2) := by
  unfold State.allocate
  rw [State.alloc_regs]
  cases s.alloc n z <;> rfl

theorem State.request_regs (s : State) (R : Vector Word 31) (n : Nat) (z : Bool) :
    State.request { s with regs := R } n z = ({ (s.request n z).1 with regs := R }, (s.request n z).2) := by
  unfold State.request
  split
  · dsimp only
    split
    · rfl
    · exact State.allocate_regs s.draw R n z
  · exact State.allocate_regs s R n z

/-! ### Freeing (R286) -/

theorem State.release_blocks (s : State) (before after : List Block) (b : Block) :
    (s.release ⟨before, b, after⟩).blocks = freedList s.params.hdrSize before b after := merge_eq_freedList ..

/-- What `free` does before the headers take new bytes: a sound heap, the headers of both lists recorded, every
other allocated block still in the list. -/
theorem State.release_does (s : State) (h : HeapSound s) (before after : List Block) (b : Block)
    (hs : s.blocks = before ++ b :: after) (hb : b.free = false) :
    HeapSound (s.release ⟨before, b, after⟩) ∧ Recorded s (s.release ⟨before, b, after⟩) (fun _ => False)
      ∧ (s.release ⟨before, b, after⟩).numActiveBlocks + 1 = s.numActiveBlocks
      ∧ (∀ c ∈ s.blocks, c.free = false → c.base ≠ b.base → c ∈ (s.release ⟨before, b, after⟩).blocks)
      ∧ ∀ c ∈ (s.release ⟨before, b, after⟩).blocks, c.free = false → c ∈ before ∨ c ∈ after := by
  have ht := h.heap.tiled
  have ha := h.heap.apart
  have hc := h.heap.count
  rw [hs] at ht ha hc
  obtain ⟨left, m, right, e, hm, hl, hr, cl, cr, tl, cnt, sub, sup, _⟩ :=
    freedList_shape s.params.hdrSize before after b ha hb
  have hblk := s.release_blocks before after b
  have htile : tiles s.params.hdrSize s.params.heapBase (s.release ⟨before, b, after⟩).blocks s.hwm = true := by
    rw [hblk, e]; exact tl _ _ ht
  have hinv : HeapInv (s.release ⟨before, b, after⟩) := by
    refine ⟨htile, h.heap.low, h.heap.high, ?_, ?_⟩
    · rw [hblk, e, apart_split]
      exact ⟨cl, cr, fun p hp => apart_of_allocated_left p m (hl p hp),
        fun n hn => apart_of_allocated_right m n (hr n hn)⟩
    · rw [hblk, e]
      show s.numActiveBlocks - 1 = _
      rw [hc, cnt]
      simp [hm]
  have hrec : Recorded s (s.release ⟨before, b, after⟩) (fun _ => False) :=
    s.relist_recorded _ h.header_le (fun c hc => by
      have := tiles_mem _ _ _ _ htile c hc
      have := h.hwm_le
      omega)
  refine ⟨h.of_recorded rfl hinv le_rfl h.wf h.within
    (History.wf_markHeaders _ _ _ _ (History.wf_markHeaders _ _ _ _ h.history)) hrec, hrec, ?_, ?_, ?_⟩
  · show s.numActiveBlocks - 1 + 1 = s.numActiveBlocks
    have : s.numActiveBlocks ≠ 0 := by rw [hc, cnt]; omega
    omega
  · intro c hc hf hne
    rw [hblk, e]
    rw [hs] at hc
    have : c ∈ left ++ right := sup c (by
      rcases List.mem_append.mp hc with hc | hc
      · exact List.mem_append_left _ hc
      · rcases List.mem_cons.mp hc with rfl | hc
        · exact absurd rfl hne
        · exact List.mem_append_right _ hc) hf
    rcases List.mem_append.mp this with k | k
    · exact List.mem_append_left _ k
    · exact List.mem_append_right _ (List.mem_cons_of_mem _ k)
  · intro c hc hf
    rw [hblk, e] at hc
    refine sub c ?_
    rcases List.mem_append.mp hc with k | k
    · exact List.mem_append_left _ k
    · rcases List.mem_cons.mp k with rfl | k
      · rw [hm] at hf; simp at hf
      · exact List.mem_append_right _ k

/-- `free` leaves every byte that is not metadata alone (R274, U2). -/
theorem State.read_freeBlock (s : State) (h : HeapSound s) (before after : List Block) (b : Block)
    (hs : s.blocks = before ++ b :: after) (hb : b.free = false) (a : Nat)
    (ha : ¬ (s.freeBlock ⟨before, b, after⟩).MetadataByte a) :
    (s.freeBlock ⟨before, b, after⟩).mem.read a = s.mem.read a :=
  have k := (s.release_does h before after b hs hb).1
  State.read_refresh _ keepNone a k.wf k.history (fun hm => absurd hm ha)

/-! ### Resizing in place (R282) -/

/-- How much an in-place `realloc` keeps: at least the rounded request, all the capacity, or so much that a
free block takes the rest (U10). -/
theorem State.keptSize_spec (s : State) (f : Found) (rs : Nat) (hcap : rs ≤ roomAt s.params.hdrSize f.block f.after)
    (hp : 0 < s.params.hdrSize) :
    rs ≤ s.keptSize f rs ∧
      ((s.keptSize f rs = roomAt s.params.hdrSize f.block f.after
          ∧ f.excess s.params.hdrSize (s.keptSize f rs) = [])
        ∨ (s.keptSize f rs + s.params.hdrSize ≤ roomAt s.params.hdrSize f.block f.after
          ∧ f.excess s.params.hdrSize (s.keptSize f rs) =
            [{ base := f.block.base + s.params.hdrSize + s.keptSize f rs
               size := roomAt s.params.hdrSize f.block f.after - s.keptSize f rs - s.params.hdrSize
               free := true }])) := by
  unfold State.keptSize
  dsimp only
  rw [Found.capacity_eq]
  split
  · next hk => exact ⟨by omega, .inr ⟨hk, by simp [Found.excess, Found.capacity_eq, hk]⟩⟩
  · exact ⟨hcap, .inl ⟨rfl, by simp [Found.excess, Found.capacity_eq]; omega⟩⟩

/-- The list that an in-place `realloc` leaves. -/
theorem State.resizeInPlace_blocks (s : State) (f : Found) (n : Nat) :
    (s.resizeInPlace f n).blocks = f.before
      ++ { f.block with size := s.keptSize f (roundUp s.params.allocAlign n) }
        :: (f.excess s.params.hdrSize (s.keptSize f (roundUp s.params.allocAlign n)) ++ pastRoom f.after) := by
  rw [← Found.beyond_eq]; rfl

/-- What an in-place `realloc` does: a sound heap, the headers of both lists recorded, the other allocated blocks
still in the list, the first bytes of the block kept, and every byte that is neither metadata nor in a grown tail
written since reset (R282, U10, U12). -/
theorem State.resizeInPlace_does (s : State) (h : HeapSound s) (f : Found) (n : Nat)
    (hs : s.blocks = f.before ++ f.block :: f.after) (hb : f.block.free = false)
    (hcap : roundUp s.params.allocAlign n ≤ roomAt s.params.hdrSize f.block f.after) :
    HeapSound (s.resizeInPlace f n) ∧ Recorded s (s.resizeInPlace f n) (fun _ => False)
      ∧ (∀ c ∈ s.blocks, c.free = false → c.base ≠ f.block.base → c ∈ (s.resizeInPlace f n).blocks)
      ∧ (∀ k, k < min f.block.size n → (s.resizeInPlace f n).mem.read (f.block.base + s.params.hdrSize + k)
          = s.mem.read (f.block.base + s.params.hdrSize + k))
      ∧ ∀ a, ¬ (s.resizeInPlace f n).MetadataByte a →
          (f.block.base + s.params.hdrSize + f.block.size ≤ a →
            a < f.block.base + s.params.hdrSize + s.keptSize f (roundUp s.params.allocAlign n) → s.NeverWritten a) →
          (s.resizeInPlace f n).mem.read a = s.mem.read a := by
  have hp := (heapParams_of_valid s.params h.valid).2.2.2.1
  have htop := h.hwm_le
  have ht := h.heap.tiled
  have ha := h.heap.apart
  have hc := h.heap.count
  rw [hs] at ht ha hc
  obtain ⟨k1, k3⟩ := s.keptSize_spec f _ hcap hp
  have k2 := s.resizeInPlace_blocks f n
  rw [tiles_split] at ht
  rw [apart_split] at ha
  obtain ⟨b1, _, b2, b3, b4, _, b6⟩ := roomAt_spec s.params.hdrSize f.block f.after ha.2.1
  have t3 := b1 _ _ ht.2
  have hinv : HeapInv (s.resizeInPlace f n) := by
    refine ⟨?_, h.heap.low, h.heap.high, ?_, ?_⟩
    · rw [k2]
      show tiles s.params.hdrSize s.params.heapBase _ s.hwm = true
      rw [tiles_split]
      refine ⟨ht.1, ?_⟩
      dsimp only
      rcases k3 with ⟨e1, e2⟩ | ⟨hk, e2⟩
      · rw [e2, e1]; exact t3
      · rw [e2, List.singleton_append, tiles_cons]
        refine ⟨rfl, ?_⟩
        dsimp only
        rw [show f.block.base + s.params.hdrSize + s.keptSize f (roundUp s.params.allocAlign n) + s.params.hdrSize
            + (roomAt s.params.hdrSize f.block f.after - s.keptSize f (roundUp s.params.allocAlign n)
              - s.params.hdrSize)
          = f.block.base + s.params.hdrSize + roomAt s.params.hdrSize f.block f.after by omega]
        exact t3
    · rw [k2, apart_split]
      refine ⟨ha.1, ?_, fun p _ => apart_of_allocated_right p _ hb, fun n _ => apart_of_allocated_left _ n hb⟩
      rcases k3 with ⟨e1, e2⟩ | ⟨hk, e2⟩
      · rw [e2]; exact b3
      · rw [e2, List.singleton_append, List.isChain_cons]
        exact ⟨fun n hn => apart_of_allocated_right _ n (b2 n hn), b3⟩
    · rw [k2]
      show s.numActiveBlocks = _
      rw [hc]
      rcases k3 with ⟨e1, e2⟩ | ⟨hk, e2⟩ <;> rw [e2] <;> simp [hb, b4]
  -- the state after the change of the list alone
  have hblk : ∀ c ∈ (s.resizeInPlace f n).blocks, c.base + s.params.hdrSize + c.size ≤ s.hwm :=
    fun c hc => (tiles_mem _ _ _ _ hinv.tiled c hc).2
  have hrec : Recorded s (s.resizeInPlace f n) (fun _ => False) :=
    s.draw.relist_recorded (s.resizeInPlace f n).blocks h.header_le (fun c hc => by
      have := hblk c hc
      show c.base + s.params.hdrSize ≤ 2 ^ s.params.xlen.bits
      omega)
  have hwfh : (s.resizeInPlace f n).history.wf = true :=
    History.wf_markHeaders _ _ _ _ (History.wf_markHeaders _ _ _ _ h.history)
  have hmid : HeapSound (s.draw.relist (s.resizeInPlace f n).blocks) :=
    h.of_recorded rfl ⟨hinv.1, hinv.2, hinv.3, hinv.4, hinv.5⟩ le_rfl h.wf h.within hwfh hrec
  have hforget := hmid.forget (f.block.base + s.params.hdrSize + f.block.size)
    (s.keptSize f (roundUp s.params.allocAlign n) - f.block.size)
  have hme : f.block.base + s.params.hdrSize + s.keptSize f (roundUp s.params.allocAlign n) ≤ s.hwm := by
    have := hblk { f.block with size := s.keptSize f (roundUp s.params.allocAlign n) } (by rw [k2]; simp)
    exact this
  have hold : f.block.base + s.params.hdrSize + f.block.size ≤ s.hwm :=
    (tiles_mem _ _ _ _ h.heap.tiled f.block (by rw [hs]; simp)).2
  -- bytes
  have rd : ∀ a, ((s.resizeInPlace f n).MetadataByte a → f.block.base + s.params.hdrSize ≤ a
        ∧ a < f.block.base + s.params.hdrSize + min f.block.size n) →
      (f.block.base + s.params.hdrSize + f.block.size ≤ a →
        a < f.block.base + s.params.hdrSize + s.keptSize f (roundUp s.params.allocAlign n) →
        (s.resizeInPlace f n).NeverWritten a) →
      (s.resizeInPlace f n).mem.read a = s.mem.read a := by
    intro a h1 h2
    refine (State.read_refresh _ _ a hforget.wf hforget.history fun hm => ?_).trans
      (State.read_forget (s.draw.relist (s.resizeInPlace f n).blocks) _ _ a hmid.wf ?_ fun h3 h4 => h2 h3 (by omega))
    · exact Bool.and_eq_true_iff.mpr ⟨decide_eq_true (h1 hm).1, decide_eq_true (h1 hm).2⟩
    · show _ ≤ 2 ^ s.params.xlen.bits
      omega
  refine ⟨hforget.refresh _, hrec, fun c hc hf hne => ?_, fun k hk => rd _ (fun _ => by omega) (fun h3 => by omega),
    fun a hm hn => rd a (fun k => absurd k hm) fun h3 h4 => ?_⟩
  · rw [k2]
    rw [hs] at hc
    rcases List.mem_append.mp hc with hc | hc
    · exact List.mem_append_left _ hc
    · rcases List.mem_cons.mp hc with rfl | hc
      · exact absurd rfl hne
      · exact List.mem_append_right _ (List.mem_cons_of_mem _ (List.mem_append_right _ (b6 c hc hf)))
  · have k := (hrec a).2 id
    by_cases hx : s.HeaderByte a ∨ (s.resizeInPlace f n).HeaderByte a
    · exact absurd (k.1 hx) hm
    · exact (k.2 hx).trans (hn h3 h4)

/-! ### Looking up a pointer (R276, R296) -/

/-- In a tiled list the block with a given payload address is the one found. -/
theorem State.lookup_of_split (s : State) (h : HeapInv s) (before after : List Block) (b : Block)
    (hs : s.blocks = before ++ b :: after) (hb : b.free = false) (hp : 0 < s.params.hdrSize) :
    s.lookup (b.base + s.params.hdrSize) = some ⟨before, b, after⟩ := by
  have ht := h.tiled
  rw [hs, tiles_split] at ht
  unfold State.lookup
  rw [hs]
  apply findBlock_first
  · simp [Block.payload, hb]
  · intro c hc
    have := tiles_mem _ _ _ _ ht.1 c hc
    simp only [Block.payload, Bool.and_eq_false_iff]
    left
    simp; omega

theorem State.lookup_some (s : State) (a : Nat) (f : Found) (h : s.lookup a = some f) :
    s.blocks = f.before ++ f.block :: f.after ∧ f.block.free = false
      ∧ f.block.base + s.params.hdrSize = a := by
  obtain ⟨h1, h2, _⟩ := findBlock_some _ _ _ h
  simp only [Block.payload, Bool.and_eq_true, beq_iff_eq, Bool.not_eq_true'] at h2
  exact ⟨h1, h2.2, h2.1⟩

theorem State.lookup_none (s : State) (a : Nat)
    (h : ∀ b ∈ s.blocks, b.free = false → b.base + s.params.hdrSize ≠ a) : s.lookup a = none := by
  apply findBlock_none
  intro b hb
  cases hf : b.free with
  | true => simp
  | false => simpa [Block.payload] using h b hb hf

/-! ### The `ECALL` that drives the service (R252, R254) -/

/-- The operation a selector names. -/
theorem ofSelector_eq (v : Word) (op : AllocOp) (n : Nat) (hv : v.toNat = n) (hn : n < 2 ^ 64)
    (h : AllocOp.ofSelector (BitVec.ofNat 64 n) = some op) : AllocOp.ofSelector v = some op := by
  have : v = BitVec.ofNat 64 n := by
    apply BitVec.eq_of_toNat_eq
    rw [BitVec.toNat_ofNat, Nat.mod_eq_of_lt hn, hv]
  rw [this, h]

/-- A selector outside 1 to 5 names none. -/
theorem ofSelector_none (v : Word) (h : v.toNat = 0 ∨ 5 < v.toNat) : AllocOp.ofSelector v = none := by
  unfold AllocOp.ofSelector
  repeat' split
  all_goals first | rfl | (subst_vars; simp at h)

/-- An `ECALL` that is an allocator call. -/
theorem execEcall_of_call (s : State) (op : AllocOp) (hs : s.params.hasAllocService = true)
    (hm : s.x 10 = s.params.allocMarker) (he : s.x 10 ≠ s.params.exitA0)
    (ho : AllocOp.ofSelector (s.x 16) = some op) : execEcall s = allocatorCall op s := by
  unfold execEcall
  rw [if_neg he, hs, hm]
  simp [ho]

theorem State.metadataMisaligned_false (s : State)
    (h : s.alignedAddresses = false ∨
      (s.params.heapBase % (s.params.xlen.bits / 8) = 0 ∧ s.params.hdrSize % (s.params.xlen.bits / 8) = 0
        ∧ s.params.allocAlign % (s.params.xlen.bits / 8) = 0)) : s.metadataMisaligned = false := by
  unfold State.metadataMisaligned
  rcases h with h | ⟨h1, h2, h3⟩
  · simp [h]
  · simp [h1, h2, h3]

/-- An allocator call that nothing holds back runs the operation. -/
theorem State.AllocCall.runs {s : State} {sel : Nat} (h : s.AllocCall sel) (op : AllocOp)
    (ho : AllocOp.ofSelector (BitVec.ofNat 64 sel) = some op) (p : Pointer) (hp : s.pointerArg op = p)
    (hv : p ≠ .invalid) : exec .ecall s = runService op p s := by
  obtain ⟨h1, h2, h3, h4, h5, h6, h7⟩ := h
  have hsel : sel < 2 ^ 64 := by rw [← h4]; exact (s.x 16).isLt
  show execEcall s = _
  rw [execEcall_of_call s op h1 h2 h3 (ofSelector_eq _ op sel h4 hsel ho)]
  unfold allocatorCall
  rw [h5, hp, s.metadataMisaligned_false h7]
  cases p <;> simp at hv ⊢

/-- What a value returned in `a0` leaves: the operation's state with `a0`, `pc` and `cycles` written. -/
theorem returnA0_returns (s : State) (r : State × Nat) (v : Nat) (hk : ServiceKept s r.1) (hf : s.notFull)
    (he : exec .ecall s = returnA0 s r) (hv : r.2 % 2 ^ s.params.xlen.bits = v) :
    ∃ t, CallReturns s t v ∧ t.mem = r.1.mem ∧ t.blocks = r.1.blocks ∧ t.hwm = r.1.hwm
      ∧ t.numActiveBlocks = r.1.numActiveBlocks ∧ t.freeCount = r.1.freeCount ∧ t.params = s.params
      ∧ t.history = r.1.history := by
  have hf' : (r.1.setX 10 (s.params.xlen.narrow (BitVec.ofNat 64 r.2))).notFull := by
    simpa [State.notFull, hk.cycles] using hf
  refine ⟨(r.1.setX 10 (s.params.xlen.narrow (BitVec.ofNat 64 r.2))).advance s.seqPc, ⟨?_, ?_, ?_, ?_, ?_, ?_⟩,
    by simp, by simp, by simp, by simp, by simp, by simp [hk.params], by simp⟩
  · rw [he, returnA0, complete_of_notFull _ _ hf']
  · rw [State.advance_x, State.x_setX_same _ _ _ (by decide), Xlen.toNat_narrow, BitVec.toNat_ofNat,
      Nat.mod_mod_of_dvd _ (Nat.pow_dvd_pow 2 s.params.xlen.bits_le), hv]
  · intro q hq
    rw [State.advance_x, State.x_setX_other _ _ _ _ hq]
    exact s.x_of_regs_eq r.1 hk.regs q
  · refine ⟨s.toNat_seqPc, ?_⟩
    rw [State.advance_cycles_toNat _ _ hf']
    simp [hk.cycles]
  · simp [hk.headersTouched]
  · simp [SameControl, hk.params, hk.runState, hk.err, hk.alignedAddresses, hk.alwaysCalloc, hk.requests, hk.replies]

/-- `free` returns nothing: `a0` keeps the marker (R254). -/
theorem free_returns (s u : State) (hk : ServiceKept s u) (hf : s.notFull)
    (he : exec .ecall s = complete s.seqPc u) : ∃ t, CallReturns s t (s.x 10).toNat ∧ t.mem = u.mem
      ∧ t.blocks = u.blocks ∧ t.hwm = u.hwm ∧ t.numActiveBlocks = u.numActiveBlocks ∧ t.params = s.params
      ∧ t.history = u.history := by
  have hf' : u.notFull := by simpa [State.notFull, hk.cycles] using hf
  have hx := s.x_of_regs_eq u hk.regs
  refine ⟨u.advance s.seqPc, ⟨by rw [he, complete_of_notFull _ _ hf'], by rw [State.advance_x, hx],
    fun q _ => by rw [State.advance_x, hx], ⟨s.toNat_seqPc, ?_⟩, by simp [hk.headersTouched], ?_⟩,
    rfl, rfl, rfl, rfl, by simp [hk.params], rfl⟩
  · rw [State.advance_cycles_toNat _ _ hf', hk.cycles]
  · simp [SameControl, hk.params, hk.runState, hk.err, hk.alignedAddresses, hk.alwaysCalloc, hk.requests, hk.replies]

end Sys2Proof.Machine
end

