-- ==== Sys2Proof/Laws/Alu.lean ====
section
/-! SUPPORT. The integer functions, comparisons, immediates and addresses in numbers (R7, R8, R190 to R192,
R220), and what completing with a register write, with none, or with stored bytes leaves. -/

namespace Sys2Proof.Machine

/-! ### Values -/

/-- An integer modulo `2^XLEN`, as the vector it is (R7). -/
theorem wrap_eq_ofInt (x : Xlen) (z : Int) : wrap x z = (BitVec.ofInt x.bits z).toNat := by
  rw [BitVec.toNat_ofInt]; rfl

theorem wrap_toInt (x : Xlen) (v : BitVec x.bits) : wrap x v.toInt = v.toNat := by
  rw [wrap_eq_ofInt, BitVec.ofInt_toInt]

theorem wrap_lt (x : Xlen) (z : Int) : wrap x z < 2 ^ x.bits := by
  rw [wrap_eq_ofInt]; exact BitVec.isLt _

theorem wrap_natCast (x : Xlen) (n : Nat) : wrap x (n : Int) = n % 2 ^ x.bits := by
  unfold wrap; norm_cast

/-- The low `XLEN` bits, read unsigned and signed (R7). -/
theorem toNat_low (x : Xlen) (v : Word) : (v.setWidth x.bits).toNat = unsignedValue x v :=
  BitVec.toNat_setWidth ..

theorem toInt_low (x : Xlen) (v : Word) : (v.setWidth x.bits).toInt = signedValue x v := by
  rw [BitVec.toInt_setWidth]; rfl

/-- A sign-extended field keeps its value (R8). -/
theorem toInt_sext_low (x : Xlen) {n : Nat} (v : BitVec n) (h : n ≤ x.bits) :
    ((x.sext v).setWidth x.bits).toInt = v.toInt := by
  have : (x.sext v).setWidth x.bits = v.signExtend x.bits := by
    apply BitVec.eq_of_toNat_eq
    rw [BitVec.toNat_setWidth, x.toNat_sext, Nat.mod_eq_of_lt (BitVec.isLt _)]
  rw [this, BitVec.toInt_signExtend_of_le h]

theorem toNat_sext_low (x : Xlen) {n : Nat} (v : BitVec n) :
    ((x.sext v).setWidth x.bits).toNat = wrap x v.toInt := by
  rw [BitVec.toNat_setWidth, Nat.mod_eq_of_lt (x.sext_lt v), x.toNat_sext_eq]; rfl

theorem toNat_sext_wrap (x : Xlen) {n : Nat} (v : BitVec n) : (x.sext v).toNat = wrap x v.toInt :=
  x.toNat_sext_eq v

theorem twelve_le_bits (x : Xlen) : 12 ≤ x.bits := by cases x <;> decide

/-! ### The integer functions (R190 to R192) -/

theorem toNat_lift_add (x : Xlen) (a b : Word) :
    (x.lift2 aluAdd a b).toNat = wrap x ((a.setWidth x.bits).toInt + (b.setWidth x.bits).toInt) := by
  rw [x.toNat_lift2, wrap_eq_ofInt, BitVec.ofInt_add, BitVec.ofInt_toInt, BitVec.ofInt_toInt]; rfl

theorem toNat_lift_sub (x : Xlen) (a b : Word) :
    (x.lift2 aluSub a b).toNat = wrap x ((a.setWidth x.bits).toInt - (b.setWidth x.bits).toInt) := by
  rw [x.toNat_lift2, ← wrap_toInt, aluSub, BitVec.toInt_sub]
  simp only [wrap, Int.bmod_emod]

theorem toNat_boolValue (x : Xlen) (c : Bool) : (boolValue x.bits c).toNat = if c then 1 else 0 := by
  cases x <;> cases c <;> rfl

theorem toNat_lift_slt (x : Xlen) (a b : Word) :
    (x.lift2 aluSlt a b).toNat
      = if (a.setWidth x.bits).toInt < (b.setWidth x.bits).toInt then 1 else 0 := by
  rw [x.toNat_lift2, aluSlt, toNat_boolValue]
  simp [cmpLtS, BitVec.slt]

theorem toNat_lift_sltu (x : Xlen) (a b : Word) :
    (x.lift2 aluSltu a b).toNat
      = if (a.setWidth x.bits).toNat < (b.setWidth x.bits).toNat then 1 else 0 := by
  rw [x.toNat_lift2, aluSltu, toNat_boolValue]
  simp only [cmpLtU, BitVec.ult, decide_eq_true_eq]

theorem toNat_lift_xor (x : Xlen) (a b : Word) :
    (x.lift2 aluXor a b).toNat = (a.setWidth x.bits).toNat ^^^ (b.setWidth x.bits).toNat := by
  rw [x.toNat_lift2]; exact BitVec.toNat_xor ..

theorem toNat_lift_or (x : Xlen) (a b : Word) :
    (x.lift2 aluOr a b).toNat = (a.setWidth x.bits).toNat ||| (b.setWidth x.bits).toNat := by
  rw [x.toNat_lift2]; exact BitVec.toNat_or ..

theorem toNat_lift_and (x : Xlen) (a b : Word) :
    (x.lift2 aluAnd a b).toNat = (a.setWidth x.bits).toNat &&& (b.setWidth x.bits).toNat := by
  rw [x.toNat_lift2]; exact BitVec.toNat_and ..

theorem toNat_lift_sll (x : Xlen) (a b : Word) :
    (x.lift2 aluSll a b).toNat
      = (a.setWidth x.bits).toNat * 2 ^ ((b.setWidth x.bits).toNat % x.bits) % 2 ^ x.bits := by
  rw [x.toNat_lift2, aluSll, BitVec.toNat_shiftLeft, Nat.shiftLeft_eq]

theorem toNat_lift_srl (x : Xlen) (a b : Word) :
    (x.lift2 aluSrl a b).toNat
      = (a.setWidth x.bits).toNat / 2 ^ ((b.setWidth x.bits).toNat % x.bits) := by
  rw [x.toNat_lift2, aluSrl, BitVec.toNat_ushiftRight, Nat.shiftRight_eq_div_pow]

theorem toNat_lift_sra (x : Xlen) (a b : Word) :
    (x.lift2 aluSra a b).toNat
      = wrap x ((a.setWidth x.bits).toInt / 2 ^ ((b.setWidth x.bits).toNat % x.bits)) := by
  rw [x.toNat_lift2, ← wrap_toInt, aluSra, BitVec.toInt_sshiftRight, Int.shiftRight_eq_div_pow]
  norm_cast

/-- A shift amount below `XLEN` is used as it is (R109). -/
theorem toNat_shamt (x : Xlen) (sh : BitVec 6) (h : sh.toNat < x.bits) :
    ((sh.setWidth 64).setWidth x.bits : BitVec x.bits).toNat % x.bits = sh.toNat := by
  have := sh.isLt
  cases x <;> simp only [Xlen.bits, BitVec.toNat_setWidth] at * <;> omega

/-! ### The 32-bit functions of the `*W` instructions -/

/-- A 32-bit result, sign-extended to 64 bits, in numbers. -/
theorem toNat_sext32 (v : BitVec 32) (z : Int) (h : v.toInt = z) : (Xlen.sext .rv64 v).toNat = wrap .rv64 z := by
  rw [toNat_sext_wrap, h]

theorem toInt_eq_bmod (n : Nat) (v : BitVec n) (z : Int) (h : v = BitVec.ofInt n z) :
    v.toInt = z.bmod (2 ^ n) := by
  rw [h, BitVec.toInt_ofInt]

/-! ### Addresses and targets -/

/-- A sum with a sign-extended field (R205, R220). -/
theorem State.toNat_add_sext (s : State) (a : Word) {n : Nat} (v : BitVec n) :
    (s.add a (s.params.xlen.sext v)).toNat = wrap s.params.xlen (a.toNat + v.toInt) := by
  rw [State.toNat_add, toNat_sext_wrap, wrap, wrap]
  have hp : (0 : Int) < ((2 ^ s.params.xlen.bits : Nat) : Int) := by exact_mod_cast s.params.xlen.pow_bits_pos
  have h0 := Int.emod_nonneg v.toInt hp.ne'
  apply Int.ofNat_inj.mp
  rw [Int.toNat_of_nonneg (Int.emod_nonneg _ hp.ne')]
  push_cast
  rw [Int.toNat_of_nonneg (by exact_mod_cast h0)]
  simp

theorem State.toNat_relTarget (s : State) {n : Nat} (off : BitVec n) :
    (s.relTarget off).toNat = wrap s.params.xlen (s.pc.toNat + off.toInt) := s.toNat_add_sext s.pc off

/-- The wrapped sum does not see bits of the first operand above `XLEN`. -/
theorem wrap_mod_add (x : Xlen) (n : Nat) (z : Int) :
    wrap x (((n % 2 ^ x.bits : Nat) : Int) + z) = wrap x (n + z) := by
  unfold wrap
  congr 1
  push_cast
  simp

theorem State.toNat_ea_eaNat (s : State) (rs1 : RegId) (imm : BitVec 12) :
    (s.ea rs1 imm).toNat = s.eaNat rs1 imm := by
  rw [State.ea, State.imm12, State.toNat_add_sext, State.eaNat, State.u, unsignedValue, wrap_mod_add]

theorem State.ea_eq (s : State) (rs1 : RegId) (imm : BitVec 12) :
    s.ea rs1 imm = BitVec.ofNat 64 (s.eaNat rs1 imm) := by
  apply BitVec.eq_of_toNat_eq
  rw [State.toNat_ea_eaNat, BitVec.toNat_ofNat, Nat.mod_eq_of_lt]
  exact Nat.lt_of_lt_of_le (wrap_lt ..) s.params.xlen.pow_bits_le

theorem State.eaNat_lt (s : State) (rs1 : RegId) (imm : BitVec 12) :
    s.eaNat rs1 imm < 2 ^ s.params.xlen.bits := wrap_lt ..

theorem State.relTarget_eq (s : State) {n : Nat} (off : BitVec n) :
    s.relTarget off = BitVec.ofNat 64 (wrap s.params.xlen (s.pc.toNat + off.toInt)) := by
  apply BitVec.eq_of_toNat_eq
  rw [State.toNat_relTarget, BitVec.toNat_ofNat, Nat.mod_eq_of_lt]
  exact Nat.lt_of_lt_of_le (wrap_lt ..) s.params.xlen.pow_bits_le

/-- Clearing bit 0 (R204). -/
theorem toNat_clear_bit0 (w : Nat) (h : 0 < w) (v : BitVec w) : (v &&& ~~~1#w).toNat = v.toNat / 2 * 2 := by
  have e : v &&& ~~~1#w = (v >>> 1) <<< 1 := by
    apply BitVec.eq_of_getLsbD_eq
    intro i hi
    simp only [BitVec.getLsbD_and, BitVec.getLsbD_not, BitVec.getLsbD_shiftLeft, BitVec.getLsbD_ushiftRight,
      BitVec.getLsbD_one]
    rcases i with _ | i
    · simp [h]
    · simp [hi]
      rw [show 1 + i = i + 1 by omega, BitVec.getLsbD_eq_getElem hi]
  rw [e, BitVec.toNat_shiftLeft, BitVec.toNat_ushiftRight, Nat.shiftLeft_eq, Nat.shiftRight_eq_div_pow]
  have := v.isLt
  rw [Nat.mod_eq_of_lt (by omega)]

theorem State.toNat_jalrTarget (s : State) (rs1 : RegId) (imm : BitVec 12) :
    (s.jalrTarget rs1 imm).toNat = wrap s.params.xlen (s.u rs1 + imm.toInt) / 2 * 2 := by
  rw [State.jalrTarget, Xlen.toNat_lift2, aluJalr, toNat_clear_bit0 _ s.params.xlen.bits_pos]
  congr 2
  have := s.toNat_ea_eaNat rs1 imm
  rw [State.ea, State.add, Xlen.toNat_lift2] at this
  exact this

/-! ### What completing leaves -/

/-- Completing with a register write. -/
theorem writesReg_of_complete (i : Instr) (s : State) (rd : RegId) (v next : Word) (n m : Nat) (hf : s.notFull)
    (he : exec i s = complete next (s.setX rd v)) (hv : v.toNat = n) (hm : next.toNat = m) :
    WritesReg i s rd n m := by
  have hf' : (s.setX rd v).notFull := by simpa [State.notFull] using hf
  refine ⟨(s.setX rd v).advance next, by rw [he, complete_of_notFull _ _ hf'], ?_, fun r hr => ?_, ⟨?_, ?_⟩,
    ?_, ?_, ?_⟩
  · rw [State.advance_x, State.x_setX, if_pos rfl]; split <;> simp [hv]
  · rw [State.advance_x]; exact s.x_setX_other rd r v hr
  · simpa using hm
  · rw [State.advance_cycles_toNat _ _ hf']; simp
  · simp [SameMem]
  · simp [SameHeap]
  · simp [SameControl]

theorem writesReg_of_writeBack (i : Instr) (s : State) (rd : RegId) (v : Word) (n : Nat) (hf : s.notFull)
    (he : exec i s = writeBack rd v s) (hv : v.toNat = n) : WritesReg i s rd n s.pcPlus4 :=
  writesReg_of_complete i s rd v _ n _ hf he hv s.toNat_seqPc

/-- Completing with a change of control alone. -/
theorem goesTo_of_complete (i : Instr) (s : State) (next : Word) (m : Nat) (hf : s.notFull)
    (he : exec i s = complete next s) (hm : next.toNat = m) : GoesTo i s m :=
  ⟨s.advance next, by rw [he, complete_of_notFull _ _ hf], fun _ => rfl,
    ⟨by simpa using hm, s.advance_cycles_toNat _ hf⟩, ⟨fun _ => rfl, rfl, rfl⟩, ⟨rfl, rfl, rfl, rfl⟩,
    ⟨rfl, rfl, rfl, rfl, rfl, rfl, rfl⟩⟩

/-- Completing with stored bytes (R67, R275). -/
theorem storesBytes_of_complete (i : Instr) (s : State) (a n v : Nat) (bs : List Byte) (hf : s.notFull)
    (hw : s.mem.wf = true) (he : exec i s = complete s.seqPc (s.writeData a bs)) (hl : bs.length = n)
    (hn : n ≤ 2 ^ s.params.xlen.bits)
    (hb : ∀ k (h : k < n), bs[k]'(by omega) = BitVec.ofNat 8 (v / 256 ^ k)) : StoresBytes i s a n v := by
  refine ⟨(s.writeData a bs).advance s.seqPc, by rw [he, complete_of_notFull _ _ (by simpa [State.notFull] using hf)],
    fun _ => rfl, ⟨s.toNat_seqPc, s.advance_cycles_toNat s.seqPc hf⟩, fun k hk => ?_, fun c hc => ?_, ?_,
    s.records_writeData a bs n hl, ⟨rfl, rfl, rfl, rfl⟩, ⟨rfl, rfl, rfl, rfl, rfl, rfl, rfl⟩⟩
  · rw [← hb k hk]
    exact Memory.read_writeBytes_at s.mem s.params.xlen a bs hw (by omega) k (by omega)
  · exact Memory.read_writeBytes_other s.mem s.params.xlen a c bs hw (fun k hk => hc k (by omega))
  · exact s.notes_writeData a bs n hl

theorem raises_of_takeFault (i : Instr) (s : State) (e : Err) (he : exec i s = takeFault e s) : Raises i s e := he

end Sys2Proof.Machine
end

