-- ==== Sys2Proof/Laws/Decode.lean ====
section
/-! SUPPORT. The encoder's formats against the decoder's fields (R101 to R109): each field is read back,
and masking leaves the fixed bits only; the table's rows conflict pairwise (R114). -/

namespace Sys2Proof

@[simp] theorem regOfBits_bitsOfReg (r : RegId) : regOfBits (bitsOfReg r) = r := rfl

@[simp] theorem bitsOfReg_regOfBits (b : BitVec 5) : bitsOfReg (regOfBits b) = b := rfl

/-! ### Format R -/

@[simp] theorem fieldRd_encodeR (f7 : BitVec 7) (r2 r1 : RegId) (f3 : BitVec 3) (rd : RegId) (op : BitVec 7) :
    fieldRd (encodeR f7 r2 r1 f3 rd op) = rd := by
  have h : (encodeR f7 r2 r1 f3 rd op).extractLsb' 7 5 = bitsOfReg rd := by
    apply BitVec.eq_of_getLsbD_eq; intro i hi
    simp only [encodeR, BitVec.getLsbD_extractLsb', BitVec.getLsbD_append]
    interval_cases i <;> simp
  rw [fieldRd, h]; rfl

@[simp] theorem fieldRs1_encodeR (f7 : BitVec 7) (r2 r1 : RegId) (f3 : BitVec 3) (rd : RegId) (op : BitVec 7) :
    fieldRs1 (encodeR f7 r2 r1 f3 rd op) = r1 := by
  have h : (encodeR f7 r2 r1 f3 rd op).extractLsb' 15 5 = bitsOfReg r1 := by
    apply BitVec.eq_of_getLsbD_eq; intro i hi
    simp only [encodeR, BitVec.getLsbD_extractLsb', BitVec.getLsbD_append]
    interval_cases i <;> simp
  rw [fieldRs1, h]; rfl

@[simp] theorem fieldRs2_encodeR (f7 : BitVec 7) (r2 r1 : RegId) (f3 : BitVec 3) (rd : RegId) (op : BitVec 7) :
    fieldRs2 (encodeR f7 r2 r1 f3 rd op) = r2 := by
  have h : (encodeR f7 r2 r1 f3 rd op).extractLsb' 20 5 = bitsOfReg r2 := by
    apply BitVec.eq_of_getLsbD_eq; intro i hi
    simp only [encodeR, BitVec.getLsbD_extractLsb', BitVec.getLsbD_append]
    interval_cases i <;> simp
  rw [fieldRs2, h]; rfl

theorem encodeR_masked (f7 : BitVec 7) (r2 r1 : RegId) (f3 : BitVec 3) (rd : RegId) (op : BitVec 7) :
    encodeR f7 r2 r1 f3 rd op &&& 0xFE00707F#32 = f7 ++ 0#5 ++ 0#5 ++ f3 ++ 0#5 ++ op := by
  apply BitVec.eq_of_getLsbD_eq; intro i hi
  simp only [encodeR, BitVec.getLsbD_and, BitVec.getLsbD_append]
  interval_cases i <;> simp

/-! ### Format I -/

@[simp] theorem fieldRd_encodeI (imm : BitVec 12) (r1 : RegId) (f3 : BitVec 3) (rd : RegId) (op : BitVec 7) :
    fieldRd (encodeI imm r1 f3 rd op) = rd := by
  have h : (encodeI imm r1 f3 rd op).extractLsb' 7 5 = bitsOfReg rd := by
    apply BitVec.eq_of_getLsbD_eq; intro i hi
    simp only [encodeI, BitVec.getLsbD_extractLsb', BitVec.getLsbD_append]
    interval_cases i <;> simp
  rw [fieldRd, h]; rfl

@[simp] theorem fieldRs1_encodeI (imm : BitVec 12) (r1 : RegId) (f3 : BitVec 3) (rd : RegId) (op : BitVec 7) :
    fieldRs1 (encodeI imm r1 f3 rd op) = r1 := by
  have h : (encodeI imm r1 f3 rd op).extractLsb' 15 5 = bitsOfReg r1 := by
    apply BitVec.eq_of_getLsbD_eq; intro i hi
    simp only [encodeI, BitVec.getLsbD_extractLsb', BitVec.getLsbD_append]
    interval_cases i <;> simp
  rw [fieldRs1, h]; rfl

@[simp] theorem fieldImmI_encodeI (imm : BitVec 12) (r1 : RegId) (f3 : BitVec 3) (rd : RegId) (op : BitVec 7) :
    fieldImmI (encodeI imm r1 f3 rd op) = imm := by
  apply BitVec.eq_of_getLsbD_eq; intro i hi
  simp only [fieldImmI, encodeI, BitVec.getLsbD_extractLsb', BitVec.getLsbD_append]
  interval_cases i <;> simp

theorem encodeI_masked (imm : BitVec 12) (r1 : RegId) (f3 : BitVec 3) (rd : RegId) (op : BitVec 7) :
    encodeI imm r1 f3 rd op &&& 0x0000707F#32 = 0#12 ++ 0#5 ++ f3 ++ 0#5 ++ op := by
  apply BitVec.eq_of_getLsbD_eq; intro i hi
  simp only [encodeI, BitVec.getLsbD_and, BitVec.getLsbD_append]
  interval_cases i <;> simp

/-- The masked word of a shift with a 6-bit amount (R109, `XLEN = 64`). -/
theorem encodeShift6_masked (u sh : BitVec 6) (r1 : RegId) (f3 : BitVec 3) (rd : RegId)
    (op : BitVec 7) :
    encodeShift6 u sh r1 f3 rd op &&& 0xFC00707F#32 = u ++ 0#6 ++ 0#5 ++ f3 ++ 0#5 ++ op := by
  apply BitVec.eq_of_getLsbD_eq; intro i hi
  simp only [encodeShift6, encodeI, BitVec.getLsbD_and, BitVec.getLsbD_append]
  interval_cases i <;> simp

/-- The masked word of a shift whose 6-bit amount is below 32 (R109, `XLEN = 32`). -/
theorem encodeShift6_masked32 (u sh : BitVec 6) (r1 : RegId) (f3 : BitVec 3) (rd : RegId)
    (op : BitVec 7) (h : sh.toNat < 32) :
    encodeShift6 u sh r1 f3 rd op &&& 0xFE00707F#32
      = u ++ 0#1 ++ 0#5 ++ 0#5 ++ f3 ++ 0#5 ++ op := by
  have h5 : sh[5] = false := by
    rw [← BitVec.getLsbD_eq_getElem, BitVec.getLsbD, Nat.testBit_lt_two_pow (by omega)]
  apply BitVec.eq_of_getLsbD_eq; intro i hi
  simp only [encodeShift6, encodeI, BitVec.getLsbD_and, BitVec.getLsbD_append]
  interval_cases i <;> simp [h5]

/-- The masked word of a `*W` shift (R109). -/
theorem encodeShift5_masked (u : BitVec 7) (sh : BitVec 5) (r1 : RegId) (f3 : BitVec 3) (rd : RegId)
    (op : BitVec 7) :
    encodeShift5 u sh r1 f3 rd op &&& 0xFE00707F#32 = u ++ 0#5 ++ 0#5 ++ f3 ++ 0#5 ++ op := by
  apply BitVec.eq_of_getLsbD_eq; intro i hi
  simp only [encodeShift5, encodeI, BitVec.getLsbD_and, BitVec.getLsbD_append]
  interval_cases i <;> simp

@[simp] theorem fieldShamt6_encodeShift6 (u sh : BitVec 6) (r1 : RegId) (f3 : BitVec 3) (rd : RegId)
    (op : BitVec 7) : fieldShamt6 (encodeShift6 u sh r1 f3 rd op) = sh := by
  apply BitVec.eq_of_getLsbD_eq; intro i hi
  simp only [fieldShamt6, encodeShift6, encodeI, BitVec.getLsbD_extractLsb', BitVec.getLsbD_append]
  interval_cases i <;> simp

@[simp] theorem fieldShamt5_encodeShift5 (u : BitVec 7) (sh : BitVec 5) (r1 : RegId) (f3 : BitVec 3)
    (rd : RegId) (op : BitVec 7) : fieldShamt5 (encodeShift5 u sh r1 f3 rd op) = sh := by
  apply BitVec.eq_of_getLsbD_eq; intro i hi
  simp only [fieldShamt5, encodeShift5, encodeI, BitVec.getLsbD_extractLsb', BitVec.getLsbD_append]
  interval_cases i <;> simp

/-- The three upper fields of `FENCE` (R123). -/
theorem fenceFields_encodeI (fm pred succ : BitVec 4) (r1 : RegId) (f3 : BitVec 3) (rd : RegId)
    (op : BitVec 7) :
    (encodeI (fm ++ pred ++ succ) r1 f3 rd op).extractLsb' 28 4 = fm
      ∧ (encodeI (fm ++ pred ++ succ) r1 f3 rd op).extractLsb' 24 4 = pred
      ∧ (encodeI (fm ++ pred ++ succ) r1 f3 rd op).extractLsb' 20 4 = succ := by
  refine ⟨?_, ?_, ?_⟩ <;>
  · apply BitVec.eq_of_getLsbD_eq; intro i hi
    simp only [encodeI, BitVec.getLsbD_extractLsb', BitVec.getLsbD_append]
    interval_cases i <;> simp

/-! ### Format S -/

@[simp] theorem fieldRs1_encodeS (imm : BitVec 12) (r2 r1 : RegId) (f3 : BitVec 3) (op : BitVec 7) :
    fieldRs1 (encodeS imm r2 r1 f3 op) = r1 := by
  have h : (encodeS imm r2 r1 f3 op).extractLsb' 15 5 = bitsOfReg r1 := by
    apply BitVec.eq_of_getLsbD_eq; intro i hi
    simp only [encodeS, BitVec.getLsbD_extractLsb', BitVec.getLsbD_append]
    interval_cases i <;> simp
  rw [fieldRs1, h]; rfl

@[simp] theorem fieldRs2_encodeS (imm : BitVec 12) (r2 r1 : RegId) (f3 : BitVec 3) (op : BitVec 7) :
    fieldRs2 (encodeS imm r2 r1 f3 op) = r2 := by
  have h : (encodeS imm r2 r1 f3 op).extractLsb' 20 5 = bitsOfReg r2 := by
    apply BitVec.eq_of_getLsbD_eq; intro i hi
    simp only [encodeS, BitVec.getLsbD_extractLsb', BitVec.getLsbD_append]
    interval_cases i <;> simp
  rw [fieldRs2, h]; rfl

@[simp] theorem fieldImmS_encodeS (imm : BitVec 12) (r2 r1 : RegId) (f3 : BitVec 3) (op : BitVec 7) :
    fieldImmS (encodeS imm r2 r1 f3 op) = imm := by
  apply BitVec.eq_of_getLsbD_eq; intro i hi
  simp only [fieldImmS, encodeS, BitVec.getLsbD_extractLsb', BitVec.getLsbD_append]
  interval_cases i <;> simp

theorem encodeS_masked (imm : BitVec 12) (r2 r1 : RegId) (f3 : BitVec 3) (op : BitVec 7) :
    encodeS imm r2 r1 f3 op &&& 0x0000707F#32 = 0#7 ++ 0#5 ++ 0#5 ++ f3 ++ 0#5 ++ op := by
  apply BitVec.eq_of_getLsbD_eq; intro i hi
  simp only [encodeS, BitVec.getLsbD_and, BitVec.getLsbD_append]
  interval_cases i <;> simp

/-! ### Format B -/

@[simp] theorem fieldRs1_encodeB (off : BitVec 13) (r2 r1 : RegId) (f3 : BitVec 3) (op : BitVec 7) :
    fieldRs1 (encodeB off r2 r1 f3 op) = r1 := by
  have h : (encodeB off r2 r1 f3 op).extractLsb' 15 5 = bitsOfReg r1 := by
    apply BitVec.eq_of_getLsbD_eq; intro i hi
    simp only [encodeB, BitVec.getLsbD_extractLsb', BitVec.getLsbD_append]
    interval_cases i <;> simp
  rw [fieldRs1, h]; rfl

@[simp] theorem fieldRs2_encodeB (off : BitVec 13) (r2 r1 : RegId) (f3 : BitVec 3) (op : BitVec 7) :
    fieldRs2 (encodeB off r2 r1 f3 op) = r2 := by
  have h : (encodeB off r2 r1 f3 op).extractLsb' 20 5 = bitsOfReg r2 := by
    apply BitVec.eq_of_getLsbD_eq; intro i hi
    simp only [encodeB, BitVec.getLsbD_extractLsb', BitVec.getLsbD_append]
    interval_cases i <;> simp
  rw [fieldRs2, h]; rfl

theorem fieldOffB_encodeB (off : BitVec 13) (r2 r1 : RegId) (f3 : BitVec 3) (op : BitVec 7) (h : offsetEven off = true) :
    fieldOffB (encodeB off r2 r1 f3 op) = off := by
  have h0 : off[0] = false := by simpa [offsetEven, BitVec.getLsbD_eq_getElem] using h
  apply BitVec.eq_of_getLsbD_eq; intro i hi
  simp only [fieldOffB, encodeB, BitVec.getLsbD_extractLsb', BitVec.getLsbD_append]
  interval_cases i <;> simp [h0]

theorem encodeB_masked (off : BitVec 13) (r2 r1 : RegId) (f3 : BitVec 3) (op : BitVec 7) :
    encodeB off r2 r1 f3 op &&& 0x0000707F#32 = 0#7 ++ 0#5 ++ 0#5 ++ f3 ++ 0#5 ++ op := by
  apply BitVec.eq_of_getLsbD_eq; intro i hi
  simp only [encodeB, BitVec.getLsbD_and, BitVec.getLsbD_append]
  interval_cases i <;> simp

/-! ### Format U -/

@[simp] theorem fieldRd_encodeU (imm : BitVec 20) (rd : RegId) (op : BitVec 7) :
    fieldRd (encodeU imm rd op) = rd := by
  have h : (encodeU imm rd op).extractLsb' 7 5 = bitsOfReg rd := by
    apply BitVec.eq_of_getLsbD_eq; intro i hi
    simp only [encodeU, BitVec.getLsbD_extractLsb', BitVec.getLsbD_append]
    interval_cases i <;> simp
  rw [fieldRd, h]; rfl

@[simp] theorem fieldImmU_encodeU (imm : BitVec 20) (rd : RegId) (op : BitVec 7) :
    fieldImmU (encodeU imm rd op) = imm := by
  apply BitVec.eq_of_getLsbD_eq; intro i hi
  simp only [fieldImmU, encodeU, BitVec.getLsbD_extractLsb', BitVec.getLsbD_append]
  interval_cases i <;> simp

theorem encodeU_masked (imm : BitVec 20) (rd : RegId) (op : BitVec 7) :
    encodeU imm rd op &&& 0x0000007F#32 = 0#20 ++ 0#5 ++ op := by
  apply BitVec.eq_of_getLsbD_eq; intro i hi
  simp only [encodeU, BitVec.getLsbD_and, BitVec.getLsbD_append]
  interval_cases i <;> simp

/-! ### Format J -/

@[simp] theorem fieldRd_encodeJ (off : BitVec 21) (rd : RegId) (op : BitVec 7) :
    fieldRd (encodeJ off rd op) = rd := by
  have h : (encodeJ off rd op).extractLsb' 7 5 = bitsOfReg rd := by
    apply BitVec.eq_of_getLsbD_eq; intro i hi
    simp only [encodeJ, BitVec.getLsbD_extractLsb', BitVec.getLsbD_append]
    interval_cases i <;> simp
  rw [fieldRd, h]; rfl

theorem fieldOffJ_encodeJ (off : BitVec 21) (rd : RegId) (op : BitVec 7) (h : offsetEven off = true) :
    fieldOffJ (encodeJ off rd op) = off := by
  have h0 : off[0] = false := by simpa [offsetEven, BitVec.getLsbD_eq_getElem] using h
  apply BitVec.eq_of_getLsbD_eq; intro i hi
  simp only [fieldOffJ, encodeJ, BitVec.getLsbD_extractLsb', BitVec.getLsbD_append]
  interval_cases i <;> simp [h0]

theorem encodeJ_masked (off : BitVec 21) (rd : RegId) (op : BitVec 7) :
    encodeJ off rd op &&& 0x0000007F#32 = 0#20 ++ 0#5 ++ op := by
  apply BitVec.eq_of_getLsbD_eq; intro i hi
  simp only [encodeJ, BitVec.getLsbD_and, BitVec.getLsbD_append]
  interval_cases i <;> simp

/-! ### The table -/

/-- Two rows of one `XLEN` fix some common bit differently. -/
def OpcodeRow.conflicts (r q : OpcodeRow) : Bool :=
  !((r.rv32 && q.rv32) || (r.rv64 && q.rv64)) || (r.pattern &&& q.mask != q.pattern &&& r.mask)

theorem opcodeTable_conflicts : opcodeTable.Pairwise (fun r q => r.conflicts q = true) := by
  decide +kernel

/-- Rows that conflict match no common word at a common `XLEN`. -/
theorem OpcodeRow.not_hits_of_conflicts (r q : OpcodeRow) (h : r.conflicts q = true) (x : Xlen)
    (w : InstrWord) (hr : r.hits x w = true) : q.hits x w = false := by
  simp only [OpcodeRow.hits, Bool.and_eq_true, beq_iff_eq] at hr
  by_contra hq
  simp only [OpcodeRow.hits, Bool.not_eq_false, Bool.and_eq_true, beq_iff_eq] at hq
  have hp : r.pattern &&& q.mask = q.pattern &&& r.mask := by
    rw [← hr.2, ← hq.2, BitVec.and_assoc, BitVec.and_assoc, BitVec.and_comm r.mask]
  have h2 := hr.1
  have h3 := hq.1
  cases x <;> simp [OpcodeRow.conflicts, OpcodeRow.has, hp] at h h2 h3 <;> simp [h2, h3] at h

/-- `find?` on rows that conflict pairwise finds whichever row matches. -/
theorem find_hits (x : Xlen) (w : InstrWord) (rows : List OpcodeRow)
    (hc : rows.Pairwise (fun r q => r.conflicts q = true)) (r : OpcodeRow) (hr : r ∈ rows)
    (hh : r.hits x w = true) : rows.find? (·.hits x w) = some r := by
  induction rows with
  | nil => simp at hr
  | cons q rows ih =>
    rw [List.pairwise_cons] at hc
    rcases List.mem_cons.mp hr with rfl | hmem
    · simp [hh]
    · cases hq : q.hits x w with
      | true =>
        have := OpcodeRow.not_hits_of_conflicts q r (hc.1 r hmem) x w hq
        rw [hh] at this
        simp at this
      | false => rw [List.find?_cons_of_neg (by simp [hq])]; exact ih hc.2 hmem

/-- Whichever row matches, the decoder gives that row's instruction (R114). -/
theorem decode_of_hits (x : Xlen) (w : InstrWord) (r : OpcodeRow) (hr : r ∈ opcodeTable)
    (hh : r.hits x w = true) : decode x w = .ok (r.build w) := by
  simp [decode, find_hits x w opcodeTable opcodeTable_conflicts r hr hh]

/-- What the decoder gives comes from a row that matches (R114). -/
theorem row_of_decode (x : Xlen) (w : InstrWord) (i : Instr) (h : decode x w = .ok i) :
    ∃ r ∈ opcodeTable, r.hits x w = true ∧ r.build w = i := by
  unfold decode at h
  split at h
  · next r hf =>
    exact ⟨r, List.mem_of_find?_eq_some hf, by simpa using (List.find?_some (p := fun q : OpcodeRow => q.hits x w) hf), by simpa using h⟩
  · simp at h

/-- A word that no row matches is rejected (R121). -/
theorem decode_noRow (x : Xlen) (w : InstrWord) (h : ∀ r ∈ opcodeTable, r.hits x w = false) :
    decode x w = .error (.noRow w) := by
  have : opcodeTable.find? (·.hits x w) = none := List.find?_eq_none.mpr (fun r hr => by simp [h r hr])
  simp [decode, this]

/-- The row fixes some bit differently from a word whose bits under the mask `m` are `p`. -/
def OpcodeRow.excludes (q : OpcodeRow) (x : Xlen) (m p : InstrWord) : Bool :=
  !q.has x || p &&& q.mask != q.pattern &&& m

theorem OpcodeRow.not_hits_of_excludes (q : OpcodeRow) (x : Xlen) (w m p : InstrWord) (hw : w &&& m = p)
    (h : q.excludes x m p = true) : q.hits x w = false := by
  by_contra hq
  simp only [OpcodeRow.hits, Bool.not_eq_false, Bool.and_eq_true, beq_iff_eq] at hq
  simp only [OpcodeRow.excludes, hq.1, Bool.not_true, Bool.false_or, bne_iff_ne] at h
  apply h
  rw [← hw, ← hq.2, BitVec.and_assoc, BitVec.and_assoc, BitVec.and_comm m]

/-- A word some of whose bits every row fixes differently is rejected (R121). -/
theorem decode_noRow_of_excluded (x : Xlen) (w m p : InstrWord) (hw : w &&& m = p)
    (h : opcodeTable.all (·.excludes x m p) = true) : decode x w = .error (.noRow w) :=
  decode_noRow x w (fun q hq => q.not_hits_of_excludes x w m p hw (List.all_eq_true.mp h q hq))

/-! ### A word is the encoding of its own fields -/

/-- A field that lies under the mask is the pattern's. -/
theorem field_of_masked (w m p : InstrWord) (start len : Nat) (h : w &&& m = p)
    (hm : m.extractLsb' start len = BitVec.allOnes len) : w.extractLsb' start len = p.extractLsb' start len := by
  rw [← h, BitVec.extractLsb'_and, hm, BitVec.and_allOnes]

theorem encodeR_fields (w : InstrWord) (f7 : BitVec 7) (f3 : BitVec 3) (op : BitVec 7)
    (h7 : w.extractLsb' 25 7 = f7) (h3 : w.extractLsb' 12 3 = f3) (ho : w.extractLsb' 0 7 = op) :
    encodeR f7 (fieldRs2 w) (fieldRs1 w) f3 (fieldRd w) op = w := by
  subst h7 h3 ho
  apply BitVec.eq_of_getLsbD_eq; intro i hi
  simp only [encodeR, fieldRs2, fieldRs1, fieldRd, bitsOfReg_regOfBits, BitVec.getLsbD_append, BitVec.getLsbD_extractLsb']
  interval_cases i <;> simp

theorem encodeI_fields (w : InstrWord) (f3 : BitVec 3) (op : BitVec 7)
    (h3 : w.extractLsb' 12 3 = f3) (ho : w.extractLsb' 0 7 = op) :
    encodeI (fieldImmI w) (fieldRs1 w) f3 (fieldRd w) op = w := by
  subst h3 ho
  apply BitVec.eq_of_getLsbD_eq; intro i hi
  simp only [encodeI, fieldImmI, fieldRs1, fieldRd, bitsOfReg_regOfBits, BitVec.getLsbD_append, BitVec.getLsbD_extractLsb']
  interval_cases i <;> simp

theorem encodeShift6_fields (w : InstrWord) (u : BitVec 6) (f3 : BitVec 3) (op : BitVec 7)
    (hu : w.extractLsb' 26 6 = u) (h3 : w.extractLsb' 12 3 = f3) (ho : w.extractLsb' 0 7 = op) :
    encodeShift6 u (fieldShamt6 w) (fieldRs1 w) f3 (fieldRd w) op = w := by
  subst hu h3 ho
  apply BitVec.eq_of_getLsbD_eq; intro i hi
  simp only [encodeShift6, encodeI, fieldShamt6, fieldRs1, fieldRd, bitsOfReg_regOfBits, BitVec.getLsbD_append,
    BitVec.getLsbD_extractLsb']
  interval_cases i <;> simp

theorem encodeShift5_fields (w : InstrWord) (u : BitVec 7) (f3 : BitVec 3) (op : BitVec 7)
    (hu : w.extractLsb' 25 7 = u) (h3 : w.extractLsb' 12 3 = f3) (ho : w.extractLsb' 0 7 = op) :
    encodeShift5 u (fieldShamt5 w) (fieldRs1 w) f3 (fieldRd w) op = w := by
  subst hu h3 ho
  apply BitVec.eq_of_getLsbD_eq; intro i hi
  simp only [encodeShift5, encodeI, fieldShamt5, fieldRs1, fieldRd, bitsOfReg_regOfBits, BitVec.getLsbD_append,
    BitVec.getLsbD_extractLsb']
  interval_cases i <;> simp

theorem encodeS_fields (w : InstrWord) (f3 : BitVec 3) (op : BitVec 7)
    (h3 : w.extractLsb' 12 3 = f3) (ho : w.extractLsb' 0 7 = op) :
    encodeS (fieldImmS w) (fieldRs2 w) (fieldRs1 w) f3 op = w := by
  subst h3 ho
  apply BitVec.eq_of_getLsbD_eq; intro i hi
  simp only [encodeS, fieldImmS, fieldRs2, fieldRs1, bitsOfReg_regOfBits, BitVec.getLsbD_append, BitVec.getLsbD_extractLsb']
  interval_cases i <;> simp

theorem encodeB_fields (w : InstrWord) (f3 : BitVec 3) (op : BitVec 7)
    (h3 : w.extractLsb' 12 3 = f3) (ho : w.extractLsb' 0 7 = op) :
    encodeB (fieldOffB w) (fieldRs2 w) (fieldRs1 w) f3 op = w := by
  subst h3 ho
  apply BitVec.eq_of_getLsbD_eq; intro i hi
  simp only [encodeB, fieldOffB, fieldRs2, fieldRs1, bitsOfReg_regOfBits, BitVec.getLsbD_append, BitVec.getLsbD_extractLsb']
  interval_cases i <;> simp

theorem encodeU_fields (w : InstrWord) (op : BitVec 7) (ho : w.extractLsb' 0 7 = op) :
    encodeU (fieldImmU w) (fieldRd w) op = w := by
  subst ho
  apply BitVec.eq_of_getLsbD_eq; intro i hi
  simp only [encodeU, fieldImmU, fieldRd, bitsOfReg_regOfBits, BitVec.getLsbD_append, BitVec.getLsbD_extractLsb']
  interval_cases i <;> simp

theorem encodeJ_fields (w : InstrWord) (op : BitVec 7) (ho : w.extractLsb' 0 7 = op) :
    encodeJ (fieldOffJ w) (fieldRd w) op = w := by
  subst ho
  apply BitVec.eq_of_getLsbD_eq; intro i hi
  simp only [encodeJ, fieldOffJ, fieldRd, bitsOfReg_regOfBits, BitVec.getLsbD_append, BitVec.getLsbD_extractLsb']
  interval_cases i <;> simp

/-- `FENCE`'s three upper fields make up its I-immediate (R123). -/
theorem fenceFields_append (w : InstrWord) :
    w.extractLsb' 28 4 ++ w.extractLsb' 24 4 ++ w.extractLsb' 20 4 = fieldImmI w := by
  apply BitVec.eq_of_getLsbD_eq; intro i hi
  simp only [fieldImmI, BitVec.getLsbD_append, BitVec.getLsbD_extractLsb']
  interval_cases i <;> simp

/-- The offsets the decoder reads are even (R105, R107). -/
theorem offsetEven_fieldOffB (w : InstrWord) : offsetEven (fieldOffB w) = true := by
  simp only [offsetEven, fieldOffB, BitVec.getLsbD_append]; simp

theorem offsetEven_fieldOffJ (w : InstrWord) : offsetEven (fieldOffJ w) = true := by
  simp only [offsetEven, fieldOffJ, BitVec.getLsbD_append]; simp

/-- A 6-bit shift amount is below 32 when `inst[25]` is 0 (R109). -/
theorem fieldShamt6_lt (w : InstrWord) (h : w.extractLsb' 25 1 = 0#1) : (fieldShamt6 w).toNat < 32 := by
  have h5 : w[25] = false := by
    have := congrArg (fun v => v.getLsbD 0) h
    simpa [BitVec.getLsbD_extractLsb'] using this
  have e : fieldShamt6 w = (w.extractLsb' 20 5).setWidth 6 := by
    apply BitVec.eq_of_getLsbD_eq; intro i hi
    simp only [fieldShamt6, BitVec.getLsbD_setWidth, BitVec.getLsbD_extractLsb']
    interval_cases i <;> simp [h5]
  rw [e, BitVec.toNat_setWidth]
  have := (w.extractLsb' 20 5).isLt
  omega

end Sys2Proof
end

