-- ==== Sys2Proof/Laws/Engine.lean ====
section
/-! SUPPORT. What a step can do, said once: serving the host while the engine is not Running, and one pass of
the command loop while it is. -/

namespace Sys2Proof.Machine

theorem State.exists_running (s : State) (h : s.isRunning = true) :
    ∃ c resume, s.runState = .running c resume := by
  unfold State.isRunning at h
  split at h <;> simp_all

/-- While the engine is not Running a step serves the host (R314, R337). -/
theorem step_of_not_running (s : State) (h : s.isRunning = false) : step s = serveHost s := by
  unfold State.isRunning at h
  unfold step
  split <;> simp_all

theorem step_of_ready (s : State) (h : s.runState = .ready) : step s = serveHost s :=
  step_of_not_running s (by simp [State.isRunning, h])

theorem step_of_halted (s : State) (h : s.runState = .halted) : step s = serveHost s :=
  step_of_not_running s (by simp [State.isRunning, h])

theorem serveHost_nil (s : State) (h : s.requests = []) : serveHost s = .next s := by
  simp [serveHost, h]

theorem serveHost_cons (s : State) (q : PortRequest) (rest : List PortRequest) (h : s.requests = q :: rest) :
    serveHost s = servePort q { s with requests := rest } := by
  simp [serveHost, h]

/-! ### The head of the loop -/

theorem State.fetch_of_fetches (s : State) (w : InstrWord) (h : s.Fetches w) : s.fetch = .ok w := by
  obtain ⟨h1, h2, h3⟩ := h
  simp [State.fetch, h1, Nat.not_lt.mpr h2, h3]

theorem State.stepLimitReached_of_underLimit (s : State) (h : s.underLimit) : s.stepLimitReached = false := by
  unfold State.stepLimitReached
  cases hm : s.params.maxSteps with
  | none => rfl
  | some m => simpa using h m hm

theorem State.honours_iff (s : State) (c : Command) : s.honours c = true ↔ s.Honours c := by
  cases c <;> simp [State.honours, State.Honours]

/-- A fetch fails by one of two faults (R82). -/
theorem State.fetch_error (s : State) (e : Err) (h : s.fetch = .error e) :
    e = .instrAddrMisaligned s.pc s.pc ∨ e = .fetchFault s.pc := by
  unfold State.fetch at h
  split at h
  · left; simpa using h.symm
  · right
    split at h
    · simpa using h.symm
    · split at h
      · simp at h
      · simpa using h.symm

/-- Every way a pass of the loop can begin (R317, R362). -/
theorem loopHead_cases (c : Command) (resume : Bool) (s : State) :
    (∃ m, s.params.maxSteps = some m ∧ m ≤ s.cycles.toNat
        ∧ loopHead c resume s = .stop (takeFault (.stepLimitExceeded s.cycles) s))
      ∨ (∃ e, e ≠ .none ∧ (∀ n, e ≠ .stepLimitExceeded n) ∧ loopHead c resume s = .stop (takeFault e s))
      ∨ loopHead c resume s = .stop (.next { s with runState := .atBreakpoint })
      ∨ ∃ w i, s.fetch = .ok w ∧ decode s.params.xlen w = .ok i ∧ loopHead c resume s = .run i := by
  unfold loopHead
  cases hl : s.stepLimitReached with
  | true =>
    left
    unfold State.stepLimitReached at hl
    cases hm : s.params.maxSteps with
    | none => simp [hm] at hl
    | some m => exact ⟨m, rfl, by simpa [hm] using hl, by simp⟩
  | false =>
    simp only [Bool.false_eq_true, if_false]
    cases hf : s.fetch with
    | error e =>
      right; left
      rcases s.fetch_error e hf with rfl | rfl <;> exact ⟨_, by simp, by simp, rfl⟩
    | ok w =>
      cases hd : decode s.params.xlen w with
      | error e => right; left; exact ⟨.decodeError s.pc w, by simp, by simp, by simp [hd]⟩
      | ok i =>
        simp only [hd]
        split
        · exact .inr (.inr (.inl rfl))
        · exact .inr (.inr (.inr ⟨w, i, rfl, hd, rfl⟩))

/-! ### One step -/

/-- Every next state of a step of a command: a latched fault, a pause, or an instruction's own. -/
theorem step_running_cases (s t : State) (c : Command) (resume : Bool) (h : s.runState = .running c resume)
    (ht : step s = .next t) :
    (∃ e, e ≠ .none ∧ ((∀ n, e ≠ .stepLimitExceeded n) ∨ s.params.maxSteps ≠ none) ∧ t = s.raise e)
      ∨ t = { s with runState := .atBreakpoint }
      ∨ ∃ i u, exec i s = .next u ∧ t = u.settle c := by
  simp only [step, h] at ht
  rcases loopHead_cases c resume s with ⟨m, hm, -, hh⟩ | ⟨e, he, hl, hh⟩ | hh | ⟨w, i, -, -, hh⟩ <;>
    simp only [hh] at ht
  · exact .inl ⟨.stepLimitExceeded s.cycles, by simp, .inr (by simp [hm]), by simpa [takeFault] using ht.symm⟩
  · exact .inl ⟨e, he, .inl hl, by simpa [takeFault] using ht.symm⟩
  · exact .inr (.inl (by simpa using ht.symm))
  · right; right
    cases hi : exec i s with
    | next u => simp only [hi, finish] at ht; exact ⟨i, u, hi, by simpa using ht.symm⟩
    | fault r => cases r
    | refused r => simp [hi, finish] at ht

/-- Answering a fault of the host's own request leaves the engine alone (R369). -/
theorem State.replyErr_frame (s : State) (e : Err) :
    (s.replyErr e).err = s.err ∧ (s.replyErr e).cycles = s.cycles ∧ (s.replyErr e).params = s.params
      ∧ (s.replyErr e).runState = s.runState ∧ (s.replyErr e).mem = s.mem ∧ (s.replyErr e).regs = s.regs
      ∧ (s.replyErr e).pc = s.pc ∧ (s.replyErr e).blocks = s.blocks ∧ (s.replyErr e).hwm = s.hwm
      ∧ (s.replyErr e).numActiveBlocks = s.numActiveBlocks := by
  cases e <;> simp [State.replyErr]

/-- Every request but `RESET` leaves `err`, `cycles`, the parameters and the state Halted. -/
theorem serveHost_frame (s t : State) (h : serveHost s = .next t) (hr : s.requests.head? ≠ some .reset)
    (hn : s.isRunning = false) :
    t.err = s.err ∧ t.cycles = s.cycles ∧ t.params = s.params
      ∧ (s.runState = .halted → t.runState = .halted) := by
  unfold serveHost at h
  split at h
  · cases h; simp
  · next r rs heq =>
    cases r <;> simp only [servePort] at h
    case reset => simp [heq] at hr
    case command c =>
      cases h
      unfold State.accept
      unfold State.isRunning at hn
      cases hs : s.runState <;> simp_all
    case load w a =>
      split at h
      · cases h; unfold hostLoad; split <;> simp [State.replyErr_frame]
      · cases h
    case store w a v =>
      split at h
      · cases h
        unfold hostStore
        rcases State.memWrite_cases { s with requests := rs } (s.params.xlen.narrow a) v w with hh | hh <;>
          simp [hh, State.replyErr_frame]
      · cases h
    all_goals cases h; simp

end Sys2Proof.Machine
end

