-- ==== Sys2Proof/Laws/Invariant.lean ====
section
/-! SUPPORT. The invariant of the machine as propositions, and the moving `realloc` in a state that meets it
(R273, R284). -/

namespace Sys2Proof.Machine

/-- The parts of `State.inv`. -/
structure Invariant (s : State) : Prop extends HeapSound s where
  canonical : s.canonical = true
  err : s.runState = .halted ∨ s.err = .none

theorem State.inv_iff (s : State) : s.inv = true ↔ Invariant s := by
  simp only [State.inv, Bool.and_eq_true, Bool.or_eq_true, beq_iff_eq, State.heapOk_iff]
  exact ⟨fun ⟨⟨⟨⟨⟨⟨⟨a, b⟩, c⟩, d⟩, e⟩, f⟩, g⟩, i⟩ => ⟨⟨a, b, c, e, f, (s.metadataInHeap_iff f).mp g⟩, d, i⟩,
    fun h => ⟨⟨⟨⟨⟨⟨⟨h.valid, h.wf⟩, h.within⟩, h.canonical⟩, h.heap⟩, h.history⟩,
      (s.metadataInHeap_iff h.history).mpr h.metadata⟩, h.err⟩⟩

/-- `canonical`, register by register. -/
theorem State.canonical_iff (s : State) : s.canonical = true ↔
    (∀ i (h : i < 31), s.regs[i].toNat < 2 ^ s.params.xlen.bits) ∧ s.pc.toNat < 2 ^ s.params.xlen.bits
      ∧ s.pc.toNat % 4 = 0 := by
  simp only [State.canonical, Bool.and_eq_true, List.all_eq_true, decide_eq_true_eq, beq_iff_eq, and_assoc]
  constructor
  · rintro ⟨h, h2⟩
    exact ⟨fun i hi => h _ (by simp [Vector.mem_toList_iff]), h2⟩
  · rintro ⟨h, h2⟩
    refine ⟨fun v hv => ?_, h2⟩
    rw [Vector.mem_toList_iff] at hv
    obtain ⟨i, hi, rfl⟩ := Vector.getElem_of_mem hv
    exact h i hi

theorem Invariant.x_lt {s : State} (h : Invariant s) (r : RegId) : (s.x r).toNat < 2 ^ s.params.xlen.bits := by
  have hc := (s.canonical_iff.mp h.canonical).1
  unfold State.x
  split
  · exact Nat.two_pow_pos _
  · exact hc _ _

/-- Writing an `XLEN`-bit value to a register, and an aligned `XLEN`-bit address to `pc`, keeps the state
canonical (R20, R27). -/
theorem canonical_of (s t : State) (h : s.canonical = true) (hp : t.params = s.params)
    (hr : ∀ i (hi : i < 31), t.regs[i] = s.regs[i] ∨ t.regs[i].toNat < 2 ^ s.params.xlen.bits)
    (hpc : t.pc.toNat < 2 ^ s.params.xlen.bits ∧ t.pc.toNat % 4 = 0) : t.canonical = true := by
  rw [State.canonical_iff] at h ⊢
  rw [hp]
  refine ⟨fun i hi => ?_, hpc⟩
  rcases hr i hi with e | e
  · rw [e]; exact h.1 i hi
  · exact e

/-! ### Moving (R284) -/

/-- A moving `realloc` that finds a place: the new block, the copy, then the old block freed (R284). -/
theorem State.resizeMoving_some (s u : State) (h : HeapSound s) (before after : List Block) (b p : Block) (n : Nat)
    (z r : Bool) (hs : s.blocks = before ++ b :: after) (hb : b.free = false) (he : s.alloc n false = some (u, p))
    (hu : Granted s u p z r) :
    ∃ bef aft, u.blocks = bef ++ b :: aft
      ∧ s.resizeMoving ⟨before, b, after⟩ n
        = ((u.copyPayload (b.base + s.params.hdrSize) (p.base + s.params.hdrSize) (min b.size n)).freeBlock
            ⟨bef, b, aft⟩, p.base + s.params.hdrSize) := by
  obtain ⟨bef, aft, hsp⟩ := List.append_of_mem (hu.keeps b (by rw [hs]; simp) hb).1
  refine ⟨bef, aft, hsp, ?_⟩
  have hp := (heapParams_of_valid s.params h.valid).2.2.2.1
  have hlk := State.lookup_of_split (u.copyPayload (b.base + s.params.hdrSize) (p.base + s.params.hdrSize)
    (min b.size n)) (hu.sound.copyPayload ..).heap bef aft b hsp hb
    (by rw [State.copyPayload_params, hu.params]; exact hp)
  rw [State.copyPayload_params, hu.params] at hlk
  unfold State.resizeMoving
  rw [he]
  dsimp only [Block.payload]
  rw [hlk]

theorem State.resizeMoving_none (s : State) (f : Found) (n : Nat) (he : s.alloc n false = none) :
    s.resizeMoving f n = (s, 0) := by
  unfold State.resizeMoving
  rw [he]

end Sys2Proof.Machine
end

