-- ==== Sys2Proof/Laws/PerInstr.lean ====
section
/-! SUPPORT. Per instruction: its word matches a row of the opcode table, and that row builds the
instruction from the word (R114, R116). The round trip of decoding follows for each. -/

namespace Sys2Proof.Laws

/-- A row that has the `XLEN`, whose fixed bits the word has and which builds the instruction. -/
theorem rowMatches_of (k : Nat) (hk : k < opcodeTable.length) (x : Xlen) (i : Instr)
    (hx : opcodeTable[k].has x = true)
    (hw : encode i &&& opcodeTable[k].mask = opcodeTable[k].pattern)
    (hb : opcodeTable[k].build (encode i) = i) :
    ∃ r ∈ opcodeTable, r.hits x (encode i) = true ∧ r.build (encode i) = i :=
  ⟨opcodeTable[k], List.getElem_mem hk, by simp [OpcodeRow.hits, hx, hw], hb⟩

/-- The instruction's word matches a row of the table that gives the instruction back. -/
def RowMatches.Statement (i : Instr) : Prop :=
  ∀ x : Xlen, i.wf x = true →
    ∃ r ∈ opcodeTable, r.hits x (encode i) = true ∧ r.build (encode i) = i

namespace RowMatches

theorem lui (rd : RegId) (imm : BitVec 20) : Statement (.lui rd imm) := fun x _ =>
  rowMatches_of 0 (by decide) x _ (by cases x <;> rfl) ((encodeU_masked _ _ _).trans (by decide))
    (congr (congrArg Instr.lui (fieldRd_encodeU _ _ _)) (fieldImmU_encodeU _ _ _))

theorem auipc (rd : RegId) (imm : BitVec 20) : Statement (.auipc rd imm) := fun x _ =>
  rowMatches_of 1 (by decide) x _ (by cases x <;> rfl) ((encodeU_masked _ _ _).trans (by decide))
    (congr (congrArg Instr.auipc (fieldRd_encodeU _ _ _)) (fieldImmU_encodeU _ _ _))

theorem jal (rd : RegId) (off : BitVec 21) : Statement (.jal rd off) := fun x h =>
  rowMatches_of 2 (by decide) x _ (by cases x <;> rfl) ((encodeJ_masked _ _ _).trans (by decide))
    (congr (congrArg Instr.jal (fieldRd_encodeJ _ _ _)) (fieldOffJ_encodeJ _ _ _ h))

theorem jalr (rd rs1 : RegId) (imm : BitVec 12) : Statement (.jalr rd rs1 imm) := fun x _ =>
  rowMatches_of 3 (by decide) x _ (by cases x <;> rfl) ((encodeI_masked _ _ _ _ _).trans (by decide))
    (congr (congr (congrArg Instr.jalr (fieldRd_encodeI _ _ _ _ _)) (fieldRs1_encodeI _ _ _ _ _)) (fieldImmI_encodeI _ _ _ _ _))

theorem beq (rs1 rs2 : RegId) (off : BitVec 13) : Statement (.beq rs1 rs2 off) := fun x h =>
  rowMatches_of 4 (by decide) x _ (by cases x <;> rfl) ((encodeB_masked _ _ _ _ _).trans (by decide))
    (congr (congr (congrArg Instr.beq (fieldRs1_encodeB _ _ _ _ _)) (fieldRs2_encodeB _ _ _ _ _)) (fieldOffB_encodeB _ _ _ _ _ h))

theorem bne (rs1 rs2 : RegId) (off : BitVec 13) : Statement (.bne rs1 rs2 off) := fun x h =>
  rowMatches_of 5 (by decide) x _ (by cases x <;> rfl) ((encodeB_masked _ _ _ _ _).trans (by decide))
    (congr (congr (congrArg Instr.bne (fieldRs1_encodeB _ _ _ _ _)) (fieldRs2_encodeB _ _ _ _ _)) (fieldOffB_encodeB _ _ _ _ _ h))

theorem blt (rs1 rs2 : RegId) (off : BitVec 13) : Statement (.blt rs1 rs2 off) := fun x h =>
  rowMatches_of 6 (by decide) x _ (by cases x <;> rfl) ((encodeB_masked _ _ _ _ _).trans (by decide))
    (congr (congr (congrArg Instr.blt (fieldRs1_encodeB _ _ _ _ _)) (fieldRs2_encodeB _ _ _ _ _)) (fieldOffB_encodeB _ _ _ _ _ h))

theorem bge (rs1 rs2 : RegId) (off : BitVec 13) : Statement (.bge rs1 rs2 off) := fun x h =>
  rowMatches_of 7 (by decide) x _ (by cases x <;> rfl) ((encodeB_masked _ _ _ _ _).trans (by decide))
    (congr (congr (congrArg Instr.bge (fieldRs1_encodeB _ _ _ _ _)) (fieldRs2_encodeB _ _ _ _ _)) (fieldOffB_encodeB _ _ _ _ _ h))

theorem bltu (rs1 rs2 : RegId) (off : BitVec 13) : Statement (.bltu rs1 rs2 off) := fun x h =>
  rowMatches_of 8 (by decide) x _ (by cases x <;> rfl) ((encodeB_masked _ _ _ _ _).trans (by decide))
    (congr (congr (congrArg Instr.bltu (fieldRs1_encodeB _ _ _ _ _)) (fieldRs2_encodeB _ _ _ _ _)) (fieldOffB_encodeB _ _ _ _ _ h))

theorem bgeu (rs1 rs2 : RegId) (off : BitVec 13) : Statement (.bgeu rs1 rs2 off) := fun x h =>
  rowMatches_of 9 (by decide) x _ (by cases x <;> rfl) ((encodeB_masked _ _ _ _ _).trans (by decide))
    (congr (congr (congrArg Instr.bgeu (fieldRs1_encodeB _ _ _ _ _)) (fieldRs2_encodeB _ _ _ _ _)) (fieldOffB_encodeB _ _ _ _ _ h))

theorem lb (rd rs1 : RegId) (imm : BitVec 12) : Statement (.lb rd rs1 imm) := fun x _ =>
  rowMatches_of 10 (by decide) x _ (by cases x <;> rfl) ((encodeI_masked _ _ _ _ _).trans (by decide))
    (congr (congr (congrArg Instr.lb (fieldRd_encodeI _ _ _ _ _)) (fieldRs1_encodeI _ _ _ _ _)) (fieldImmI_encodeI _ _ _ _ _))

theorem lh (rd rs1 : RegId) (imm : BitVec 12) : Statement (.lh rd rs1 imm) := fun x _ =>
  rowMatches_of 11 (by decide) x _ (by cases x <;> rfl) ((encodeI_masked _ _ _ _ _).trans (by decide))
    (congr (congr (congrArg Instr.lh (fieldRd_encodeI _ _ _ _ _)) (fieldRs1_encodeI _ _ _ _ _)) (fieldImmI_encodeI _ _ _ _ _))

theorem lw (rd rs1 : RegId) (imm : BitVec 12) : Statement (.lw rd rs1 imm) := fun x _ =>
  rowMatches_of 12 (by decide) x _ (by cases x <;> rfl) ((encodeI_masked _ _ _ _ _).trans (by decide))
    (congr (congr (congrArg Instr.lw (fieldRd_encodeI _ _ _ _ _)) (fieldRs1_encodeI _ _ _ _ _)) (fieldImmI_encodeI _ _ _ _ _))

theorem ld (rd rs1 : RegId) (imm : BitVec 12) : Statement (.ld rd rs1 imm) := fun x h =>
  rowMatches_of 13 (by decide) x _ (by cases x <;> first | rfl | simp [Instr.wf, needsRv64] at h) ((encodeI_masked _ _ _ _ _).trans (by decide))
    (congr (congr (congrArg Instr.ld (fieldRd_encodeI _ _ _ _ _)) (fieldRs1_encodeI _ _ _ _ _)) (fieldImmI_encodeI _ _ _ _ _))

theorem lbu (rd rs1 : RegId) (imm : BitVec 12) : Statement (.lbu rd rs1 imm) := fun x _ =>
  rowMatches_of 14 (by decide) x _ (by cases x <;> rfl) ((encodeI_masked _ _ _ _ _).trans (by decide))
    (congr (congr (congrArg Instr.lbu (fieldRd_encodeI _ _ _ _ _)) (fieldRs1_encodeI _ _ _ _ _)) (fieldImmI_encodeI _ _ _ _ _))

theorem lhu (rd rs1 : RegId) (imm : BitVec 12) : Statement (.lhu rd rs1 imm) := fun x _ =>
  rowMatches_of 15 (by decide) x _ (by cases x <;> rfl) ((encodeI_masked _ _ _ _ _).trans (by decide))
    (congr (congr (congrArg Instr.lhu (fieldRd_encodeI _ _ _ _ _)) (fieldRs1_encodeI _ _ _ _ _)) (fieldImmI_encodeI _ _ _ _ _))

theorem lwu (rd rs1 : RegId) (imm : BitVec 12) : Statement (.lwu rd rs1 imm) := fun x h =>
  rowMatches_of 16 (by decide) x _ (by cases x <;> first | rfl | simp [Instr.wf, needsRv64] at h) ((encodeI_masked _ _ _ _ _).trans (by decide))
    (congr (congr (congrArg Instr.lwu (fieldRd_encodeI _ _ _ _ _)) (fieldRs1_encodeI _ _ _ _ _)) (fieldImmI_encodeI _ _ _ _ _))

theorem sb (rs2 rs1 : RegId) (imm : BitVec 12) : Statement (.sb rs2 rs1 imm) := fun x _ =>
  rowMatches_of 17 (by decide) x _ (by cases x <;> rfl) ((encodeS_masked _ _ _ _ _).trans (by decide))
    (congr (congr (congrArg Instr.sb (fieldRs2_encodeS _ _ _ _ _)) (fieldRs1_encodeS _ _ _ _ _)) (fieldImmS_encodeS _ _ _ _ _))

theorem sh (rs2 rs1 : RegId) (imm : BitVec 12) : Statement (.sh rs2 rs1 imm) := fun x _ =>
  rowMatches_of 18 (by decide) x _ (by cases x <;> rfl) ((encodeS_masked _ _ _ _ _).trans (by decide))
    (congr (congr (congrArg Instr.sh (fieldRs2_encodeS _ _ _ _ _)) (fieldRs1_encodeS _ _ _ _ _)) (fieldImmS_encodeS _ _ _ _ _))

theorem sw (rs2 rs1 : RegId) (imm : BitVec 12) : Statement (.sw rs2 rs1 imm) := fun x _ =>
  rowMatches_of 19 (by decide) x _ (by cases x <;> rfl) ((encodeS_masked _ _ _ _ _).trans (by decide))
    (congr (congr (congrArg Instr.sw (fieldRs2_encodeS _ _ _ _ _)) (fieldRs1_encodeS _ _ _ _ _)) (fieldImmS_encodeS _ _ _ _ _))

theorem sd (rs2 rs1 : RegId) (imm : BitVec 12) : Statement (.sd rs2 rs1 imm) := fun x h =>
  rowMatches_of 20 (by decide) x _ (by cases x <;> first | rfl | simp [Instr.wf, needsRv64] at h) ((encodeS_masked _ _ _ _ _).trans (by decide))
    (congr (congr (congrArg Instr.sd (fieldRs2_encodeS _ _ _ _ _)) (fieldRs1_encodeS _ _ _ _ _)) (fieldImmS_encodeS _ _ _ _ _))

theorem addi (rd rs1 : RegId) (imm : BitVec 12) : Statement (.addi rd rs1 imm) := fun x _ =>
  rowMatches_of 21 (by decide) x _ (by cases x <;> rfl) ((encodeI_masked _ _ _ _ _).trans (by decide))
    (congr (congr (congrArg Instr.addi (fieldRd_encodeI _ _ _ _ _)) (fieldRs1_encodeI _ _ _ _ _)) (fieldImmI_encodeI _ _ _ _ _))

theorem slti (rd rs1 : RegId) (imm : BitVec 12) : Statement (.slti rd rs1 imm) := fun x _ =>
  rowMatches_of 22 (by decide) x _ (by cases x <;> rfl) ((encodeI_masked _ _ _ _ _).trans (by decide))
    (congr (congr (congrArg Instr.slti (fieldRd_encodeI _ _ _ _ _)) (fieldRs1_encodeI _ _ _ _ _)) (fieldImmI_encodeI _ _ _ _ _))

theorem sltiu (rd rs1 : RegId) (imm : BitVec 12) : Statement (.sltiu rd rs1 imm) := fun x _ =>
  rowMatches_of 23 (by decide) x _ (by cases x <;> rfl) ((encodeI_masked _ _ _ _ _).trans (by decide))
    (congr (congr (congrArg Instr.sltiu (fieldRd_encodeI _ _ _ _ _)) (fieldRs1_encodeI _ _ _ _ _)) (fieldImmI_encodeI _ _ _ _ _))

theorem xori (rd rs1 : RegId) (imm : BitVec 12) : Statement (.xori rd rs1 imm) := fun x _ =>
  rowMatches_of 24 (by decide) x _ (by cases x <;> rfl) ((encodeI_masked _ _ _ _ _).trans (by decide))
    (congr (congr (congrArg Instr.xori (fieldRd_encodeI _ _ _ _ _)) (fieldRs1_encodeI _ _ _ _ _)) (fieldImmI_encodeI _ _ _ _ _))

theorem ori (rd rs1 : RegId) (imm : BitVec 12) : Statement (.ori rd rs1 imm) := fun x _ =>
  rowMatches_of 25 (by decide) x _ (by cases x <;> rfl) ((encodeI_masked _ _ _ _ _).trans (by decide))
    (congr (congr (congrArg Instr.ori (fieldRd_encodeI _ _ _ _ _)) (fieldRs1_encodeI _ _ _ _ _)) (fieldImmI_encodeI _ _ _ _ _))

theorem andi (rd rs1 : RegId) (imm : BitVec 12) : Statement (.andi rd rs1 imm) := fun x _ =>
  rowMatches_of 26 (by decide) x _ (by cases x <;> rfl) ((encodeI_masked _ _ _ _ _).trans (by decide))
    (congr (congr (congrArg Instr.andi (fieldRd_encodeI _ _ _ _ _)) (fieldRs1_encodeI _ _ _ _ _)) (fieldImmI_encodeI _ _ _ _ _))

theorem slli (rd rs1 : RegId) (shamt : BitVec 6) : Statement (.slli rd rs1 shamt) := fun x h => by
  cases x with
  | rv32 =>
    exact rowMatches_of 27 (by decide) .rv32 _ rfl
      ((encodeShift6_masked32 _ _ _ _ _ _ (of_decide_eq_true h)).trans (by decide))
      (congr (congr (congrArg Instr.slli (fieldRd_encodeI _ _ _ _ _)) (fieldRs1_encodeI _ _ _ _ _)) (fieldShamt6_encodeShift6 _ _ _ _ _ _))
  | rv64 =>
    exact rowMatches_of 30 (by decide) .rv64 _ rfl ((encodeShift6_masked _ _ _ _ _ _).trans (by decide))
      (congr (congr (congrArg Instr.slli (fieldRd_encodeI _ _ _ _ _)) (fieldRs1_encodeI _ _ _ _ _)) (fieldShamt6_encodeShift6 _ _ _ _ _ _))

theorem srli (rd rs1 : RegId) (shamt : BitVec 6) : Statement (.srli rd rs1 shamt) := fun x h => by
  cases x with
  | rv32 =>
    exact rowMatches_of 28 (by decide) .rv32 _ rfl
      ((encodeShift6_masked32 _ _ _ _ _ _ (of_decide_eq_true h)).trans (by decide))
      (congr (congr (congrArg Instr.srli (fieldRd_encodeI _ _ _ _ _)) (fieldRs1_encodeI _ _ _ _ _)) (fieldShamt6_encodeShift6 _ _ _ _ _ _))
  | rv64 =>
    exact rowMatches_of 31 (by decide) .rv64 _ rfl ((encodeShift6_masked _ _ _ _ _ _).trans (by decide))
      (congr (congr (congrArg Instr.srli (fieldRd_encodeI _ _ _ _ _)) (fieldRs1_encodeI _ _ _ _ _)) (fieldShamt6_encodeShift6 _ _ _ _ _ _))

theorem srai (rd rs1 : RegId) (shamt : BitVec 6) : Statement (.srai rd rs1 shamt) := fun x h => by
  cases x with
  | rv32 =>
    exact rowMatches_of 29 (by decide) .rv32 _ rfl
      ((encodeShift6_masked32 _ _ _ _ _ _ (of_decide_eq_true h)).trans (by decide))
      (congr (congr (congrArg Instr.srai (fieldRd_encodeI _ _ _ _ _)) (fieldRs1_encodeI _ _ _ _ _)) (fieldShamt6_encodeShift6 _ _ _ _ _ _))
  | rv64 =>
    exact rowMatches_of 32 (by decide) .rv64 _ rfl ((encodeShift6_masked _ _ _ _ _ _).trans (by decide))
      (congr (congr (congrArg Instr.srai (fieldRd_encodeI _ _ _ _ _)) (fieldRs1_encodeI _ _ _ _ _)) (fieldShamt6_encodeShift6 _ _ _ _ _ _))

theorem add (rd rs1 rs2 : RegId) : Statement (.add rd rs1 rs2) := fun x _ =>
  rowMatches_of 33 (by decide) x _ (by cases x <;> rfl) ((encodeR_masked _ _ _ _ _ _).trans (by decide))
    (congr (congr (congrArg Instr.add (fieldRd_encodeR _ _ _ _ _ _)) (fieldRs1_encodeR _ _ _ _ _ _)) (fieldRs2_encodeR _ _ _ _ _ _))

theorem sub (rd rs1 rs2 : RegId) : Statement (.sub rd rs1 rs2) := fun x _ =>
  rowMatches_of 34 (by decide) x _ (by cases x <;> rfl) ((encodeR_masked _ _ _ _ _ _).trans (by decide))
    (congr (congr (congrArg Instr.sub (fieldRd_encodeR _ _ _ _ _ _)) (fieldRs1_encodeR _ _ _ _ _ _)) (fieldRs2_encodeR _ _ _ _ _ _))

theorem sll (rd rs1 rs2 : RegId) : Statement (.sll rd rs1 rs2) := fun x _ =>
  rowMatches_of 35 (by decide) x _ (by cases x <;> rfl) ((encodeR_masked _ _ _ _ _ _).trans (by decide))
    (congr (congr (congrArg Instr.sll (fieldRd_encodeR _ _ _ _ _ _)) (fieldRs1_encodeR _ _ _ _ _ _)) (fieldRs2_encodeR _ _ _ _ _ _))

theorem slt (rd rs1 rs2 : RegId) : Statement (.slt rd rs1 rs2) := fun x _ =>
  rowMatches_of 36 (by decide) x _ (by cases x <;> rfl) ((encodeR_masked _ _ _ _ _ _).trans (by decide))
    (congr (congr (congrArg Instr.slt (fieldRd_encodeR _ _ _ _ _ _)) (fieldRs1_encodeR _ _ _ _ _ _)) (fieldRs2_encodeR _ _ _ _ _ _))

theorem sltu (rd rs1 rs2 : RegId) : Statement (.sltu rd rs1 rs2) := fun x _ =>
  rowMatches_of 37 (by decide) x _ (by cases x <;> rfl) ((encodeR_masked _ _ _ _ _ _).trans (by decide))
    (congr (congr (congrArg Instr.sltu (fieldRd_encodeR _ _ _ _ _ _)) (fieldRs1_encodeR _ _ _ _ _ _)) (fieldRs2_encodeR _ _ _ _ _ _))

theorem xor (rd rs1 rs2 : RegId) : Statement (.xor rd rs1 rs2) := fun x _ =>
  rowMatches_of 38 (by decide) x _ (by cases x <;> rfl) ((encodeR_masked _ _ _ _ _ _).trans (by decide))
    (congr (congr (congrArg Instr.xor (fieldRd_encodeR _ _ _ _ _ _)) (fieldRs1_encodeR _ _ _ _ _ _)) (fieldRs2_encodeR _ _ _ _ _ _))

theorem srl (rd rs1 rs2 : RegId) : Statement (.srl rd rs1 rs2) := fun x _ =>
  rowMatches_of 39 (by decide) x _ (by cases x <;> rfl) ((encodeR_masked _ _ _ _ _ _).trans (by decide))
    (congr (congr (congrArg Instr.srl (fieldRd_encodeR _ _ _ _ _ _)) (fieldRs1_encodeR _ _ _ _ _ _)) (fieldRs2_encodeR _ _ _ _ _ _))

theorem sra (rd rs1 rs2 : RegId) : Statement (.sra rd rs1 rs2) := fun x _ =>
  rowMatches_of 40 (by decide) x _ (by cases x <;> rfl) ((encodeR_masked _ _ _ _ _ _).trans (by decide))
    (congr (congr (congrArg Instr.sra (fieldRd_encodeR _ _ _ _ _ _)) (fieldRs1_encodeR _ _ _ _ _ _)) (fieldRs2_encodeR _ _ _ _ _ _))

theorem or (rd rs1 rs2 : RegId) : Statement (.or rd rs1 rs2) := fun x _ =>
  rowMatches_of 41 (by decide) x _ (by cases x <;> rfl) ((encodeR_masked _ _ _ _ _ _).trans (by decide))
    (congr (congr (congrArg Instr.or (fieldRd_encodeR _ _ _ _ _ _)) (fieldRs1_encodeR _ _ _ _ _ _)) (fieldRs2_encodeR _ _ _ _ _ _))

theorem and (rd rs1 rs2 : RegId) : Statement (.and rd rs1 rs2) := fun x _ =>
  rowMatches_of 42 (by decide) x _ (by cases x <;> rfl) ((encodeR_masked _ _ _ _ _ _).trans (by decide))
    (congr (congr (congrArg Instr.and (fieldRd_encodeR _ _ _ _ _ _)) (fieldRs1_encodeR _ _ _ _ _ _)) (fieldRs2_encodeR _ _ _ _ _ _))

theorem fence (fm pred succ : BitVec 4) (rs1 rd : RegId) : Statement (.fence fm pred succ rs1 rd) := fun x _ =>
  rowMatches_of 43 (by decide) x _ (by cases x <;> rfl) ((encodeI_masked _ _ _ _ _).trans (by decide)) (by
    obtain ⟨h1, h2, h3⟩ := fenceFields_encodeI fm pred succ rs1 0b000#3 rd 0b0001111#7
    exact congr (congr (congr (congr (congrArg Instr.fence h1) h2) h3) (fieldRs1_encodeI _ _ _ _ _)) (fieldRd_encodeI _ _ _ _ _))

theorem ecall : Statement .ecall := fun x _ =>
  rowMatches_of 44 (by decide) x _ (by cases x <;> rfl) (by decide) rfl

theorem ebreak : Statement .ebreak := fun x _ =>
  rowMatches_of 45 (by decide) x _ (by cases x <;> rfl) (by decide) rfl

theorem addiw (rd rs1 : RegId) (imm : BitVec 12) : Statement (.addiw rd rs1 imm) := fun x h =>
  rowMatches_of 46 (by decide) x _ (by cases x <;> first | rfl | simp [Instr.wf, needsRv64] at h) ((encodeI_masked _ _ _ _ _).trans (by decide))
    (congr (congr (congrArg Instr.addiw (fieldRd_encodeI _ _ _ _ _)) (fieldRs1_encodeI _ _ _ _ _)) (fieldImmI_encodeI _ _ _ _ _))

theorem slliw (rd rs1 : RegId) (shamt : BitVec 5) : Statement (.slliw rd rs1 shamt) := fun x h =>
  rowMatches_of 47 (by decide) x _ (by cases x <;> first | rfl | simp [Instr.wf, needsRv64] at h) ((encodeShift5_masked _ _ _ _ _ _).trans (by decide))
    (congr (congr (congrArg Instr.slliw (fieldRd_encodeI _ _ _ _ _)) (fieldRs1_encodeI _ _ _ _ _)) (fieldShamt5_encodeShift5 _ _ _ _ _ _))

theorem srliw (rd rs1 : RegId) (shamt : BitVec 5) : Statement (.srliw rd rs1 shamt) := fun x h =>
  rowMatches_of 48 (by decide) x _ (by cases x <;> first | rfl | simp [Instr.wf, needsRv64] at h) ((encodeShift5_masked _ _ _ _ _ _).trans (by decide))
    (congr (congr (congrArg Instr.srliw (fieldRd_encodeI _ _ _ _ _)) (fieldRs1_encodeI _ _ _ _ _)) (fieldShamt5_encodeShift5 _ _ _ _ _ _))

theorem sraiw (rd rs1 : RegId) (shamt : BitVec 5) : Statement (.sraiw rd rs1 shamt) := fun x h =>
  rowMatches_of 49 (by decide) x _ (by cases x <;> first | rfl | simp [Instr.wf, needsRv64] at h) ((encodeShift5_masked _ _ _ _ _ _).trans (by decide))
    (congr (congr (congrArg Instr.sraiw (fieldRd_encodeI _ _ _ _ _)) (fieldRs1_encodeI _ _ _ _ _)) (fieldShamt5_encodeShift5 _ _ _ _ _ _))

theorem addw (rd rs1 rs2 : RegId) : Statement (.addw rd rs1 rs2) := fun x h =>
  rowMatches_of 50 (by decide) x _ (by cases x <;> first | rfl | simp [Instr.wf, needsRv64] at h) ((encodeR_masked _ _ _ _ _ _).trans (by decide))
    (congr (congr (congrArg Instr.addw (fieldRd_encodeR _ _ _ _ _ _)) (fieldRs1_encodeR _ _ _ _ _ _)) (fieldRs2_encodeR _ _ _ _ _ _))

theorem subw (rd rs1 rs2 : RegId) : Statement (.subw rd rs1 rs2) := fun x h =>
  rowMatches_of 51 (by decide) x _ (by cases x <;> first | rfl | simp [Instr.wf, needsRv64] at h) ((encodeR_masked _ _ _ _ _ _).trans (by decide))
    (congr (congr (congrArg Instr.subw (fieldRd_encodeR _ _ _ _ _ _)) (fieldRs1_encodeR _ _ _ _ _ _)) (fieldRs2_encodeR _ _ _ _ _ _))

theorem sllw (rd rs1 rs2 : RegId) : Statement (.sllw rd rs1 rs2) := fun x h =>
  rowMatches_of 52 (by decide) x _ (by cases x <;> first | rfl | simp [Instr.wf, needsRv64] at h) ((encodeR_masked _ _ _ _ _ _).trans (by decide))
    (congr (congr (congrArg Instr.sllw (fieldRd_encodeR _ _ _ _ _ _)) (fieldRs1_encodeR _ _ _ _ _ _)) (fieldRs2_encodeR _ _ _ _ _ _))

theorem srlw (rd rs1 rs2 : RegId) : Statement (.srlw rd rs1 rs2) := fun x h =>
  rowMatches_of 53 (by decide) x _ (by cases x <;> first | rfl | simp [Instr.wf, needsRv64] at h) ((encodeR_masked _ _ _ _ _ _).trans (by decide))
    (congr (congr (congrArg Instr.srlw (fieldRd_encodeR _ _ _ _ _ _)) (fieldRs1_encodeR _ _ _ _ _ _)) (fieldRs2_encodeR _ _ _ _ _ _))

theorem sraw (rd rs1 rs2 : RegId) : Statement (.sraw rd rs1 rs2) := fun x h =>
  rowMatches_of 54 (by decide) x _ (by cases x <;> first | rfl | simp [Instr.wf, needsRv64] at h) ((encodeR_masked _ _ _ _ _ _).trans (by decide))
    (congr (congr (congrArg Instr.sraw (fieldRd_encodeR _ _ _ _ _ _)) (fieldRs1_encodeR _ _ _ _ _ _)) (fieldRs2_encodeR _ _ _ _ _ _))

end RowMatches

end Sys2Proof.Laws
end

