-- ==== Sys2Proof/Laws/Service.lean ====
section
/-! SUPPORT. What no allocator operation does: it writes no byte outside the heap, and leaves a
sound heap; and every next state of an `ECALL`, said once (`execEcall_next`). -/

namespace Sys2Proof.Machine

/-- The high-water mark does not retreat, and no byte outside the heap changes (R274, R286). -/
def Outside (s u : State) : Prop :=
  s.hwm ≤ u.hwm ∧ ∀ a, (a < s.params.heapBase ∨ u.hwm ≤ a) → u.mem.read a = s.mem.read a

theorem Outside.refl (s : State) : Outside s s := ⟨le_rfl, fun _ _ => rfl⟩

theorem Outside.trans {s t u : State} (hp : t.params = s.params) (h : Outside s t) (k : Outside t u) :
    Outside s u := by
  refine ⟨h.1.trans k.1, fun a ha => ?_⟩
  rw [k.2 a (by rw [hp]; exact ha), h.2 a (by have := k.1; omega)]

/-- What an allocator operation keeps: bytes outside the heap, and a sound heap. -/
structure ServiceSafe (s u : State) : Prop where
  outside : Outside s u
  sound : HeapSound u

theorem ServiceSafe.refl (s : State) (h : HeapSound s) : ServiceSafe s s := ⟨Outside.refl s, h⟩

theorem ServiceSafe.draw (s : State) (h : HeapSound s) : ServiceSafe s s.draw := ⟨⟨le_rfl, fun _ _ => rfl⟩, h.draw⟩

theorem ServiceSafe.trans {s t u : State} (hp : t.params = s.params) (h : ServiceSafe s t) (k : ServiceSafe t u) :
    ServiceSafe s u := ⟨h.outside.trans hp k.outside, k.sound⟩

theorem ServiceSafe.refresh (s : State) (h : HeapSound s) (keep : Nat → Bool) : ServiceSafe s (s.refresh keep) := by
  refine ⟨⟨le_rfl, fun a ha => s.read_refresh keep a h.wf h.history fun hm => ?_⟩, h.refresh keep⟩
  have := h.metadata a hm
  change a < _ ∨ s.hwm ≤ a at ha
  omega

/-- A byte outside the heap lies in no payload. -/
theorem HeapSound.not_has {s : State} (h : HeapSound s) (b : Block) (hb : b ∈ s.blocks) (a : Nat)
    (ha : a < s.params.heapBase ∨ s.hwm ≤ a) : ¬ b.Has s.params.hdrSize a := by
  rintro ⟨h1, h2⟩
  have := tiles_mem _ _ _ _ h.heap.tiled b hb
  omega

theorem ServiceSafe.granted {s u : State} {b : Block} {z r : Bool} (h : Granted s u b z r) : ServiceSafe s u := by
  refine ⟨⟨h.hwm, fun a ha => h.bytes a fun hx => absurd hx ?_⟩, h.sound⟩
  have := h.sound.not_has b h.listed a
  rw [h.params] at this
  exact this ha

theorem ServiceSafe.allocate (s : State) (h : HeapSound s) (n : Nat) (z : Bool) :
    ServiceSafe s (s.allocate n z).1 := by
  rcases s.alloc_does h n z with e | ⟨u, b, r, e, -, hu⟩
  · rw [s.allocate_none n z e]; exact ServiceSafe.refl s h
  · rw [s.allocate_some u b n z e]; exact (ServiceSafe.granted hu).trans hu.params (ServiceSafe.refresh u hu.sound keepNone)

theorem ServiceSafe.answerNull (s : State) (h : HeapSound s) : ServiceSafe s s.answerNull.1 :=
  ServiceSafe.trans (t := s.draw) rfl (ServiceSafe.draw s h) (ServiceSafe.refresh s.draw h.draw keepNone)

/-- `malloc` and `calloc` (R277, R280, U9). -/
theorem ServiceSafe.request (s : State) (h : HeapSound s) (n : Nat) (z : Bool) :
    ServiceSafe s (s.request n z).1 := by
  unfold State.request
  split
  · split
    · exact ServiceSafe.answerNull s h
    · exact ServiceSafe.trans (t := s.draw) rfl (ServiceSafe.draw s h) (ServiceSafe.allocate s.draw h.draw n z)
  · exact ServiceSafe.allocate s h n z

theorem ServiceSafe.freeBlock (s : State) (h : HeapSound s) (before after : List Block) (b : Block)
    (hs : s.blocks = before ++ b :: after) (hb : b.free = false) : ServiceSafe s (s.freeBlock ⟨before, b, after⟩) := by
  have hr := (s.release_does h before after b hs hb).1
  exact ServiceSafe.trans (t := s.release ⟨before, b, after⟩) rfl ⟨⟨le_rfl, fun _ _ => rfl⟩, hr⟩
    (ServiceSafe.refresh _ hr keepNone)

theorem ServiceSafe.resizeInPlace (s : State) (h : HeapSound s) (f : Found) (n : Nat)
    (hs : s.blocks = f.before ++ f.block :: f.after) (hb : f.block.free = false)
    (hle : roundUp s.params.allocAlign n ≤ roomAt s.params.hdrSize f.block f.after) :
    ServiceSafe s (s.resizeInPlace f n) := by
  obtain ⟨k1, k2, -, -, k5⟩ := s.resizeInPlace_does h f n hs hb hle
  refine ⟨⟨le_rfl, fun a ha => k5 a (fun hm => ?_) fun h1 h2 => ?_⟩, k1⟩
  · have := k1.metadata a hm
    change s.params.heapBase ≤ a ∧ a < s.hwm at this
    change a < _ ∨ s.hwm ≤ a at ha
    omega
  · refine absurd ⟨?_, h2⟩ (k1.not_has { f.block with size := s.keptSize f (roundUp s.params.allocAlign n) }
      (by rw [State.resizeInPlace_blocks]; simp) a ha)
    show f.block.base + s.params.hdrSize ≤ a
    omega

/-- The copy of R284 into a block of the list. -/
theorem ServiceSafe.copyPayload (s : State) (h : HeapSound s) (c : Block) (hc : c ∈ s.blocks) (src n : Nat)
    (hn : n ≤ c.size) : ServiceSafe s (s.copyPayload src (c.base + s.params.hdrSize) n) := by
  have htop := h.hwm_le
  have hm := tiles_mem _ _ _ _ h.heap.tiled c hc
  refine ⟨⟨le_rfl, fun a ha => Memory.read_copyBytes_other _ _ _ _ _ _ h.wf fun i hi => ?_⟩, h.copyPayload ..⟩
  rw [Xlen.addrMod_of_lt _ _ (by omega)]
  change a < _ ∨ s.hwm ≤ a at ha
  omega

/-- `realloc` of an allocated block (R282, R284, R285, U9). -/
theorem ServiceSafe.resize (s : State) (h : HeapSound s) (before after : List Block) (b : Block)
    (hs : s.blocks = before ++ b :: after) (hb : b.free = false) (n : Nat) :
    ServiceSafe s (s.resize ⟨before, b, after⟩ n).1 := by
  unfold State.resize
  split
  · exact ServiceSafe.answerNull s h
  · split
    · next hle =>
      rw [Found.capacity_eq] at hle
      exact ServiceSafe.resizeInPlace s h ⟨before, b, after⟩ n hs hb hle
    · rcases s.alloc_does h n false with e | ⟨u, p, r, e, hsz, hu⟩
      · rw [s.resizeMoving_none _ n e]; exact ServiceSafe.refl s h
      · obtain ⟨bef, aft, hsp, e2⟩ := s.resizeMoving_some u h before after b p n _ r hs hb e hu
        rw [e2]
        have hru := (roundUp_spec s.params.allocAlign n (heapParams_of_valid s.params h.valid).2.2.1).2.1
        have hc := ServiceSafe.copyPayload u hu.sound p hu.listed (b.base + s.params.hdrSize) (min b.size n) (by omega)
        rw [hu.params] at hc
        have hf := ServiceSafe.freeBlock _ hc.sound bef aft b hsp hb
        exact (ServiceSafe.granted hu).trans hu.params (ServiceSafe.trans (State.copyPayload_params ..) hc hf)

/-- A block that the pointer argument names was looked up. -/
theorem State.lookup_of_pointerArg (s : State) (op : AllocOp) (f : Found) (h : s.pointerArg op = .block f) :
    s.lookup (s.x 11).toNat = some f := by
  cases op <;> simp only [State.pointerArg] at h
  case realloc => split at h <;> (try cases h); split at h <;> (try cases h); assumption
  case free => split at h <;> (try cases h); split at h <;> (try cases h); assumption
  all_goals cases h

/-- Every next state of an allocator call: a latched fault, or the operation's state with `pc` and `cycles`
advanced, and `a0` written unless the operation is `free`. -/
theorem allocatorCall_next (op : AllocOp) (s t : State) (h : Invariant s) (he : allocatorCall op s = .next t) :
    (∃ e, e ≠ .none ∧ t = s.raise e)
      ∨ ∃ u, ServiceKept s u ∧ ServiceSafe s u ∧ (t = u.advance s.seqPc
        ∨ ∃ v : Word, v.toNat < 2 ^ s.params.xlen.bits ∧ t = (u.setX 10 v).advance s.seqPc) := by
  have ret : ∀ r : State × Nat, ServiceKept s r.1 → ServiceSafe s r.1 → returnA0 s r = .next t →
      ∃ u, ServiceKept s u ∧ ServiceSafe s u ∧ (t = u.advance s.seqPc
        ∨ ∃ v : Word, v.toNat < 2 ^ s.params.xlen.bits ∧ t = (u.setX 10 v).advance s.seqPc) := by
    intro r hk hr he
    rcases complete_cases s.seqPc (r.1.setX 10 (s.params.xlen.narrow (BitVec.ofNat 64 r.2))) with ⟨_, e⟩ | ⟨_, e⟩
    · rw [returnA0, e] at he
      cases he
      exact ⟨r.1, hk, hr, .inr ⟨_, Xlen.narrow_lt .., rfl⟩⟩
    · rw [returnA0, e] at he; cases he
  have fin : ∀ u : State, ServiceKept s u → ServiceSafe s u → complete s.seqPc u = .next t →
      ∃ u, ServiceKept s u ∧ ServiceSafe s u ∧ (t = u.advance s.seqPc
        ∨ ∃ v : Word, v.toNat < 2 ^ s.params.xlen.bits ∧ t = (u.setX 10 v).advance s.seqPc) := by
    intro u hk hu he
    rcases complete_cases s.seqPc u with ⟨_, e⟩ | ⟨_, e⟩
    · rw [e] at he; cases he; exact ⟨u, hk, hu, .inl rfl⟩
    · rw [e] at he; cases he
  have same := ServiceSafe.refl s h.toHeapSound
  have req := ServiceSafe.request s h.toHeapSound
  unfold allocatorCall at he
  split at he
  · cases he
  · split at he
    · cases he; exact .inl ⟨_, by simp, rfl⟩
    · split at he
      · cases he; exact .inl ⟨_, by simp [State.metadataFault], rfl⟩
      · right
        generalize hpa : s.pointerArg op = p at he
        cases op <;> cases p <;> simp only [runService] at he
        case realloc.block f =>
          obtain ⟨l1, l2, _⟩ := s.lookup_some _ f (s.lookup_of_pointerArg _ f hpa)
          exact ret _ (ServiceKept.resize ..)
            (ServiceSafe.resize s h.toHeapSound _ _ _ l1 l2 (s.x 12).toNat) he
        case free.block f =>
          obtain ⟨l1, l2, _⟩ := s.lookup_some _ f (s.lookup_of_pointerArg _ f hpa)
          exact fin _ (ServiceKept.freeBlock ..) (ServiceSafe.freeBlock s h.toHeapSound _ _ _ l1 l2) he
        all_goals first
          | exact ret _ (ServiceKept.request ..) (req _ _) he
          | exact fin _ (ServiceKept.refl s) same he
          | exact ret (s, _) (ServiceKept.refl s) same he

/-- Every next state of `ECALL` (R252): a latched fault, the exit, or an allocator operation. -/
theorem execEcall_next (s t : State) (h : Invariant s) (he : execEcall s = .next t) :
    (∃ e, e ≠ .none ∧ t = s.raise e) ∨ t = s.halt.advance s.seqPc
      ∨ ∃ u, ServiceKept s u ∧ ServiceSafe s u ∧ (t = u.advance s.seqPc
        ∨ ∃ v : Word, v.toNat < 2 ^ s.params.xlen.bits ∧ t = (u.setX 10 v).advance s.seqPc) := by
  unfold execEcall at he
  split at he
  · rcases complete_cases s.seqPc s.halt with ⟨_, e⟩ | ⟨_, e⟩
    · rw [exitCall, e] at he; cases he; exact .inr (.inl rfl)
    · rw [exitCall, e] at he; cases he
  · split at he
    · split at he
      · rcases allocatorCall_next _ s t h he with h | h
        · exact .inl h
        · exact .inr (.inr h)
      · cases he; exact .inl ⟨_, by simp, rfl⟩
    · cases he; exact .inl ⟨_, by simp, rfl⟩

end Sys2Proof.Machine
end

