-- ==== Sys2Proof/Tests/Slice0.lean ====
section
/-! SUPPORT. The model's own tests: well-formedness, decoding of words written out from the spec's
encodings, one step per instruction against spec/95_test_vectors.md, and a witness for the hypotheses
of every statement of Certificates/Slice0/Obligations.lean. Expected results are the spec's. -/

namespace Sys2Proof.Tests

-- The kernel evaluates these tests one after another: each parallel one would hold a thread and its stack.
set_option Elab.async false

open Sys2Proof.Machine

/-! ### Builders -/

/-- The parameters of the vectors: one word at 0x100, the heap of program P4. -/
def vec (x : Xlen) (w : InstrWord) : Params :=
  { Params.atReset with xlen := x, textBase := 0x100, imem := [w], entry := 0x100 }

/-- The start of a vector: the registers that are not zero, `alignedAddresses`, memory; `STEP` accepted. -/
def start (x : Xlen) (w : InstrWord) (before : List (RegId × Word)) (aligned : Bool) (m : Memory) : State :=
  before.foldl (fun s p => s.setX p.1 p.2)
    { State.ofParams (vec x w) with
      regs := Vector.replicate 31 0, alignedAddresses := aligned, mem := m, runState := .running .step false }

/-- The memory of V5. -/
def image : Memory :=
  [(0x2000, 0x80), (0x2001, 0x91), (0x2002, 0xA2), (0x2003, 0xB3), (0x2004, 0xC4), (0x2005, 0xD5),
    (0x2006, 0xE6), (0x2007, 0xF7), (0x2008, 0x08)]

/-- The memory of V5's row that wraps modulo `2^32`. -/
def wrapImage : Memory := [(0, 0x33), (1, 0x44), (0xFFFFFFFE, 0x11), (0xFFFFFFFF, 0x22)]

/-- The outcome is a next state with the property. -/
def holds (o : Outcome) (p : State → Bool) : Bool :=
  match o with
  | .next t => p t
  | .fault _ => false
  | .refused _ => false

theorem exists_of_holds {o : Outcome} {p : State → Bool} (h : holds o p = true) :
    ∃ t, o = .next t ∧ p t = true := by
  cases o with
  | next t => exact ⟨t, rfl, h⟩
  | fault r => cases h
  | refused r => cases h

/-- The step counts one instruction and ends in Ready with this `pc`, these registers and these bytes. -/
def gives (s : State) (pc : Word) (regs : List (RegId × Word)) (bytes : List (Nat × Byte)) : Bool :=
  holds (step s) fun t => t.pc == pc && t.cycles == s.cycles + 1 && t.runState == .ready && t.err == .none
    && regs.all (fun p => t.x p.1 == p.2) && bytes.all (fun p => t.mem.read p.1 == p.2)

/-- The step latches the fault and halts, and nothing else changes. -/
def raises (s : State) (e : Err) : Bool :=
  holds (step s) fun t => t == { s with err := e, runState := .halted }

/-! ### Well-formedness: each check refuses an ill-formed term -/

theorem test_wf_refuses_odd_offsets :
    (Instr.jal 1 3).wf .rv32 = false ∧ (Instr.beq 1 2 1).wf .rv32 = false ∧ (Instr.bne 1 2 (-1)).wf .rv64 = false
      ∧ (Instr.blt 1 2 5).wf .rv32 = false ∧ (Instr.bge 1 2 7).wf .rv32 = false
      ∧ (Instr.bltu 1 2 9).wf .rv64 = false ∧ (Instr.bgeu 1 2 4095).wf .rv32 = false
      ∧ (Instr.jal 1 2).wf .rv32 = true ∧ (Instr.beq 1 2 (-4096)).wf .rv32 = true := by decide

theorem test_wf_refuses_long_shifts :
    (Instr.slli 1 2 32).wf .rv32 = false ∧ (Instr.srli 1 2 63).wf .rv32 = false
      ∧ (Instr.srai 1 2 32).wf .rv32 = false ∧ (Instr.slli 1 2 31).wf .rv32 = true
      ∧ (Instr.srai 1 2 63).wf .rv64 = true := by decide

theorem test_wf_refuses_rv64_forms :
    [Instr.ld 1 2 0, .lwu 1 2 0, .sd 1 2 0, .addiw 1 2 0, .slliw 1 2 0, .srliw 1 2 0, .sraiw 1 2 0,
      .addw 1 2 3, .subw 1 2 3, .sllw 1 2 3, .srlw 1 2 3, .sraw 1 2 3].all
      (fun i => !i.wf .rv32 && i.wf .rv64) = true := by decide

/-! ### Decoding: words written out field by field from the columns of R101 to R116 -/

theorem test_decode_integer_immediate :
    decode .rv32 (0x80000#20 ++ 0b01010#5 ++ 0b0110111#7) = .ok (.lui 10 0x80000)
      ∧ decode .rv32 (0xFFFFF#20 ++ 0b00001#5 ++ 0b0010111#7) = .ok (.auipc 1 0xFFFFF)
      ∧ decode .rv32 (0xFFF#12 ++ 0b01011#5 ++ 0b000#3 ++ 0b01010#5 ++ 0b0010011#7) = .ok (.addi 10 11 (-1))
      ∧ decode .rv32 (0x800#12 ++ 0b01011#5 ++ 0b010#3 ++ 0b01010#5 ++ 0b0010011#7) = .ok (.slti 10 11 (-2048))
      ∧ decode .rv32 (0x001#12 ++ 0b01011#5 ++ 0b011#3 ++ 0b01010#5 ++ 0b0010011#7) = .ok (.sltiu 10 11 1)
      ∧ decode .rv32 (0x7FF#12 ++ 0b01011#5 ++ 0b100#3 ++ 0b01010#5 ++ 0b0010011#7) = .ok (.xori 10 11 2047)
      ∧ decode .rv32 (0x001#12 ++ 0b01011#5 ++ 0b110#3 ++ 0b01010#5 ++ 0b0010011#7) = .ok (.ori 10 11 1)
      ∧ decode .rv32 (0x0FF#12 ++ 0b01011#5 ++ 0b111#3 ++ 0b01010#5 ++ 0b0010011#7) = .ok (.andi 10 11 255)
      ∧ decode .rv64 (0b000000#6 ++ 0b100000#6 ++ 0b01011#5 ++ 0b001#3 ++ 0b01010#5 ++ 0b0010011#7) = .ok (.slli 10 11 32)
      ∧ decode .rv32 (0b0000000#7 ++ 0b11111#5 ++ 0b01011#5 ++ 0b101#3 ++ 0b01010#5 ++ 0b0010011#7) = .ok (.srli 10 11 31)
      ∧ decode .rv32 (0b0100000#7 ++ 0b00100#5 ++ 0b01011#5 ++ 0b101#3 ++ 0b01010#5 ++ 0b0010011#7) = .ok (.srai 10 11 4)
      ∧ decode .rv64 (0x001#12 ++ 0b01011#5 ++ 0b000#3 ++ 0b01010#5 ++ 0b0011011#7) = .ok (.addiw 10 11 1)
      ∧ decode .rv64 (0b0000000#7 ++ 0b11111#5 ++ 0b01011#5 ++ 0b001#3 ++ 0b01010#5 ++ 0b0011011#7) = .ok (.slliw 10 11 31)
      ∧ decode .rv64 (0b0000000#7 ++ 0b00100#5 ++ 0b01011#5 ++ 0b101#3 ++ 0b01010#5 ++ 0b0011011#7) = .ok (.srliw 10 11 4)
      ∧ decode .rv64 (0b0100000#7 ++ 0b00100#5 ++ 0b01011#5 ++ 0b101#3 ++ 0b01010#5 ++ 0b0011011#7) = .ok (.sraiw 10 11 4) := by
  decide +kernel

theorem test_decode_integer_register :
    decode .rv32 (0b0000000#7 ++ 0b01100#5 ++ 0b01011#5 ++ 0b000#3 ++ 0b01010#5 ++ 0b0110011#7) = .ok (.add 10 11 12)
      ∧ decode .rv32 (0b0100000#7 ++ 0b01100#5 ++ 0b01011#5 ++ 0b000#3 ++ 0b01010#5 ++ 0b0110011#7) = .ok (.sub 10 11 12)
      ∧ decode .rv32 (0b0000000#7 ++ 0b01100#5 ++ 0b01011#5 ++ 0b001#3 ++ 0b01010#5 ++ 0b0110011#7) = .ok (.sll 10 11 12)
      ∧ decode .rv32 (0b0000000#7 ++ 0b01100#5 ++ 0b01011#5 ++ 0b010#3 ++ 0b01010#5 ++ 0b0110011#7) = .ok (.slt 10 11 12)
      ∧ decode .rv32 (0b0000000#7 ++ 0b01100#5 ++ 0b01011#5 ++ 0b011#3 ++ 0b01010#5 ++ 0b0110011#7) = .ok (.sltu 10 11 12)
      ∧ decode .rv32 (0b0000000#7 ++ 0b01100#5 ++ 0b01011#5 ++ 0b100#3 ++ 0b01010#5 ++ 0b0110011#7) = .ok (.xor 10 11 12)
      ∧ decode .rv32 (0b0000000#7 ++ 0b01100#5 ++ 0b01011#5 ++ 0b101#3 ++ 0b01010#5 ++ 0b0110011#7) = .ok (.srl 10 11 12)
      ∧ decode .rv32 (0b0100000#7 ++ 0b01100#5 ++ 0b01011#5 ++ 0b101#3 ++ 0b01010#5 ++ 0b0110011#7) = .ok (.sra 10 11 12)
      ∧ decode .rv32 (0b0000000#7 ++ 0b01100#5 ++ 0b01011#5 ++ 0b110#3 ++ 0b01010#5 ++ 0b0110011#7) = .ok (.or 10 11 12)
      ∧ decode .rv32 (0b0000000#7 ++ 0b01100#5 ++ 0b01011#5 ++ 0b111#3 ++ 0b01010#5 ++ 0b0110011#7) = .ok (.and 10 11 12)
      ∧ decode .rv64 (0b0000000#7 ++ 0b01100#5 ++ 0b01011#5 ++ 0b000#3 ++ 0b01010#5 ++ 0b0111011#7) = .ok (.addw 10 11 12)
      ∧ decode .rv64 (0b0100000#7 ++ 0b01100#5 ++ 0b01011#5 ++ 0b000#3 ++ 0b01010#5 ++ 0b0111011#7) = .ok (.subw 10 11 12)
      ∧ decode .rv64 (0b0000000#7 ++ 0b01100#5 ++ 0b01011#5 ++ 0b001#3 ++ 0b01010#5 ++ 0b0111011#7) = .ok (.sllw 10 11 12)
      ∧ decode .rv64 (0b0000000#7 ++ 0b01100#5 ++ 0b01011#5 ++ 0b101#3 ++ 0b01010#5 ++ 0b0111011#7) = .ok (.srlw 10 11 12)
      ∧ decode .rv64 (0b0100000#7 ++ 0b01100#5 ++ 0b01011#5 ++ 0b101#3 ++ 0b01010#5 ++ 0b0111011#7) = .ok (.sraw 10 11 12) := by
  decide +kernel

/-- Offsets of one bit each, so that a swapped bit of the scattered immediates shows (R105, R107). -/
theorem test_decode_control :
    decode .rv32 (0b1#1 ++ 0b0000000000#10 ++ 0b0#1 ++ 0x00#8 ++ 0b00001#5 ++ 0b1101111#7) = .ok (.jal 1 (-1048576))
      ∧ decode .rv32 (0b0#1 ++ 0b0000000001#10 ++ 0b0#1 ++ 0x00#8 ++ 0b00001#5 ++ 0b1101111#7) = .ok (.jal 1 2)
      ∧ decode .rv32 (0b0#1 ++ 0b0000000000#10 ++ 0b1#1 ++ 0x00#8 ++ 0b00001#5 ++ 0b1101111#7) = .ok (.jal 1 2048)
      ∧ decode .rv32 (0b0#1 ++ 0b0000000000#10 ++ 0b0#1 ++ 0x01#8 ++ 0b00001#5 ++ 0b1101111#7) = .ok (.jal 1 4096)
      ∧ decode .rv32 (0xFFC#12 ++ 0b01011#5 ++ 0b000#3 ++ 0b00001#5 ++ 0b1100111#7) = .ok (.jalr 1 11 (-4))
      ∧ decode .rv32 (0b1#1 ++ 0b000000#6 ++ 0b01011#5 ++ 0b01010#5 ++ 0b000#3 ++ 0b0000#4 ++ 0b0#1 ++ 0b1100011#7) = .ok (.beq 10 11 (-4096))
      ∧ decode .rv32 (0b0#1 ++ 0b000000#6 ++ 0b01011#5 ++ 0b01010#5 ++ 0b001#3 ++ 0b0000#4 ++ 0b1#1 ++ 0b1100011#7) = .ok (.bne 10 11 2048)
      ∧ decode .rv32 (0b0#1 ++ 0b100000#6 ++ 0b01011#5 ++ 0b01010#5 ++ 0b100#3 ++ 0b0000#4 ++ 0b0#1 ++ 0b1100011#7) = .ok (.blt 10 11 1024)
      ∧ decode .rv32 (0b0#1 ++ 0b000001#6 ++ 0b01011#5 ++ 0b01010#5 ++ 0b101#3 ++ 0b0000#4 ++ 0b0#1 ++ 0b1100011#7) = .ok (.bge 10 11 32)
      ∧ decode .rv32 (0b0#1 ++ 0b000000#6 ++ 0b01011#5 ++ 0b01010#5 ++ 0b110#3 ++ 0b1000#4 ++ 0b0#1 ++ 0b1100011#7) = .ok (.bltu 10 11 16)
      ∧ decode .rv32 (0b0#1 ++ 0b000000#6 ++ 0b01011#5 ++ 0b01010#5 ++ 0b111#3 ++ 0b0001#4 ++ 0b0#1 ++ 0b1100011#7) = .ok (.bgeu 10 11 2) := by
  decide +kernel

theorem test_decode_load_store :
    decode .rv32 (0xFFF#12 ++ 0b01011#5 ++ 0b000#3 ++ 0b01010#5 ++ 0b0000011#7) = .ok (.lb 10 11 (-1))
      ∧ decode .rv32 (0x001#12 ++ 0b01011#5 ++ 0b001#3 ++ 0b01010#5 ++ 0b0000011#7) = .ok (.lh 10 11 1)
      ∧ decode .rv32 (0x800#12 ++ 0b01011#5 ++ 0b010#3 ++ 0b01010#5 ++ 0b0000011#7) = .ok (.lw 10 11 (-2048))
      ∧ decode .rv64 (0x7FF#12 ++ 0b01011#5 ++ 0b011#3 ++ 0b01010#5 ++ 0b0000011#7) = .ok (.ld 10 11 2047)
      ∧ decode .rv32 (0x001#12 ++ 0b01011#5 ++ 0b100#3 ++ 0b01010#5 ++ 0b0000011#7) = .ok (.lbu 10 11 1)
      ∧ decode .rv32 (0x001#12 ++ 0b01011#5 ++ 0b101#3 ++ 0b01010#5 ++ 0b0000011#7) = .ok (.lhu 10 11 1)
      ∧ decode .rv64 (0x001#12 ++ 0b01011#5 ++ 0b110#3 ++ 0b01010#5 ++ 0b0000011#7) = .ok (.lwu 10 11 1)
      ∧ decode .rv32 (0b1111111#7 ++ 0b01010#5 ++ 0b01011#5 ++ 0b000#3 ++ 0b00000#5 ++ 0b0100011#7) = .ok (.sb 10 11 (-32))
      ∧ decode .rv32 (0b0000000#7 ++ 0b01010#5 ++ 0b01011#5 ++ 0b001#3 ++ 0b11111#5 ++ 0b0100011#7) = .ok (.sh 10 11 31)
      ∧ decode .rv32 (0b1000000#7 ++ 0b01010#5 ++ 0b01011#5 ++ 0b010#3 ++ 0b00001#5 ++ 0b0100011#7) = .ok (.sw 10 11 (-2047))
      ∧ decode .rv64 (0b0000001#7 ++ 0b01010#5 ++ 0b01011#5 ++ 0b011#3 ++ 0b00000#5 ++ 0b0100011#7) = .ok (.sd 10 11 32) := by
  decide +kernel

theorem test_decode_system :
    decode .rv32 (0x8#4 ++ 0x3#4 ++ 0x3#4 ++ 0b00010#5 ++ 0b000#3 ++ 0b00001#5 ++ 0b0001111#7) = .ok (.fence 8 3 3 2 1)
      ∧ decode .rv32 (0x000#12 ++ 0b00000#5 ++ 0b000#3 ++ 0b00000#5 ++ 0b1110011#7) = .ok .ecall
      ∧ decode .rv64 (0x001#12 ++ 0b00000#5 ++ 0b000#3 ++ 0b00000#5 ++ 0b1110011#7) = .ok .ebreak := by
  decide +kernel

/-- V1: the words that no row of either `XLEN` matches, and those only `XLEN = 64` has. -/
theorem test_decode_rejects :
    [0x00000000#32, 0xFFFFFFFF, 0x00000001, 0x00008082, 0x02B50533, 0x02B5053B, 0x0000100F, 0x00200073, 0x30200073,
      0x10500073, 0x000000F3, 0x30001073, 0xC0002573, 0x0205151B, 0x00A5C023, 0x0005F503, 0x00059067, 0x00B52463,
      0x20C58533, 0x40C59533, 0x0000002F, 0x00000053, 0x0000000B].all
        (fun w => (decode .rv32 w).toOption.isNone && (decode .rv64 w).toOption.isNone) = true
      ∧ [0x02051513#32, 0x42055513, 0x0005851B, 0x4005D51B, 0x0005B503, 0x0005E503, 0x00A5B023, 0x00C5853B].all
        (fun w => (decode .rv32 w).toOption.isNone && (decode .rv64 w).toOption.isSome) = true := by
  decide +kernel

/-- The host's form of the decoder, and a step that runs the placed word as the first one after reset. -/
theorem test_host_probe :
    decodeTableWord 32 0xFFF58513 = some (.addi 10 11 (-1)) ∧ decodeTableWord 32 0 = none
      ∧ holds (step (State.reset.withFetchWord 32 0xFFF00513)) (fun t => t.x 10 == -1 && t.cycles == 1) = true
      ∧ holds (step (State.reset.withFetchWord 32 0x00100073)) (fun t => t.pc == 4 && t.cycles == 1) = true := by
  decide +kernel

/-! ### One step per instruction: the rows of V2 to V6 -/

theorem test_lui : (gives (start .rv32 0x80000537 [] false image) 0x00000104 [(10, 0x80000000)] []
    && gives (start .rv64 0x80000537 [] false image) 0x0000000000000104 [(10, 0xFFFFFFFF80000000)] []
    && gives (start .rv32 0xFFFFF037 [] false image) 0x00000104 [(0, 0)] []) = true := by decide +kernel

theorem test_auipc : (gives (start .rv32 0xFFFFF517 [] false image) 0x00000104 [(10, 0xFFFFF100)] []
    && gives (start .rv64 0x80000517 [] false image) 0x0000000000000104 [(10, 0xFFFFFFFF80000100)] []) = true := by decide +kernel

theorem test_addi : (gives (start .rv32 0xFFF58513 [(11, 0x00000000)] false image) 0x00000104 [(10, 0xFFFFFFFF)] []
    && gives (start .rv32 0x7FF58513 [(11, 0x7FFFFFFF)] false image) 0x00000104 [(10, 0x800007FE)] []
    && gives (start .rv64 0x00158513 [(11, 0x00000000FFFFFFFF)] false image) 0x0000000000000104 [(10, 0x0000000100000000)] []) = true := by decide +kernel

theorem test_slti : (gives (start .rv32 0xFFF5A513 [(11, 0xFFFFFFFE)] false image) 0x00000104 [(10, 0x00000001)] []
    && gives (start .rv32 0x0005A513 [(11, 0x80000000)] false image) 0x00000104 [(10, 0x00000001)] []
    && gives (start .rv32 0x0055A513 [(11, 0x00000005)] false image) 0x00000104 [(10, 0x00000000)] []) = true := by decide +kernel

theorem test_sltiu : (gives (start .rv32 0xFFF5B513 [(11, 0xFFFFFFFE)] false image) 0x00000104 [(10, 0x00000001)] []
    && gives (start .rv32 0x0015B513 [(11, 0x00000000)] false image) 0x00000104 [(10, 0x00000001)] []
    && gives (start .rv64 0xFFF5B513 [(11, 0x00000000FFFFFFFF)] false image) 0x0000000000000104 [(10, 0x0000000000000001)] []) = true := by decide +kernel

theorem test_xori : gives (start .rv32 0xFFF5C513 [(11, 0x12345678)] false image) 0x00000104 [(10, 0xEDCBA987)] [] = true := by decide +kernel

theorem test_ori : gives (start .rv32 0x8005E513 [(11, 0x000000FF)] false image) 0x00000104 [(10, 0xFFFFF8FF)] [] = true := by decide +kernel

theorem test_andi : (gives (start .rv32 0xFF05F513 [(11, 0x12345678)] false image) 0x00000104 [(10, 0x12345670)] []
    && gives (start .rv32 0x0FF5F513 [(11, 0x12345678)] false image) 0x00000104 [(10, 0x00000078)] []) = true := by decide +kernel

theorem test_slli : (gives (start .rv32 0x01F59513 [(11, 0x00000003)] false image) 0x00000104 [(10, 0x80000000)] []
    && gives (start .rv64 0x03F59513 [(11, 0x0000000000000003)] false image) 0x0000000000000104 [(10, 0x8000000000000000)] []) = true := by decide +kernel

theorem test_srli : (gives (start .rv32 0x01F5D513 [(11, 0x80000000)] false image) 0x00000104 [(10, 0x00000001)] []
    && gives (start .rv64 0x0205D513 [(11, 0xFFFFFFFF00000000)] false image) 0x0000000000000104 [(10, 0x00000000FFFFFFFF)] []) = true := by decide +kernel

theorem test_srai : (gives (start .rv32 0x41F5D513 [(11, 0x80000000)] false image) 0x00000104 [(10, 0xFFFFFFFF)] []
    && gives (start .rv64 0x43C5D513 [(11, 0x8000000000000000)] false image) 0x0000000000000104 [(10, 0xFFFFFFFFFFFFFFF8)] []) = true := by decide +kernel

theorem test_addiw : (gives (start .rv64 0x0015851B [(11, 0x000000007FFFFFFF)] false image) 0x0000000000000104 [(10, 0xFFFFFFFF80000000)] []
    && gives (start .rv64 0x0005851B [(11, 0x1234567880000000)] false image) 0x0000000000000104 [(10, 0xFFFFFFFF80000000)] []) = true := by decide +kernel

theorem test_slliw : gives (start .rv64 0x01F5951B [(11, 0x0000000000000001)] false image) 0x0000000000000104 [(10, 0xFFFFFFFF80000000)] [] = true := by decide +kernel

theorem test_srliw : (gives (start .rv64 0x0005D51B [(11, 0xFFFFFFFF80000000)] false image) 0x0000000000000104 [(10, 0xFFFFFFFF80000000)] []
    && gives (start .rv64 0x0045D51B [(11, 0xFFFFFFFF80000000)] false image) 0x0000000000000104 [(10, 0x0000000008000000)] []) = true := by decide +kernel

theorem test_sraiw : gives (start .rv64 0x4045D51B [(11, 0x0000000080000000)] false image) 0x0000000000000104 [(10, 0xFFFFFFFFF8000000)] [] = true := by decide +kernel

theorem test_add : (gives (start .rv32 0x00C58533 [(11, 0xFFFFFFFF), (12, 0x00000001)] false image) 0x00000104 [(10, 0x00000000)] []
    && gives (start .rv64 0x00C58533 [(11, 0x00000000FFFFFFFF), (12, 0x0000000000000001)] false image) 0x0000000000000104 [(10, 0x0000000100000000)] []
    && gives (start .rv32 0x00C58033 [(11, 0x00000001), (12, 0x00000002)] false image) 0x00000104 [(0, 0)] []) = true := by decide +kernel

theorem test_sub : (gives (start .rv32 0x40C58533 [(11, 0x00000000), (12, 0x00000001)] false image) 0x00000104 [(10, 0xFFFFFFFF)] []
    && gives (start .rv32 0x40A50533 [(10, 0x00001234)] false image) 0x00000104 [(10, 0x00000000)] []) = true := by decide +kernel

theorem test_sll : (gives (start .rv32 0x00C59533 [(11, 0x00000001), (12, 0x00000021)] false image) 0x00000104 [(10, 0x00000002)] []
    && gives (start .rv64 0x00C59533 [(11, 0x0000000000000001), (12, 0x0000000000000041)] false image) 0x0000000000000104 [(10, 0x0000000000000002)] []) = true := by decide +kernel

theorem test_slt : (gives (start .rv32 0x00C5A533 [(11, 0x80000000), (12, 0x7FFFFFFF)] false image) 0x00000104 [(10, 0x00000001)] []
    && gives (start .rv32 0x00C5A533 [(11, 0x00000001), (12, 0x00000001)] false image) 0x00000104 [(10, 0x00000000)] []) = true := by decide +kernel

theorem test_sltu : (gives (start .rv32 0x00C5B533 [(11, 0x80000000), (12, 0x7FFFFFFF)] false image) 0x00000104 [(10, 0x00000000)] []
    && gives (start .rv32 0x00C03533 [(12, 0x00000005)] false image) 0x00000104 [(10, 0x00000001)] []) = true := by decide +kernel

theorem test_xor : gives (start .rv32 0x00C5C533 [(11, 0xFF00FF00), (12, 0x0FF00FF0)] false image) 0x00000104 [(10, 0xF0F0F0F0)] [] = true := by decide +kernel

theorem test_srl : (gives (start .rv32 0x00C5D533 [(11, 0x80000000), (12, 0x0000003F)] false image) 0x00000104 [(10, 0x00000001)] []
    && gives (start .rv64 0x00C5D533 [(11, 0x8000000000000000), (12, 0x000000000000003F)] false image) 0x0000000000000104 [(10, 0x0000000000000001)] []) = true := by decide +kernel

theorem test_sra : (gives (start .rv32 0x40C5D533 [(11, 0x80000000), (12, 0x0000003F)] false image) 0x00000104 [(10, 0xFFFFFFFF)] []
    && gives (start .rv32 0x40C5D533 [(11, 0xF0000000), (12, 0x00000024)] false image) 0x00000104 [(10, 0xFF000000)] []) = true := by decide +kernel

theorem test_or : gives (start .rv32 0x00C5E533 [(11, 0xFF00FF00), (12, 0x0FF00FF0)] false image) 0x00000104 [(10, 0xFFF0FFF0)] [] = true := by decide +kernel

theorem test_and : gives (start .rv32 0x00C5F533 [(11, 0xFF00FF00), (12, 0x0FF00FF0)] false image) 0x00000104 [(10, 0x0F000F00)] [] = true := by decide +kernel

theorem test_addw : (gives (start .rv64 0x00C5853B [(11, 0x000000007FFFFFFF), (12, 0x0000000000000001)] false image) 0x0000000000000104 [(10, 0xFFFFFFFF80000000)] []
    && gives (start .rv64 0x00C5853B [(11, 0xFFFFFFFF00000001), (12, 0xFFFFFFFF00000002)] false image) 0x0000000000000104 [(10, 0x0000000000000003)] []) = true := by decide +kernel

theorem test_subw : (gives (start .rv64 0x40C5853B [(11, 0x0000000000000000), (12, 0x0000000000000001)] false image) 0x0000000000000104 [(10, 0xFFFFFFFFFFFFFFFF)] []
    && gives (start .rv64 0x40C5853B [(11, 0x0000000080000000), (12, 0x0000000000000001)] false image) 0x0000000000000104 [(10, 0x000000007FFFFFFF)] []) = true := by decide +kernel

theorem test_sllw : (gives (start .rv64 0x00C5953B [(11, 0x0000000000000001), (12, 0x000000000000003F)] false image) 0x0000000000000104 [(10, 0xFFFFFFFF80000000)] []
    && gives (start .rv64 0x00C5953B [(11, 0x00000000FFFFFFFF), (12, 0x0000000000000020)] false image) 0x0000000000000104 [(10, 0xFFFFFFFFFFFFFFFF)] []) = true := by decide +kernel

theorem test_srlw : gives (start .rv64 0x00C5D53B [(11, 0xFFFFFFFF80000000), (12, 0x000000000000001F)] false image) 0x0000000000000104 [(10, 0x0000000000000001)] [] = true := by decide +kernel

theorem test_sraw : (gives (start .rv64 0x40C5D53B [(11, 0x0000000080000000), (12, 0x000000000000001F)] false image) 0x0000000000000104 [(10, 0xFFFFFFFFFFFFFFFF)] []
    && gives (start .rv64 0x40C5D53B [(11, 0x000000007FFFFFFF), (12, 0x0000000000000028)] false image) 0x0000000000000104 [(10, 0x00000000007FFFFF)] []) = true := by decide +kernel

theorem test_jal : (gives (start .rv32 0xF01FF0EF [] false image) 0x00000000 [(1, 0x00000104)] []
    && gives (start .rv64 0x7FDFF06F [] false image) 0x00000000001000FC [(0, 0)] []
    && raises (start .rv32 0x006000EF [] false image) (.instrAddrMisaligned 0x100 0x106)) = true := by decide +kernel

theorem test_jalr : (gives (start .rv32 0xFFC580E7 [(11, 0x00000010)] false image) 0x0000000C [(1, 0x00000104)] []
    && raises (start .rv32 0x000585E7 [(11, 0x00000013)] false image) (.instrAddrMisaligned 0x100 0x12)
    && gives (start .rv64 0x000580E7 [(11, 0x0000000100000000)] false image) 0x0000000100000000 [(1, 0x0000000000000104)] []) = true := by decide +kernel

theorem test_beq : (gives (start .rv32 0xFCB500E3 [(10, 0x00000005), (11, 0x00000005)] false image) 0x000000C0 [] []
    && gives (start .rv32 0xFCB500E3 [(10, 0x00000005), (11, 0x00000006)] false image) 0x00000104 [] []) = true := by decide +kernel

theorem test_bne : (gives (start .rv32 0xFCB510E3 [(10, 0x00000005), (11, 0x00000006)] false image) 0x000000C0 [] []
    && gives (start .rv32 0xFCB510E3 [(10, 0x00000000), (11, 0x00000000)] false image) 0x00000104 [] []
    && raises (start .rv32 0x00B51363 [(10, 0x00000001), (11, 0x00000002)] false image) (.instrAddrMisaligned 0x100 0x106)) = true := by decide +kernel

theorem test_blt : (gives (start .rv32 0xFCB540E3 [(10, 0xFFFFFFFF), (11, 0x00000000)] false image) 0x000000C0 [] []
    && gives (start .rv32 0xFCB540E3 [(10, 0x00000000), (11, 0xFFFFFFFF)] false image) 0x00000104 [] []
    && gives (start .rv64 0x00B54463 [(10, 0x00000000FFFFFFFF), (11, 0x0000000000000000)] false image) 0x0000000000000104 [] []) = true := by decide +kernel

theorem test_bge : (gives (start .rv32 0xFCB550E3 [(10, 0x00000000), (11, 0xFFFFFFFF)] false image) 0x000000C0 [] []
    && gives (start .rv32 0xFCB550E3 [(10, 0x80000000), (11, 0x80000000)] false image) 0x000000C0 [] []) = true := by decide +kernel

theorem test_bltu : (gives (start .rv32 0xFCB560E3 [(10, 0x00000000), (11, 0xFFFFFFFF)] false image) 0x000000C0 [] []
    && gives (start .rv32 0xFCB560E3 [(10, 0xFFFFFFFF), (11, 0x00000000)] false image) 0x00000104 [] []
    && gives (start .rv64 0x00B56463 [(10, 0x00000000FFFFFFFF), (11, 0x0000000100000000)] false image) 0x0000000000000108 [] []) = true := by decide +kernel

theorem test_bgeu : (gives (start .rv32 0xFCB570E3 [(10, 0xFFFFFFFF), (11, 0x00000000)] false image) 0x000000C0 [] []
    && gives (start .rv32 0xFCB570E3 [(10, 0x00000000), (11, 0x00000001)] false image) 0x00000104 [] []) = true := by decide +kernel

theorem test_lb : (gives (start .rv32 0x00058503 [(11, 0x00002000)] false image) 0x00000104 [(10, 0xFFFFFF80)] []
    && gives (start .rv32 0xFFF58503 [(11, 0x00002009)] false image) 0x00000104 [(10, 0x00000008)] []) = true := by decide +kernel

theorem test_lbu : gives (start .rv32 0x0005C503 [(11, 0x00002000)] false image) 0x00000104 [(10, 0x00000080)] [] = true := by decide +kernel

theorem test_lh : (gives (start .rv32 0x00059503 [(11, 0x00002000)] false image) 0x00000104 [(10, 0xFFFF9180)] []
    && raises (start .rv32 0x00159503 [(11, 0x00002000)] true image) (.alignmentError 0x2001 .half false)) = true := by decide +kernel

theorem test_lhu : (gives (start .rv32 0x0005D503 [(11, 0x00002000)] false image) 0x00000104 [(10, 0x00009180)] []
    && gives (start .rv32 0x0015D503 [(11, 0x00002000)] false image) 0x00000104 [(10, 0x0000A291)] []
    && raises (start .rv32 0x0015D503 [(11, 0x00002000)] true image) (.alignmentError 0x2001 .half false)) = true := by decide +kernel

theorem test_lw : (raises (start .rv32 0x0015A503 [(11, 0x00002000)] true image) (.alignmentError 0x2001 .word false)
    && raises (start .rv32 0x0025A003 [(11, 0x00002000)] true image) (.alignmentError 0x2002 .word false)
    && gives (start .rv32 0xFFE5A503 [(11, 0x00000000)] false wrapImage) 0x00000104 [(10, 0x44332211)] []) = true := by decide +kernel

theorem test_lwu : gives (start .rv64 0x0005E503 [(11, 0x0000000000002000)] false image) 0x0000000000000104 [(10, 0x00000000B3A29180)] [] = true := by decide +kernel

theorem test_ld : (gives (start .rv64 0x0015B503 [(11, 0x0000000000002000)] false image) 0x0000000000000104 [(10, 0x08F7E6D5C4B3A291)] []
    && raises (start .rv64 0x0045B503 [(11, 0x0000000000002000)] true image) (.alignmentError 0x2004 .long false)) = true := by decide +kernel

theorem test_sb : gives (start .rv32 0x00A58023 [(10, 0x12345678), (11, 0x00002001)] false image) 0x00000104 [] [(0x2000, 0x80), (0x2001, 0x78), (0x2002, 0xA2)] = true := by decide +kernel

theorem test_sh : (gives (start .rv32 0x00A59123 [(10, 0x12345678), (11, 0x00002000)] false image) 0x00000104 [] [(0x2001, 0x91), (0x2002, 0x78), (0x2003, 0x56), (0x2004, 0xC4)]
    && raises (start .rv32 0x00A590A3 [(10, 0x12345678), (11, 0x00002000)] true image) (.alignmentError 0x2001 .half true)) = true := by decide +kernel

theorem test_sw : (gives (start .rv32 0x00A5A1A3 [(10, 0x12345678), (11, 0x00002000)] false image) 0x00000104 [] [(0x2002, 0xA2), (0x2003, 0x78), (0x2004, 0x56), (0x2005, 0x34), (0x2006, 0x12), (0x2007, 0xF7)]
    && raises (start .rv32 0x00A5A1A3 [(10, 0x12345678), (11, 0x00002000)] true image) (.alignmentError 0x2003 .word true)
    && gives (start .rv64 0x00A5A023 [(10, 0x1122334455667788), (11, 0x0000000000002000)] false image) 0x0000000000000104 [] [(0x2000, 0x88), (0x2003, 0x55), (0x2004, 0xC4)]) = true := by decide +kernel

theorem test_sd : gives (start .rv64 0x00A5B023 [(10, 0x1122334455667788), (11, 0x0000000000002000)] false image) 0x0000000000000104 [] [(0x2000, 0x88), (0x2001, 0x77), (0x2006, 0x22), (0x2007, 0x11), (0x2008, 0x08)] = true := by decide +kernel

theorem test_fence : gives (start .rv32 0x0FF0000F [] false image) 0x104 [(10, 0)] [(0x2000, 0x80)] = true := by decide +kernel

theorem test_ebreak : (holds (step (start .rv32 0x00100073 [] false []))
      (fun t => t == { start .rv32 0x00100073 [] false [] with runState := .atBreakpoint })
    && gives { start .rv32 0x00100073 [] false [] with runState := .running .step true } 0x104 [] []) = true := by decide +kernel

theorem test_ecall : (holds (step (start .rv32 0x73 [(10, 10)] false []))
      (fun t => t.pc == 0x104 && t.cycles == 1 && t.endedCleanly)
    && raises (start .rv32 0x73 [(10, 1)] false []) (.unsupportedEcall 0x100 1 0)
    && raises (start .rv32 0x73 [(10, 0x3CC), (16, 9)] false []) (.unsupportedEcall 0x100 0x3CC 9)
    && raises (start .rv64 0x73 [(10, 0x10000000A)] false []) (.unsupportedEcall 0x100 0x10000000A 0)) = true := by decide +kernel

theorem test_ecall_allocator : (gives (start .rv32 0x73 [(10, 0x3CC), (16, 5)] false []) 0x104 [(10, 0)] []
    && gives (start .rv32 0x73 [(10, 0x3CC), (16, 4)] false []) 0x104 [(10, 0x3CC)] []
    && raises (start .rv32 0x73 [(10, 0x3CC), (11, 0x40), (16, 4)] false []) (.invalidFree 0x100 0x40)
    && holds (step (start .rv32 0x73 [(10, 0x3CC), (11, 16), (16, 1)] false []))
      (fun t => t.x 10 == 0x10008010 && t.hwm == 0x10008020 && t.numActiveBlocks == 1
        && t.origin 0x1000800F == some .metadata && t.origin 0x10008010 == none)
    && holds (step { start .rv32 0x73 [(10, 0x3CC), (11, 0x10008010), (16, 4)] false [] with
        blocks := [⟨0x10008000, 8, false⟩, ⟨0x10008018, 8, true⟩], hwm := 0x10008030, numActiveBlocks := 1 })
      (fun t => t.blocks == [⟨0x10008000, 32, true⟩] && t.origin 0x10008018 == some .metadata
        && t.origin 0x10008017 == none)) = true := by decide +kernel

/-! ### The engine, the ports and memory: T1 to T4 and V7 -/

/-- The machine between commands, with these requests waiting. -/
def waiting (r : RunState) (requests : List PortRequest) : State :=
  { start .rv32 0x13 [] true [] with runState := r, requests := requests }

theorem test_engine_faults : (raises { start .rv32 0x13 [] false [] with pc := 0x104 } (.fetchFault 0x104)
    && raises { start .rv32 0x13 [] false [] with pc := 0xFC } (.fetchFault 0xFC)
    && raises (start .rv32 0x02B50533 [] false []) (.decodeError 0x100 0x02B50533)
    && raises { start .rv32 0x13 [] false [] with params := { vec .rv32 0x13 with maxSteps := some 0 } }
      (.stepLimitExceeded 0)) = true := by decide +kernel

theorem test_memory_widths : (match (start .rv64 0 [] false []).memWrite 0x1000 .long 0x1122334455667788 with
    | .error _ => false
    | .ok t => decide (t.memRead 0x1000 .word = .ok 0x55667788 ∧ t.memRead 0x1004 .word = .ok 0x11223344
        ∧ t.memRead 0x1006 .half = .ok 0x1122 ∧ t.memRead 0x1007 .byte = .ok 0x11)) = true := by decide +kernel

theorem test_host_alignment : (holds (step (waiting .ready [.store .half 0x1001 0xBEEF]))
      (fun t => t.mem == [] && t.replies == [.alignmentError 0x1001 .half true] && t.err == .none)
    && holds (step (waiting .halted [.store .half 0x1002 0xBEEF]))
      (fun t => t.mem == [(0x1002, 0xEF), (0x1003, 0xBE)] && t.replies == [])
    && holds (step { waiting .halted [.store .half 0x1000800E 0] with blocks := [⟨0x10008000, 16, false⟩] })
      (fun t => t.headersTouched && t.origin 0x1000800F == some .data)) = true := by decide +kernel

theorem test_removeByte : (holds (step { waiting .ready [.removeByte 0x1001] with
      mem := [(0x1000, 0xDD), (0x1001, 0xCC), (0x1002, 0xBB), (0x1003, 0xAA)] })
      (fun t => t.memRead 0x1000 .word == .ok 0xAABB00DD)
    && holds (step { waiting .ready [.removeByte 0x1000800F] with blocks := [⟨0x10008000, 16, false⟩] })
      (fun t => t.headersTouched)
    && holds (step { waiting .ready [.removeByte 0x10008010] with blocks := [⟨0x10008000, 16, false⟩] })
      (fun t => !t.headersTouched)) = true := by decide +kernel

theorem test_wordOffsetMask : [0x1000#64, 0x1001, 0x1002, 0x7FFFFFFF].map wordOffsetMask
    = [0x000000FF#32, 0x0000FF00, 0x00FF0000, 0xFF000000] := by decide +kernel

/-! ### Witnesses: states and operands that meet the hypotheses of the statements

Each theorem is named after the statement it serves; where one statement has several clauses, its
theorem has a witness for each. -/

theorem underLimit_of_none {s : State} (h : s.params.maxSteps = none) : s.underLimit := by
  intro m hm
  rw [h] at hm
  cases hm

/-- A command in progress at the word. -/
def running (c : Command) (resume : Bool) (w : InstrWord) : State :=
  { start .rv32 w [] false [] with runState := .running c resume }

/-- The last state in which an instruction can complete (R29). -/
def lastCycle : State := { start .rv32 0x13 [] false [] with cycles := 0xFFFFFFFFFFFFFFFE }

/-- The next state after it. -/
def fullCycle : State := { lastCycle with cycles := BitVec.allOnes 64 }

theorem witness_DecodeOfEncodeIsIdentity :
    (Instr.jal 31 (-2)).wf .rv32 = true ∧ (Instr.slli 31 0 31).wf .rv32 = true
      ∧ (Instr.slli 0 31 63).wf .rv64 = true ∧ (Instr.sraiw 1 2 31).wf .rv64 = true := by decide

theorem witness_EncodeOfDecodeIsIdentity : decode .rv32 0xFF1FFF6F#32 = .ok (.jal 30 (-16)) := by decide +kernel

theorem witness_DecodeFollowsTheTable :
    (∃ r ∈ opcodeTable, r.has .rv32 = true ∧ 0xFFF58513#32 &&& r.mask = r.pattern)
      ∧ (∃ (k : Nat) (h : k < opcodeTable.length), opcodeTable[k].hits .rv32 0x00000037#32 = true)
      ∧ (running .run false 0).runState = .running .run false ∧ (running .run false 0).underLimit
      ∧ (running .run false 0).Fetches 0
      ∧ ∀ r ∈ opcodeTable, ¬ (r.has (running .run false 0).params.xlen = true ∧ 0#32 &&& r.mask = r.pattern) :=
  ⟨by decide +kernel, ⟨0, by decide, by decide⟩, rfl, underLimit_of_none rfl,
    by unfold State.Fetches; decide +kernel, by decide +kernel⟩

theorem witness_SystemWordsAreEcallAndEbreak : ∃ w : InstrWord,
    w.extractLsb' 0 7 = 0x73#7 ∧ w ≠ 0x00000073#32 ∧ w ≠ 0x00100073#32 := ⟨0x000000F3, by decide⟩

theorem witness_MiscMemWordsAreFence :
    (0x8330000F#32).extractLsb' 0 7 = 0x0F#7 ∧ (0x8330000F#32).extractLsb' 12 3 = 0#3
      ∧ (0x0000100F#32).extractLsb' 0 7 = 0x0F#7 ∧ (0x0000100F#32).extractLsb' 12 3 ≠ 0#3 := by decide

theorem witness_ShortPatternsAreRejected : (0x00008082#32).extractLsb' 0 2 ≠ 0b11#2 := by decide

theorem witness_Rv64EncodingsFailOnRv32 :
    (Instr.slli 1 1 32).wf .rv64 = true ∧ (Instr.slli 1 1 32).wf .rv32 = false ∧ lastCycle.params.xlen = .rv32 := by
  decide

theorem witness_ResetValues :
    (vec .rv32 0x13).dataInit.length ≤ 2 ^ (vec .rv32 0x13).xlen.bits
      ∧ (waiting .halted [.reset]).params = vec .rv32 0x13 ∧ (waiting .halted [.reset]).isRunning = false
      ∧ (waiting .halted [.reset]).requests = .reset :: [] := by decide +kernel

theorem witness_InvariantHoldsAfterReset : (vec .rv32 0x13).valid = true := by decide +kernel

theorem reset_inv : State.reset.inv = true := by decide +kernel

theorem witness_StepKeepsInvariant : ∃ s t : State, s.inv = true ∧ step s = .next t ∧ t.x 10 = 0xFFFFFFFF :=
  have h : (start .rv32 0xFFF00513 [] true image).inv = true := by decide +kernel
  have e := exists_of_holds (o := step (start .rv32 0xFFF00513 [] true image)) (p := fun t => t.x 10 == 0xFFFFFFFF)
    (by decide +kernel)
  e.elim fun t ht => ⟨_, t, h, ht.1, by simpa using ht.2⟩

theorem witness_HostResetRestores :
    (waiting .atBreakpoint [.reset]).isRunning = false ∧ (waiting .atBreakpoint [.reset]).requests = .reset :: [] := by
  decide

theorem witness_StepRunsTheDecodedInstruction : ∀ p ∈ [(Command.step, false, 0x13#32), (.runToBp, true, 0x00100073#32)],
    (running p.1 p.2.1 p.2.2).runState = .running p.1 p.2.1 ∧ (running p.1 p.2.1 p.2.2).underLimit
      ∧ (running p.1 p.2.1 p.2.2).Fetches p.2.2
      ∧ ∃ i, decode (running p.1 p.2.1 p.2.2).params.xlen p.2.2 = .ok i ∧ (i = .ebreak → p.2.1 = true) := by
  intro p hp
  simp only [List.mem_cons, List.not_mem_nil, or_false] at hp
  rcases hp with rfl | rfl
  · exact ⟨rfl, underLimit_of_none rfl, by unfold State.Fetches; decide +kernel, .addi 0 0 0, by decide +kernel, by decide⟩
  · exact ⟨rfl, underLimit_of_none rfl, by unfold State.Fetches; decide +kernel, .ebreak, by decide +kernel, by decide⟩

theorem witness_BreakpointPauses :
    (running .runToBp false 0x00100073).runState = .running .runToBp false
      ∧ (running .runToBp false 0x00100073).underLimit ∧ (running .runToBp false 0x00100073).Fetches 0x00100073#32
      ∧ (running .runToBp false 0x00100073).Honours .runToBp :=
  ⟨rfl, underLimit_of_none rfl, by unfold State.Fetches; decide +kernel, .inr (.inl rfl)⟩

/-- Paused at a breakpoint, a command waiting. -/
def paused : State :=
  { start .rv32 0x00100073 [] false [] with runState := .atBreakpoint, requests := [.command .runToBp] }

theorem witness_CommandAfterPauseExecutesBreakpoint :
    paused.runState = .atBreakpoint ∧ paused.requests = .command .runToBp :: [] ∧ paused.underLimit
      ∧ paused.notFull ∧ paused.Fetches 0x00100073#32 :=
  ⟨rfl, rfl, underLimit_of_none rfl, by unfold State.notFull; decide, by unfold State.Fetches; decide +kernel⟩

theorem witness_ReadyAcceptsCommands :
    (waiting .ready [.command .run]).runState = .ready ∧ (waiting .ready [.command .run]).requests = .command .run :: []
      ∧ (waiting .ready []).isRunning = false ∧ (waiting .ready []).requests = [] := by decide

theorem witness_HaltedIsAbsorbing :
    (waiting .halted [.command .run]).runState = .halted
      ∧ (waiting .halted [.command .run]).requests = .command .run :: []
      ∧ (∃ t, step (waiting .halted [.getPC]) = .next t ∧ (t.replies == [.value 0x100]) = true)
      ∧ (waiting .halted [.getPC]).requests.head? ≠ some .reset :=
  ⟨by decide, by decide, exists_of_holds (by decide +kernel), by decide⟩

theorem witness_StepCommandRunsOneInstruction :
    (running .step false 0x13).runState = .running .step false ∧ (running .step false 0x13).err = .none
      ∧ ∃ t, step (running .step false 0x13) = .next t ∧ (t.runState == .ready) = true :=
  ⟨rfl, rfl, exists_of_holds (by decide +kernel)⟩

theorem witness_RunPassesBreakpoints :
    (running .run false 0x00100073).runState = .running .run false
      ∧ (running .run false 0x00100073).params.runStopsAtBreakpoint = false
      ∧ (running .run false 0x00100073).underLimit ∧ (running .run false 0x00100073).notFull
      ∧ (running .run false 0x00100073).Fetches 0x00100073#32 :=
  ⟨rfl, rfl, underLimit_of_none rfl, by unfold State.notFull; decide, by unfold State.Fetches; decide +kernel⟩

theorem witness_StepGuardStopsTheEngine :
    ({ running .run false 0x13 with params := { vec .rv32 0x13 with maxSteps := some 0 } } : State).params.maxSteps = some 0
      ∧ 0 ≤ (running .run false 0x13).cycles.toNat
      ∧ (running .run false 0x13).params.maxSteps = none ∧ (running .run false 0x13).err = .none
      ∧ ∃ t, step (running .run false 0x13) = .next t ∧ (t.err == .none) = true :=
  ⟨rfl, by decide, rfl, rfl, exists_of_holds (by decide +kernel)⟩

/-- A guard that lets exactly one more instruction start. -/
theorem witness_underLimit : ({ running .run false 0x13 with params := { vec .rv32 0x13 with maxSteps := some 1 } } : State).underLimit := by
  intro m hm
  cases hm
  decide

theorem witness_FetchReadsTheProgramText :
    (running .run false 0x13).underLimit
      ∧ ({ running .run false 0x13 with pc := 0x102 } : State).pc.toNat % 4 ≠ 0
      ∧ (({ running .run false 0x13 with pc := 0xFC } : State).pc.toNat % 4 = 0 ∧ 0xFC < (vec .rv32 0x13).textBase)
      ∧ (vec .rv32 0x13).imem.length ≤ (0x104 - (vec .rv32 0x13).textBase) / 4
      ∧ (running .run false 0x13).Fetches 0x13 :=
  ⟨underLimit_of_none rfl, by decide, by decide, by decide, by unfold State.Fetches; decide +kernel⟩

theorem witness_FaultsHaveNoOtherEffect :
    (running .run false 0).isRunning = true ∧ (running .run false 0).err = .none
      ∧ (∃ t, step (running .run false 0) = .next t ∧ (t.err != .none) = true)
      ∧ (waiting .ready [.getPC]).isRunning = false
      ∧ (∃ t, step (waiting .ready [.getPC]) = .next t ∧ (t.err == .none) = true)
      ∧ (waiting .ready [.getPC]).requests.head? ≠ some .reset :=
  ⟨rfl, rfl, exists_of_holds (by decide +kernel), rfl, exists_of_holds (by decide +kernel), by decide⟩

theorem witness_CyclesCountExecutedInstructions :
    (∃ t, exec (.lw 10 0 2) (start .rv32 0 [] true []) = .next t ∧ (t.err != .none) = true)
      ∧ (∃ t, exec (.lw 10 0 4) (start .rv32 0 [] true []) = .next t ∧ (t.err == .none) = true)
      ∧ (∃ t, step (running .step false 0x00100073) = .next t ∧ (t.runState == .atBreakpoint) = true)
      ∧ (∃ t, step (running .run false 0x02B50533) = .next t ∧ (t.err == .decodeError 0x100 0x02B50533) = true)
      ∧ (∃ t, step { running .run false 0x13 with pc := 0x104 } = .next t ∧ (t.err == .fetchFault 0x104) = true)
      ∧ (∃ t, step (running .run false 0x13) = .next t
        ∧ (t.err == .none && t.runState == .running .run false) = true)
      ∧ (∃ t, step (waiting .ready [.getPC]) = .next t ∧ (t.cycles == 0) = true) :=
  ⟨exists_of_holds (by decide +kernel), exists_of_holds (by decide +kernel), exists_of_holds (by decide +kernel),
    exists_of_holds (by decide +kernel), exists_of_holds (by decide +kernel), exists_of_holds (by decide +kernel),
    exists_of_holds (by decide +kernel)⟩

theorem witness_FullCycleCounterIsRefused : fullCycle.cycles = BitVec.allOnes 64
    ∧ exec (.add 1 2 3) fullCycle = .refused .cycleCounterFull := ⟨rfl, rfl⟩

theorem witness_OnlyStoresAndEcallWriteMemory :
    (Instr.lw 10 0 4).mayWriteMem = false ∧ Instr.sw 10 0 4 ≠ .ecall
      ∧ (∃ t, exec (.lw 10 0 4) (start .rv32 0 [] true image) = .next t ∧ (t.err == .none) = true)
      ∧ (∃ t, exec (.sw 10 0 4) (start .rv32 0 [(10, 7)] true image) = .next t ∧ (t.mem.read 4 == 7) = true) :=
  ⟨by decide, by decide, exists_of_holds (by decide +kernel), exists_of_holds (by decide +kernel)⟩

theorem witness_InstructionsKeepConfiguration :
    (∃ t, exec (.add 1 2 3) (start .rv32 0 [] true []) = .next t ∧ (t.err == .none) = true)
      ∧ (∃ t, step (waiting .ready [.setAlwaysCalloc true]) = .next t ∧ t.alwaysCalloc = true) :=
  ⟨exists_of_holds (by decide +kernel), exists_of_holds (by decide +kernel)⟩

theorem witness_OnlyTransfersLeaveSequence :
    (start .rv32 0 [] true []).err = .none ∧ ¬ (start .rv32 0 [] true []).Transfers (.add 1 2 3)
      ∧ (∃ t, exec (.add 1 2 3) (start .rv32 0 [] true []) = .next t ∧ (t.err == .none) = true)
      ∧ ¬ (start .rv32 0 [] true []).Transfers (.bne 1 2 6)
      ∧ (∃ t, exec (.bne 1 2 6) (start .rv32 0 [] true []) = .next t ∧ (t.err == .none) = true)
      ∧ (∃ t, exec (.jal 1 6) (start .rv32 0 [] true []) = .next t ∧ (t.err != .none) = true) :=
  ⟨rfl, not_false, exists_of_holds (by decide +kernel), fun h => h (by decide +kernel),
    exists_of_holds (by decide +kernel), exists_of_holds (by decide +kernel)⟩

theorem witness_OnlyTheDestinationRegisterChanges :
    ∃ t, exec (.addi 0 0 5) (start .rv32 0 [] true []) = .next t ∧ (t.err == .none) = true :=
  exists_of_holds (by decide +kernel)

/-- For `UpperImmediates`, `ImmediateArithmetic`, `RegisterArithmetic`, `RegisterShifts`, `FenceIsNoOperation`
and `ExecutedEbreakIsNoOperation`, whose one hypothesis this is. -/
theorem witness_notFull : lastCycle.notFull := by unfold State.notFull; decide

theorem witness_ImmediateShifts :
    32 ≤ (32#6).toNat ∧ lastCycle.notFull ∧ (31#6).toNat < lastCycle.params.xlen.bits
      ∧ (63#6).toNat < (start .rv64 0 [] false []).params.xlen.bits := by
  unfold State.notFull; decide

/-- For `WordImmediates` and `WordRegister`. -/
theorem witness_WordImmediates_WordRegister :
    (start .rv64 0 [] false []).notFull ∧ (start .rv64 0 [] false []).params.xlen = .rv64 := by
  unfold State.notFull; decide

theorem witness_Jumps :
    offsetEven (-2 : BitVec 21) = true ∧ lastCycle.notFull
      ∧ wrap lastCycle.params.xlen (lastCycle.pc.toNat + (-256 : BitVec 21).toInt) % 4 = 0
      ∧ wrap lastCycle.params.xlen (lastCycle.pc.toNat + (-2 : BitVec 21).toInt) % 4 ≠ 0
      ∧ wrap lastCycle.params.xlen (lastCycle.u 0 + (1 : BitVec 12).toInt) / 2 * 2 % 4 = 0
      ∧ wrap lastCycle.params.xlen (lastCycle.u 0 + (-1 : BitVec 12).toInt) / 2 * 2 % 4 ≠ 0 := by
  unfold State.notFull; decide +kernel

/-- Registers 1 and 2 hold -1 and 0, so that each of the six conditions holds one way round and fails the other. -/
def branching : State := { start .rv32 0 [(1, 0xFFFFFFFF)] false [] with cycles := 0xFFFFFFFFFFFFFFFE }

theorem witness_ConditionalBranches :
    offsetEven (-4096 : BitVec 13) = true ∧ branching.notFull
      ∧ wrap branching.params.xlen (branching.pc.toNat + (-4096 : BitVec 13).toInt) % 4 = 0
      ∧ wrap branching.params.xlen (branching.pc.toNat + (4094 : BitVec 13).toInt) % 4 ≠ 0
      ∧ (branching.u 1 = branching.u 1 ∧ ¬ branching.u 1 = branching.u 2)
      ∧ (branching.u 1 ≠ branching.u 2 ∧ ¬ branching.u 1 ≠ branching.u 1)
      ∧ (branching.i 1 < branching.i 2 ∧ ¬ branching.i 2 < branching.i 1)
      ∧ (branching.i 1 ≤ branching.i 2 ∧ ¬ branching.i 2 ≤ branching.i 1)
      ∧ (branching.u 2 < branching.u 1 ∧ ¬ branching.u 1 < branching.u 2)
      ∧ (branching.u 2 ≤ branching.u 1 ∧ ¬ branching.u 1 ≤ branching.u 2) := by
  unfold State.notFull; decide +kernel

/-- For `Loads` and `Stores`: an aligned access with enforcement on, a misaligned one with it off, and one
held back. -/
theorem witness_Loads_Stores :
    (start .rv64 0 [] true image).notFull ∧ (start .rv64 0 [] true image).mem.wf = true
      ∧ (start .rv64 0 [] true image).params.xlen = .rv64
      ∧ (start .rv64 0 [] true image).allowed ((start .rv64 0 [] true image).eaNat 0 (-8)) 8
      ∧ (start .rv32 0 [] false image).allowed ((start .rv32 0 [] false image).eaNat 0 (-1)) 4
      ∧ ¬ (start .rv64 0 [] true image).allowed ((start .rv64 0 [] true image).eaNat 0 4) 8
      ∧ ¬ (start .rv32 0 [] true image).allowed ((start .rv32 0 [] true image).eaNat 0 1) 2 := by
  unfold State.notFull State.allowed; decide +kernel

theorem witness_ExitCallHalts :
    (start .rv32 0x73 [(10, 10)] false []).x 10 = (start .rv32 0x73 [(10, 10)] false []).params.exitA0
      ∧ (start .rv32 0x73 [(10, 10)] false []).notFull := by
  unfold State.notFull; decide +kernel

/-- An `ECALL` with this `a0` and `a6`. -/
def asking (a0 a6 : Word) : State := start .rv32 0x73 [(10, a0), (16, a6)] false []

/-- Selectors 0 and 6, the neighbours of the served ones; another marker; no service. -/
theorem witness_UnservedCallsRaise :
    (asking 0x3CC 0).x 10 ≠ (asking 0x3CC 0).params.exitA0 ∧ ((asking 0x3CC 0).x 16).toNat = 0
      ∧ (asking 0x3CC 6).x 10 ≠ (asking 0x3CC 6).params.exitA0 ∧ 5 < ((asking 0x3CC 6).x 16).toNat
      ∧ (asking 1 1).x 10 ≠ (asking 1 1).params.exitA0 ∧ (asking 1 1).x 10 ≠ (asking 1 1).params.allocMarker
      ∧ ({ vec .rv32 0x73 with hasAllocService := false } : Params).hasAllocService = false := by decide +kernel

/-! The allocator's statements. `HDR_SIZE = 16`, `ALLOC_ALIGN = 8`, `HEAP_BASE = 0x10008000`. -/

/-- An `ECALL` of operation `sel` with arguments, on a heap. -/
def calling (sel a1 a2 : Word) (blocks : List Block) (hwm active : Nat) : State :=
  { start .rv32 0x73 [(10, 0x3CC), (11, a1), (12, a2), (16, sel)] false [] with
    blocks := blocks, hwm := hwm, numActiveBlocks := active }

/-- A free block of `n` bytes at the bottom of the heap and an allocated one of 16 after it. -/
def hole (n : Nat) : List Block := [⟨0x10008000, n, true⟩, ⟨0x10008010 + n, 16, false⟩]

/-- A call of operation `sel` on the heap `hole n`. -/
def callingHole (sel a1 a2 : Word) (n : Nat) : State := calling sel a1 a2 (hole n) (0x10008030 + n) 1

/-- An allocated block of 16 bytes, then a free one of 24, then an allocated one of 8. -/
def callingMiddle (sel a1 a2 : Word) : State :=
  calling sel a1 a2 [⟨0x10008000, 16, false⟩, ⟨0x10008020, 24, true⟩, ⟨0x10008048, 8, false⟩] 0x10008060 2

theorem witness_MallocTakesTheFirstFit :
    ((callingHole 1 1 0 32).inv = true ∧ (callingHole 1 1 0 32).AllocCall 1 ∧ (callingHole 1 1 0 32).RoundedUp 1 8
        ∧ 8 + 16 < 32)
      ∧ ((callingHole 2 8 0 24).inv = true ∧ (callingHole 2 8 0 24).AllocCall 2 ∧ (callingHole 2 8 0 24).RoundedUp 8 8
        ∧ 24 ≤ 8 + 16)
      ∧ ((callingHole 1 24 0 24).inv = true ∧ (callingHole 1 24 0 24).AllocCall 1
        ∧ (callingHole 1 24 0 24).RoundedUp 24 24 ∧ (callingHole 1 24 0 24).blocks = [] ++ ⟨0x10008000, 24, true⟩
          :: [⟨0x10008028, 16, false⟩]) := by
  unfold State.AllocCall State.RoundedUp State.notFull; decide +kernel

/-- The largest request that fits above the high-water mark, and the smallest that does not. -/
theorem witness_MallocExtendsOrReturnsNull :
    ((callingHole 1 0x7FB8 0 8).inv = true ∧ (callingHole 1 0x7FB8 0 8).AllocCall 1
        ∧ (callingHole 1 0x7FB8 0 8).RoundedUp 0x7FB8 0x7FB8 ∧ (callingHole 1 0x7FB8 0 8).NoFit 0x7FB8
        ∧ (callingHole 1 0x7FB8 0 8).hwm + 16 + 0x7FB8 = 0x10010000)
      ∧ ((callingHole 2 0x7FB9 0 8).inv = true ∧ (callingHole 2 0x7FB9 0 8).AllocCall 2
        ∧ (callingHole 2 0x7FB9 0 8).RoundedUp 0x7FB9 0x7FC0 ∧ (callingHole 2 0x7FB9 0 8).NoFit 0x7FC0) := by
  unfold State.AllocCall State.RoundedUp State.NoFit State.notFull; decide +kernel

theorem witness_ZeroSizeRequestsReturnNullOrABlock :
    ((callingHole 1 0 0 8).inv = true ∧ (callingHole 1 0 0 8).AllocCall 1 ∧ (callingHole 1 0 0 8).x 11 = 0)
      ∧ ((callingMiddle 3 0x10008010 0).inv = true ∧ (callingMiddle 3 0x10008010 0).AllocCall 3
        ∧ (callingMiddle 3 0x10008010 0).x 12 = 0
        ∧ ((callingMiddle 3 0x10008010 0).x 11).toNat = 0x10008000 + (callingMiddle 3 0x10008010 0).params.hdrSize) := by
  unfold State.AllocCall State.notFull; decide +kernel

theorem witness_FreeMarksAndCoalesces :
    (callingMiddle 4 0x10008058 0).inv = true ∧ (callingMiddle 4 0x10008058 0).AllocCall 4
      ∧ (callingMiddle 4 0x10008058 0).blocks
        = [⟨0x10008000, 16, false⟩, ⟨0x10008020, 24, true⟩] ++ ⟨0x10008048, 8, false⟩ :: []
      ∧ ((callingMiddle 4 0x10008058 0).x 11).toNat = 0x10008048 + (callingMiddle 4 0x10008058 0).params.hdrSize := by
  unfold State.AllocCall State.notFull; decide +kernel

theorem witness_FreeOfNullAndCount :
    (callingHole 4 0 0 8).AllocCall 4 ∧ (callingHole 4 0 0 8).x 11 = 0 ∧ (callingHole 5 0 0 8).AllocCall 5 := by
  unfold State.AllocCall State.notFull; decide +kernel

/-- Growth into the whole of the free block that follows: 16 + 16 + 24 bytes. -/
theorem witness_ReallocResizesInPlace :
    (callingMiddle 3 0x10008010 56).inv = true ∧ (callingMiddle 3 0x10008010 56).AllocCall 3
      ∧ (callingMiddle 3 0x10008010 56).blocks
        = [] ++ ⟨0x10008000, 16, false⟩ :: [⟨0x10008020, 24, true⟩, ⟨0x10008048, 8, false⟩]
      ∧ ((callingMiddle 3 0x10008010 56).x 12).toNat = 56 ∧ (callingMiddle 3 0x10008010 56).RoundedUp 56 56
      ∧ roomAt 16 ⟨0x10008000, 16, false⟩ [⟨0x10008020, 24, true⟩, ⟨0x10008048, 8, false⟩] = 56 := by
  unfold State.AllocCall State.RoundedUp State.notFull; decide +kernel

/-- The first free block, just large enough; the largest request that fits above the high-water mark; one byte more. -/
theorem witness_ReallocMovesOrFails :
    ((callingHole 3 0x10008038 24 24).inv = true ∧ (callingHole 3 0x10008038 24 24).AllocCall 3
        ∧ (callingHole 3 0x10008038 24 24).RoundedUp 24 24
        ∧ (callingHole 3 0x10008038 24 24).blocks = [⟨0x10008000, 24, true⟩] ++ ⟨0x10008028, 16, false⟩ :: []
        ∧ ((callingHole 3 0x10008038 24 24).x 11).toNat = 0x10008028 + (callingHole 3 0x10008038 24 24).params.hdrSize
        ∧ roomAt 16 ⟨0x10008028, 16, false⟩ [] < 24)
      ∧ ((callingMiddle 3 0x10008010 0x7F90).inv = true ∧ (callingMiddle 3 0x10008010 0x7F90).AllocCall 3
        ∧ (callingMiddle 3 0x10008010 0x7F90).RoundedUp 0x7F90 0x7F90 ∧ 56 < 0x7F90
        ∧ (callingMiddle 3 0x10008010 0x7F90).NoFit 0x7F90
        ∧ (callingMiddle 3 0x10008010 0x7F90).hwm + 16 + 0x7F90 = (callingMiddle 3 0x10008010 0x7F90).params.heapLimit)
      ∧ ((callingMiddle 3 0x10008010 0x7F91).inv = true ∧ (callingMiddle 3 0x10008010 0x7F91).AllocCall 3
        ∧ (callingMiddle 3 0x10008010 0x7F91).RoundedUp 0x7F91 0x7F98
        ∧ (callingMiddle 3 0x10008010 0x7F91).NoFit 0x7F98) := by
  unfold State.AllocCall State.RoundedUp State.NoFit State.notFull; decide +kernel

theorem witness_ReallocOfNullIsMalloc :
    (callingHole 3 0 8 24).AllocCall 3 ∧ (callingHole 3 0 8 24).x 11 = 0
      ∧ callingHole 1 8 0 24 = { callingHole 3 0 8 24 with regs := (callingHole 1 8 0 24).regs }
      ∧ (callingHole 1 8 0 24).AllocCall 1 ∧ (callingHole 1 8 0 24).x 11 = (callingHole 3 0 8 24).x 12
      ∧ ∃ t, exec .ecall (callingHole 1 8 0 24) = .next t ∧ (t.x 10 == 0x10008010) = true :=
  ⟨by unfold State.AllocCall State.notFull; decide +kernel, by decide +kernel, by decide +kernel,
    by unfold State.AllocCall State.notFull; decide +kernel, by decide +kernel, exists_of_holds (by decide +kernel)⟩

/-- `free` of the payload address of a free block. -/
def freeingFree : State := callingMiddle 4 0x10008030 0

/-- `realloc` of an address inside a block. -/
def movingInside : State := callingMiddle 3 0x10008011 8

theorem witness_InvalidPointersRaise :
    (freeingFree.params.hasAllocService = true ∧ freeingFree.x 10 = freeingFree.params.allocMarker
        ∧ freeingFree.x 10 ≠ freeingFree.params.exitA0 ∧ (freeingFree.x 16).toNat = 4
        ∧ freeingFree.headersTouched = false ∧ freeingFree.x 11 ≠ 0
        ∧ ∀ b ∈ freeingFree.blocks, b.free = false →
          b.base + freeingFree.params.hdrSize ≠ (freeingFree.x 11).toNat)
      ∧ (movingInside.params.hasAllocService = true ∧ movingInside.x 10 = movingInside.params.allocMarker
        ∧ movingInside.x 10 ≠ movingInside.params.exitA0 ∧ (movingInside.x 16).toNat = 3
        ∧ movingInside.headersTouched = false ∧ movingInside.x 11 ≠ 0
        ∧ ∀ b ∈ movingInside.blocks, b.free = false →
          b.base + movingInside.params.hdrSize ≠ (movingInside.x 11).toNat) := by
  decide +kernel

theorem witness_CallsAfterHeaderWritesAreRefused : ∀ sel ∈ [1#64, 5#64],
    exec .ecall { callingHole sel 0 0 8 with headersTouched := true } = .refused .headerOverwritten := by
  intro sel h
  simp only [List.mem_cons, List.not_mem_nil, or_false] at h
  rcases h with rfl | rfl <;> rfl

/-- `ALLOC_ALIGN = 2`: the metadata may be misaligned. -/
def oddHeap (sel a1 : Word) : State :=
  { callingHole sel a1 0 8 with params := { vec .rv32 0x73 with allocAlign := 2 }, alignedAddresses := true }

/-- The count, `realloc` of NULL and `free` of an allocated block. -/
theorem witness_MisalignedMetadataRaises :
    ((oddHeap 5 0).params.hasAllocService = true ∧ (oddHeap 5 0).x 10 = (oddHeap 5 0).params.allocMarker
        ∧ (oddHeap 5 0).x 10 ≠ (oddHeap 5 0).params.exitA0 ∧ (oddHeap 5 0).headersTouched = false
        ∧ (oddHeap 5 0).alignedAddresses = true
        ∧ ¬ (oddHeap 5 0).params.allocAlign % ((oddHeap 5 0).params.xlen.bits / 8) = 0)
      ∧ (((oddHeap 5 0).x 16).toNat = 5 ∧ ((oddHeap 3 0).x 16).toNat = 3 ∧ (oddHeap 3 0).x 11 = 0
        ∧ ((oddHeap 4 0x10008028).x 16).toNat = 4
        ∧ ∃ b ∈ (oddHeap 4 0x10008028).blocks, b.free = false
          ∧ b.base + (oddHeap 4 0x10008028).params.hdrSize = ((oddHeap 4 0x10008028).x 11).toNat) := by
  decide +kernel

theorem witness_ServiceWritesOnlyTheHeap : (callingHole 1 8 0 24).inv = true
    ∧ ∃ t, exec .ecall (callingHole 1 8 0 24) = .next t ∧ (t.x 10 == 0x10008010) = true :=
  ⟨by decide +kernel, exists_of_holds (by decide +kernel)⟩

/-- `free` of the first block, then a smaller `malloc` on the heap that leaves. -/
theorem witness_FreedBlocksAreReused :
    (callingMiddle 4 0x10008010 0).inv = true ∧ (callingMiddle 4 0x10008010 0).AllocCall 4
      ∧ ((callingMiddle 4 0x10008010 0).x 11).toNat = 0x10008000 + (callingMiddle 4 0x10008010 0).params.hdrSize
      ∧ (∃ t, exec .ecall (callingMiddle 4 0x10008010 0) = .next t
        ∧ (t.blocks == [⟨0x10008000, 56, true⟩, ⟨0x10008048, 8, false⟩] && t.params == vec .rv32 0x73) = true)
      ∧ (calling 1 8 0 [⟨0x10008000, 56, true⟩, ⟨0x10008048, 8, false⟩] 0x10008060 1).inv = true
      ∧ (calling 1 8 0 [⟨0x10008000, 56, true⟩, ⟨0x10008048, 8, false⟩] 0x10008060 1).AllocCall 1
      ∧ (calling 1 8 0 [⟨0x10008000, 56, true⟩, ⟨0x10008048, 8, false⟩] 0x10008060 1).RoundedUp 8 8 :=
  ⟨by decide +kernel, by unfold State.AllocCall State.notFull; decide +kernel, by decide +kernel,
    exists_of_holds (by decide +kernel), by decide +kernel,
    by unfold State.AllocCall State.notFull; decide +kernel, by unfold State.RoundedUp; decide +kernel⟩

/-- A long stored at the top of the address space, its last byte read back: with enforcement off, and aligned with it on. -/
theorem witness_MixedWidthReadsSeeLastWrite :
    (∃ t, (start .rv64 0 [] false image).memWrite 0xFFFFFFFFFFFFFFFC .long 1 = .ok t
        ∧ t.allowed ((0xFFFFFFFFFFFFFFFC + 7) % 2 ^ t.params.xlen.bits) Width.byte.bytes)
      ∧ (start .rv64 0 [] false image).mem.wf = true ∧ 7 + Width.byte.bytes ≤ Width.long.bytes
      ∧ (∃ t, (start .rv32 0 [] true image).memWrite 0x2000 .word 1 = .ok t
        ∧ t.allowed ((0x2000 + 2) % 2 ^ t.params.xlen.bits) Width.half.bytes) :=
  ⟨⟨_, rfl, .inl rfl⟩, by decide, by decide, ⟨_, rfl, .inr (by decide)⟩⟩

theorem witness_HostMemoryPort :
    (∀ q ∈ [PortRequest.load .word 0xFFFFFFFC, .store .half 0xFFFFFFFE 1, .getPC],
      (waiting .ready [q]).isRunning = false ∧ (waiting .ready [q]).mem.wf = true
        ∧ (waiting .ready [q]).requests = q :: [])
      ∧ (0xFFFFFFFE#64).toNat < 2 ^ (waiting .ready []).params.xlen.bits
      ∧ (waiting .ready []).allowed 0xFFFFFFFC 4 ∧ ¬ (waiting .ready []).allowed 0xFFFFFFFE 4
      ∧ (start .rv64 0 [] true []).params.xlen = .rv64 := by
  unfold State.allowed; decide +kernel

theorem witness_RemoveByteAndLaneMask :
    (waiting .ready [.removeByte 0xFFFFFFFF]).isRunning = false
      ∧ (waiting .ready [.removeByte 0xFFFFFFFF]).mem.wf = true
      ∧ (waiting .ready [.removeByte 0xFFFFFFFF]).requests = .removeByte 0xFFFFFFFF :: []
      ∧ (waiting .halted [.wordOffsetMask 3]).isRunning = false
      ∧ (waiting .halted [.wordOffsetMask 3]).requests = .wordOffsetMask 3 :: []
      ∧ (0xFFFFFFFF#64).toNat < 2 ^ (waiting .ready []).params.xlen.bits := by decide +kernel

theorem witness_HostInspectionAndConfiguration :
    ∀ q ∈ [PortRequest.getReg 31, .getPC, .getCycles, .getState, .getErr, .getNumActiveBlocks, .getAlignedAddresses,
      .getAlwaysCalloc, .setAlignedAddresses false, .setAlwaysCalloc true],
      (waiting .halted [q]).isRunning = false ∧ (waiting .halted [q]).requests = q :: [] := by decide +kernel

end Sys2Proof.Tests
end

section
/-! The state after reset (R45): its registers, its data memory, and the `RESET` command that leaves it. -/

namespace Sys2Proof.Machine

/-! ### Registers after reset -/

@[simp] theorem State.ofParams_x_two (p : Params) : (State.ofParams p).x 2 = p.xlen.narrow p.resetSp := by
  simp [State.x, State.ofParams]

@[simp] theorem State.ofParams_x_three (p : Params) : (State.ofParams p).x 3 = p.xlen.narrow p.resetGp := by
  simp [State.x, State.ofParams]

theorem State.ofParams_x_other (p : Params) (r : RegId) (h2 : r ≠ 2) (h3 : r ≠ 3) :
    (State.ofParams p).x r = 0 := by
  by_cases h0 : r.val = 0
  · simp [State.x, h0]
  · have sp : 1 ≠ r.val - 1 := fun e => h2 (Fin.ext (by omega))
    have gp : 2 ≠ r.val - 1 := fun e => h3 (Fin.ext (by omega))
    simp [State.x, State.ofParams, h0, Vector.getElem_set_ne, sp, gp]

/-! ### Data memory after reset -/

/-- Where the data segment does not overlap itself, each of its bytes stands at its address. -/
theorem Memory.read_initial_at (p : Params) (hl : p.dataInit.length ≤ 2 ^ p.xlen.bits) (k : Nat)
    (hk : k < p.dataInit.length) :
    (Memory.initial p).read ((p.dataBase + k) % 2 ^ p.xlen.bits) = p.dataInit[k] :=
  Memory.read_writeBytes_at [] p.xlen p.dataBase p.dataInit Memory.wf_nil hl k hk

theorem Memory.read_initial_other (p : Params) (a : Nat)
    (ha : ∀ k < p.dataInit.length, a ≠ (p.dataBase + k) % 2 ^ p.xlen.bits) :
    (Memory.initial p).read a = 0 :=
  Memory.read_writeBytes_other [] p.xlen p.dataBase a p.dataInit Memory.wf_nil ha

/-! ### The `RESET` command -/

/-- A `RESET` served while the engine is not Running (R336, R391). -/
theorem step_of_reset (s : State) (rest : List PortRequest) (hn : s.isRunning = false)
    (hr : s.requests = .reset :: rest) :
    step s = .next { State.ofParams s.params with requests := rest, replies := s.replies } := by
  rw [step_of_not_running s hn, serveHost_cons s .reset rest hr]
  rfl

/-- Settles O9: the registers and the memory by the lemmas above, every other field as `State.ofParams` writes it. -/
theorem resetValues : Obligations.ResetValues := by
  intro p hl
  have reset : ∀ (s : State) (rest : List PortRequest), s.params = p → s.isRunning = false →
      s.requests = .reset :: rest → ∃ t, step s = .next t
        ∧ t = { State.ofParams p with requests := t.requests, replies := t.replies } := by
    rintro s rest rfl hn hr
    exact ⟨_, step_of_reset s rest hn hr, rfl⟩
  exact ⟨rfl, by rw [State.ofParams_x_two, Xlen.toNat_narrow], by rw [State.ofParams_x_three, Xlen.toNat_narrow],
    State.ofParams_x_other p, rfl, rfl,
    Memory.read_initial_at p hl, Memory.read_initial_other p, rfl, rfl, rfl, rfl, rfl, rfl, rfl, rfl, reset⟩

end Sys2Proof.Machine
end

section
/-! The full cycle counter (R29). -/

namespace Sys2Proof.Machine

/-- Nothing an instruction can do completes at the counter's last value. -/
theorem Does.outcome_of_full {dest : Option RegId} {writesMem transfers heap : Bool} {s : State} {o : Outcome}
    (h : Does dest writesMem transfers heap s o) (hf : s.cycles = BitVec.allOnes 64) :
    (∃ e, e ≠ .none ∧ o = .next (s.raise e)) ∨ o = .refused .cycleCounterFull
      ∨ (heap = true ∧ o = .refused .headerOverwritten) := by
  cases h with
  | faults e he _ => exact .inl ⟨e, he, rfl⟩
  | refuses hh => exact .inr (.inr ⟨hh, rfl⟩)
  | completes next u kept => exact .inr (.inl (complete_of_full next u (kept.cycles.trans hf)))

/-- Settles O24: by what every instruction can do (`exec_does`); `FENCE` does nothing but complete. -/
theorem fullCycleCounterIsRefused : Obligations.FullCycleCounterIsRefused := by
  refine ⟨fun i s hf => ?_, fun _ _ _ _ _ s hf => complete_of_full s.seqPc s hf⟩
  rcases (exec_does i s).outcome_of_full hf with fault | full | ⟨call, header⟩
  · exact .inl fault
  · exact .inr (.inl full)
  · exact .inr (.inr ⟨beq_iff_eq.mp call, header⟩)

end Sys2Proof.Machine
end

section
/-! Instruction fetch (R82): the word of the program text at `pc`, or a fault that ends the pass of the loop. -/

namespace Sys2Proof.Machine

theorem State.fetch_of_misaligned (s : State) (h : s.pc.toNat % 4 ≠ 0) :
    s.fetch = .error (.instrAddrMisaligned s.pc s.pc) := if_pos h

theorem State.fetch_of_outside (s : State) (h : s.pc.toNat % 4 = 0)
    (ho : s.pc.toNat < s.params.textBase ∨ s.params.imem.length ≤ (s.pc.toNat - s.params.textBase) / 4) :
    s.fetch = .error (.fetchFault s.pc) := by
  rcases ho with below | beyond
  · simp [State.fetch, h, below]
  · simp [State.fetch, h, List.getElem?_eq_none beyond]

/-- A fault of the fetch is the step's: latched, the engine Halted, nothing else changed (R352). -/
theorem step_of_fetch_error (s : State) (c : Command) (resume : Bool) (e : Err)
    (hr : s.runState = .running c resume) (hu : s.underLimit) (hf : s.fetch = .error e) :
    step s = .next { s with err := e, runState := .halted } := by
  simp [step, hr, loopHead, s.stepLimitReached_of_underLimit hu, hf, takeFault_eq]

/-- Settles O21: by the two faults of a fetch; `State.fetch` names neither `mem` nor `alignedAddresses`. -/
theorem fetchReadsTheProgramText : Obligations.FetchReadsTheProgramText := by
  refine ⟨fun s c resume hr hu => ⟨fun h => ?_, fun h ho => ?_⟩, State.fetch_of_fetches, fun _ _ _ => rfl⟩
  · exact step_of_fetch_error s c resume _ hr hu (s.fetch_of_misaligned h)
  · exact step_of_fetch_error s c resume _ hr hu (s.fetch_of_outside h ho)

end Sys2Proof.Machine
end

section
/-! Reads that lie within the bytes last written (R76). -/

namespace Sys2Proof.Machine

theorem Width.bytes_le_pow_bits (w : Width) (x : Xlen) : w.bytes ≤ 2 ^ x.bits := by
  cases w <;> cases x <;> decide

theorem Width.bytes_le_eight (w : Width) : w.bytes ≤ 8 := by cases w <;> decide

theorem State.eq_writeData_of_memWrite (s t : State) (a v : Word) (w : Width) (h : s.memWrite a w v = .ok t) :
    t = s.writeData a.toNat (bytesLE w.bytes v) := by
  rcases s.memWrite_cases a v w with held | written
  · rw [held] at h; cases h
  · rw [written] at h; cases h; rfl

/-- Byte `i` of the value written stands at `a + i` (R65, R67). -/
theorem State.read_writeData_bytesLE (s : State) (a n : Nat) (v : Word) (hw : s.mem.wf = true)
    (hn : n ≤ 2 ^ s.params.xlen.bits) (i : Nat) (hi : i < n) :
    (s.writeData a (bytesLE n v)).mem.read ((a + i) % 2 ^ s.params.xlen.bits)
      = BitVec.ofNat 8 (v.toNat / 256 ^ i) := by
  rw [← bytesLE_getElem n v i hi]
  exact Memory.read_writeBytes_at s.mem s.params.xlen a _ hw (by simpa using hn) i (by simpa using hi)

/-- Bytes that are the base-256 digits of `v` compose to `v` modulo `256^n`. -/
theorem State.bytesValue_of_digits (s : State) (a n v : Nat)
    (h : ∀ i < n, s.mem.read ((a + i) % 2 ^ s.params.xlen.bits) = BitVec.ofNat 8 (v / 256 ^ i)) :
    s.bytesValue a n = v % 256 ^ n := by
  induction n generalizing a v with
  | zero => simp [State.bytesValue, Nat.mod_one]
  | succ n ih =>
    have low : (s.mem.read (a % 2 ^ s.params.xlen.bits)).toNat = v % 256 := by
      simpa using congrArg BitVec.toNat (h 0 (by omega))
    have high : s.bytesValue (a + 1) n = v / 256 % 256 ^ n := ih (a + 1) (v / 256) fun i hi => by
      rw [Nat.add_assoc, Nat.add_comm 1, h (i + 1) (by omega), Nat.div_div_eq_div_mul, pow_succ']
    rw [State.bytesValue, low, high, pow_succ', Nat.mod_mul]

/-- Settles O57: the bytes read are the base-256 digits of `v` from digit `k` on. -/
theorem mixedWidthReadsSeeLastWrite : Obligations.MixedWidthReadsSeeLastWrite := by
  intro s t a v w m k hw ht hk ha
  have written := s.eq_writeData_of_memWrite t a v w ht
  have width : t.params.xlen = s.params.xlen := by rw [written, State.writeData_params]
  have addr : (t.params.xlen.narrow (a + BitVec.ofNat 64 k)).toNat
      = (a.toNat + k) % 2 ^ t.params.xlen.bits := by
    rw [Xlen.toNat_narrow, BitVec.toNat_add, BitVec.toNat_ofNat, Nat.add_mod_mod,
      Nat.mod_mod_of_dvd _ (Nat.pow_dvd_pow 2 t.params.xlen.bits_le)]
  refine ⟨_, t.memRead_allowed _ m (by rwa [addr]), ?_⟩
  rw [addr, t.toNat_readBytes _ _ (Width.bytes_le_eight m)]
  refine t.bytesValue_of_digits _ _ _ fun i hi => ?_
  rw [Nat.mod_add_mod, Nat.add_assoc, Nat.div_div_eq_div_mul, ← pow_add, width, written]
  exact s.read_writeData_bytesLE _ _ v hw (Width.bytes_le_pow_bits w _) (k + i) (by omega)

end Sys2Proof.Machine
end

section
/-! The host's byte port (R74) and byte-lane masks (R75). -/

namespace Sys2Proof.Machine

/-- A `removeByte` of an `XLEN`-bit address writes one zero byte as data, whatever `alignedAddresses` holds. -/
theorem step_of_removeByte (s : State) (a : Word) (rest : List PortRequest) (hn : s.isRunning = false)
    (ha : a.toNat < 2 ^ s.params.xlen.bits) (hq : s.requests = .removeByte a :: rest) :
    step s = .next (State.writeData { s with requests := rest } a.toNat [0]) := by
  rw [step_of_not_running s hn, serveHost_cons s _ rest hq]
  simp only [servePort, s.params.xlen.narrow_of_lt a ha]

theorem step_of_wordOffsetMask (s : State) (a : Word) (rest : List PortRequest) (hn : s.isRunning = false)
    (hq : s.requests = .wordOffsetMask a :: rest) :
    step s = .next { s with requests := rest, replies := s.replies ++ [.mask (wordOffsetMask a)] } := by
  rw [step_of_not_running s hn, serveHost_cons s _ rest hq]
  rfl

/-- The mask of the byte lane that the address names (R75). -/
theorem wordOffsetMask_of_mod (a : Word) (lane : Nat) (h : a.toNat % 4 = lane) :
    wordOffsetMask a = 0xFF#32 <<< (8 * lane) := by
  rw [wordOffsetMask, h]

/-- Settles O59: a `removeByte` is a one-byte write of zero, and the mask is `0xFF` shifted to its lane. -/
theorem removeByteAndLaneMask : Obligations.RemoveByteAndLaneMask := by
  refine ⟨fun s a rest hn hw ha hq => ?_, fun s a rest hn _ hq => ?_⟩
  · have address : s.params.xlen.addrMod a.toNat = a.toNat := Nat.mod_eq_of_lt ha
    refine ⟨_, step_of_removeByte s a rest hn ha hq, rfl,
      State.notes_writeData { s with requests := rest } a.toNat [0] 1 rfl,
      State.records_writeData { s with requests := rest } a.toNat [0] 1 rfl, ?_, fun c hc => ?_⟩
    · simpa [Memory.writeBytes, address] using Memory.read_write_same s.mem 0 a.toNat 0 hw
    · simpa [Memory.writeBytes, address] using Memory.read_write_other s.mem 0 a.toNat c 0 hw hc
  · exact ⟨_, step_of_wordOffsetMask s a rest hn hq, wordOffsetMask_of_mod a 0, wordOffsetMask_of_mod a 1,
      wordOffsetMask_of_mod a 2, wordOffsetMask_of_mod a 3⟩

end Sys2Proof.Machine
end

section
/-! The opcode table row by row (R114): the row a word matches is the one that decodes it, and a word that matches
none raises. -/

namespace Sys2Proof

theorem OpcodeRow.hits_iff (r : OpcodeRow) (x : Xlen) (w : InstrWord) :
    r.hits x w = true ↔ r.has x = true ∧ w &&& r.mask = r.pattern := by
  simp [OpcodeRow.hits]

/-- A word matches at most one row at an `XLEN`, because rows conflict pairwise. -/
theorem opcodeTable_hits_unique (x : Xlen) (w : InstrWord) (j k : Nat) (hj : j < opcodeTable.length)
    (hk : k < opcodeTable.length) (rowJ : opcodeTable[j].hits x w = true) (rowK : opcodeTable[k].hits x w = true) :
    j = k := by
  have conflict := List.pairwise_iff_getElem.mp opcodeTable_conflicts
  rcases Nat.lt_trichotomy j k with below | same | above
  · have := OpcodeRow.not_hits_of_conflicts _ _ (conflict j k hj hk below) x w rowJ
    exact absurd rowK (Bool.eq_false_iff.mp this)
  · exact same
  · have := OpcodeRow.not_hits_of_conflicts _ _ (conflict k j hk hj above) x w rowK
    exact absurd rowJ (Bool.eq_false_iff.mp this)

/-- `decode_noRow` for a proof that takes a matching row to a contradiction. -/
theorem decode_noRow_of_not_hits (x : Xlen) (w : InstrWord) (h : ∀ r ∈ opcodeTable, ¬ r.hits x w = true) :
    decode x w = .error (.noRow w) :=
  decode_noRow x w fun r hr => Bool.eq_false_iff.mpr (h r hr)

end Sys2Proof

namespace Sys2Proof.Machine

/-- A fetched word that does not decode raises `DecodeError` in the pass of the loop that fetched it (R121, R356). -/
theorem step_of_decode_error (s : State) (c : Command) (resume : Bool) (w : InstrWord) (e : DecodeReject)
    (hr : s.runState = .running c resume) (hu : s.underLimit) (hf : s.Fetches w)
    (hd : decode s.params.xlen w = .error e) :
    step s = .next { s with err := .decodeError s.pc w, runState := .halted } := by
  simp [step, hr, loopHead, s.stepLimitReached_of_underLimit hu, s.fetch_of_fetches w hf, hd, takeFault_eq]

/-- Settles O4: a matching row is the one `find?` finds, since rows conflict pairwise; with none the decoder rejects. -/
theorem decodeFollowsTheTable : Obligations.DecodeFollowsTheTable := by
  refine ⟨fun x w r hr hx hw => ?_, opcodeTable_hits_unique, fun s c resume w hr hu hf hnone => ?_⟩
  · exact decode_of_hits x w r hr ((r.hits_iff x w).mpr ⟨hx, hw⟩)
  · have rejected : decode s.params.xlen w = .error (.noRow w) :=
      decode_noRow_of_not_hits _ w fun r hr hit => hnone r hr ((r.hits_iff _ w).mp hit)
    exact step_of_decode_error s c resume w _ hr hu hf rejected

end Sys2Proof.Machine
end

section
/-! What the fields of a word say of the row it matches: the low two bits (R126), and the opcodes `SYSTEM` (R124)
and `MISC-MEM` (R123). -/

namespace Sys2Proof

/-- A field that the row's mask covers holds the row's own bits in every word that the row matches. -/
theorem OpcodeRow.field_of_hits (r : OpcodeRow) (x : Xlen) (w : InstrWord) (start len : Nat)
    (hm : r.mask.extractLsb' start len = BitVec.allOnes len) (h : r.hits x w = true) :
    w.extractLsb' start len = r.pattern.extractLsb' start len :=
  field_of_masked w r.mask r.pattern start len ((r.hits_iff x w).mp h).2 hm

/-- Every row fixes the opcode field (R116). -/
theorem opcodeTable_mask_opcode : ∀ r ∈ opcodeTable, r.mask.extractLsb' 0 7 = BitVec.allOnes 7 := by
  decide +kernel

theorem opcode_of_hits (x : Xlen) (w : InstrWord) (r : OpcodeRow) (hr : r ∈ opcodeTable) (h : r.hits x w = true) :
    r.pattern.extractLsb' 0 7 = w.extractLsb' 0 7 :=
  (r.field_of_hits x w 0 7 (opcodeTable_mask_opcode r hr) h).symm

/-- An instruction whose word matches its row is decoded from that word. -/
theorem decode_encode_of_rowMatches (x : Xlen) (i : Instr) (hw : i.wf x = true) (h : Laws.RowMatches.Statement i) :
    decode x (encode i) = .ok i := by
  obtain ⟨r, hr, hit, built⟩ := h x hw
  rw [decode_of_hits x _ r hr hit, built]

/-! ### The low two bits -/

/-- Every row fixes the low two bits, and to 11 (R126). -/
theorem opcodeTable_low_bits : ∀ r ∈ opcodeTable,
    r.mask.extractLsb' 0 2 = BitVec.allOnes 2 ∧ r.pattern.extractLsb' 0 2 = 0b11#2 := by
  decide +kernel

/-- Settles O7: a row that matched would fix the low two bits to 11. -/
theorem shortPatternsAreRejected : Obligations.ShortPatternsAreRejected := by
  intro x w hw
  refine decode_noRow_of_not_hits x w fun r hr hit => hw ?_
  obtain ⟨fixed, ones⟩ := opcodeTable_low_bits r hr
  exact (r.field_of_hits x w 0 2 fixed hit).trans ones

/-! ### `SYSTEM` -/

/-- The rows of the `SYSTEM` opcode fix all 32 bits (R124). -/
theorem opcodeTable_system : ∀ r ∈ opcodeTable, r.pattern.extractLsb' 0 7 = 0x73#7 →
    r.mask = BitVec.allOnes 32 ∧ (r.pattern = 0x00000073#32 ∨ r.pattern = 0x00100073#32) := by
  decide +kernel

/-- Settles O5: a row that matched a third word would have the `SYSTEM` opcode, and so fix the word to one of the two. -/
theorem systemWordsAreEcallAndEbreak : Obligations.SystemWordsAreEcallAndEbreak := by
  intro x
  refine ⟨decode_encode_of_rowMatches x .ecall rfl Laws.RowMatches.ecall,
    decode_encode_of_rowMatches x .ebreak rfl Laws.RowMatches.ebreak, fun w ho notEcall notEbreak => ?_⟩
  refine decode_noRow_of_not_hits x w fun r hr hit => ?_
  obtain ⟨whole, ecallOrEbreak⟩ := opcodeTable_system r hr ((opcode_of_hits x w r hr hit).trans ho)
  have word : w = r.pattern := by
    have masked := ((r.hits_iff x w).mp hit).2
    rwa [whole, BitVec.and_allOnes] at masked
  rcases ecallOrEbreak with ecall | ebreak
  · exact notEcall (word.trans ecall)
  · exact notEbreak (word.trans ebreak)

/-! ### `MISC-MEM` -/

/-- The rows of the `MISC-MEM` opcode fix `funct3`, and to 000 (R123). -/
theorem opcodeTable_miscMem : ∀ r ∈ opcodeTable, r.pattern.extractLsb' 0 7 = 0x0F#7 →
    r.mask.extractLsb' 12 3 = BitVec.allOnes 3 ∧ r.pattern.extractLsb' 12 3 = 0#3 := by
  decide +kernel

/-- The `FENCE` that holds the word's fields (R123). -/
def fenceOfFields (w : InstrWord) : Instr :=
  .fence (w.extractLsb' 28 4) (w.extractLsb' 24 4) (w.extractLsb' 20 4) (fieldRs1 w) (fieldRd w)

theorem encode_fenceOfFields (w : InstrWord) (ho : w.extractLsb' 0 7 = 0x0F#7) (h3 : w.extractLsb' 12 3 = 0#3) :
    encode (fenceOfFields w) = w := by
  rw [fenceOfFields, encode, fenceFields_append]
  exact encodeI_fields w _ _ h3 ho

theorem decode_eq_fenceOfFields (x : Xlen) (w : InstrWord) (ho : w.extractLsb' 0 7 = 0x0F#7)
    (h3 : w.extractLsb' 12 3 = 0#3) : decode x w = .ok (fenceOfFields w) := by
  have decoded := decode_encode_of_rowMatches x (fenceOfFields w) rfl (Laws.RowMatches.fence _ _ _ _ _)
  rwa [encode_fenceOfFields w ho h3] at decoded

/-- Settles O6: `funct3` 000 makes the word the encoding of a `FENCE`, any other value contradicts the rows of the
opcode; `execFence` reads none of its fields. -/
theorem miscMemWordsAreFence : Obligations.MiscMemWordsAreFence := by
  refine ⟨fun x w ho => ⟨fun h3 => ⟨_, _, _, _, _, decode_eq_fenceOfFields x w ho h3⟩, fun h3 => ?_⟩,
    fun _ _ _ _ _ _ => rfl⟩
  refine decode_noRow_of_not_hits x w fun r hr hit => h3 ?_
  obtain ⟨fixed, zero⟩ := opcodeTable_miscMem r hr ((opcode_of_hits x w r hr hit).trans ho)
  exact (r.field_of_hits x w 12 3 fixed hit).trans zero

end Sys2Proof
end

section
/-! Integer instructions with an immediate operand (R140 to R155): their words, the values they compute, and what
they leave. The lemmas about words and about operand values serve every instruction shape. -/

namespace Sys2Proof.Machine

/-! ### Words -/

/-- An instruction whose word matches its row is decoded from the word it encodes to. -/
theorem encodedAs_of_rowMatches (i : Instr) (w : InstrWord) (he : encode i = w)
    (h : Laws.RowMatches.Statement i) : EncodedAs i w :=
  ⟨he, fun x hw => he ▸ decode_encode_of_rowMatches x i hw h⟩

/-- The masked word of a shift whose 6-bit amount is 32 or more: bit 25 is set (R109). -/
theorem encodeShift6_masked32_of_le (u sh : BitVec 6) (r1 : RegId) (f3 : BitVec 3) (rd : RegId) (op : BitVec 7)
    (h : 32 ≤ sh.toNat) :
    encodeShift6 u sh r1 f3 rd op &&& 0xFE00707F#32 = u ++ 1#1 ++ 0#5 ++ 0#5 ++ f3 ++ 0#5 ++ op := by
  have bit5 : sh[5] = true := by
    have := sh.isLt
    rw [← BitVec.getLsbD_eq_getElem, BitVec.getLsbD, Nat.testBit_eq_decide_div_mod_eq, decide_eq_true_eq]
    omega
  apply BitVec.eq_of_getLsbD_eq; intro i hi
  simp only [encodeShift6, encodeI, BitVec.getLsbD_and, BitVec.getLsbD_append]
  interval_cases i <;> simp [bit5]

/-! ### Operands -/

theorem State.toNat_x_low (s : State) (r : RegId) : ((s.x r).setWidth s.params.xlen.bits).toNat = s.u r :=
  toNat_low ..

theorem State.toInt_x_low (s : State) (r : RegId) : ((s.x r).setWidth s.params.xlen.bits).toInt = s.i r :=
  toInt_low ..

theorem State.toNat_imm12_low (s : State) (imm : BitVec 12) :
    ((s.imm12 imm).setWidth s.params.xlen.bits).toNat = wrap s.params.xlen imm.toInt := toNat_sext_low ..

theorem State.toInt_imm12_low (s : State) (imm : BitVec 12) :
    ((s.imm12 imm).setWidth s.params.xlen.bits).toInt = imm.toInt := toInt_sext_low _ imm (twelve_le_bits _)

theorem thirtyTwo_le_bits (x : Xlen) : 32 ≤ x.bits := by cases x <;> decide

/-- The low 32 bits of a register are those of its unsigned value. -/
theorem State.toNat_x_low32 (s : State) (r : RegId) : ((s.x r).setWidth 32).toNat = s.u r % 2 ^ 32 := by
  rw [State.u, unsignedValue, Nat.mod_mod_of_dvd _ (Nat.pow_dvd_pow 2 (thirtyTwo_le_bits s.params.xlen)),
    BitVec.toNat_setWidth]

/-- The low 32 bits of a register are those of its signed value. -/
theorem State.x_low32_eq_ofInt (s : State) (r : RegId) : (s.x r).setWidth 32 = BitVec.ofInt 32 (s.i r) := by
  apply BitVec.eq_of_toInt_eq
  rw [BitVec.toInt_setWidth, BitVec.toInt_ofInt, State.i, signedValue,
    Int.bmod_bmod_of_dvd (Nat.pow_dvd_pow 2 (thirtyTwo_le_bits s.params.xlen))]

/-- The low 32 bits of a register, read as signed. -/
theorem State.toInt_x_low32 (s : State) (r : RegId) :
    ((s.x r).setWidth 32).toInt = (s.u r : Int).bmod (2 ^ 32) := by
  rw [BitVec.toInt_eq_toNat_bmod, s.toNat_x_low32, Int.natCast_emod, Int.emod_bmod]

/-! ### The shapes of operation -/

/-- A register-immediate instruction whose function gives `n` writes `n` (R140). -/
theorem writesReg_of_opImm (i : Instr) (s : State) (f : (w : Nat) → BitVec w → BitVec w → BitVec w)
    (rd rs1 : RegId) (imm : BitVec 12) (n : Nat) (hf : s.notFull) (he : exec i s = opImm f rd rs1 imm s)
    (hv : (s.params.xlen.lift2 f (s.x rs1) (s.imm12 imm)).toNat = n) : WritesReg i s rd n s.pcPlus4 :=
  writesReg_of_writeBack i s rd _ n hf he hv

/-- A shift by an amount that the `XLEN` has, likewise (R149 to R151). -/
theorem writesReg_of_opShift (i : Instr) (s : State) (f : (w : Nat) → BitVec w → BitVec w → BitVec w)
    (rd rs1 : RegId) (shamt : BitVec 6) (n : Nat) (hf : s.notFull) (hw : i.wf s.params.xlen = true)
    (he : exec i s = whenDecodable i s (opShift f rd rs1 shamt s))
    (hv : (s.params.xlen.lift2 f (s.x rs1) (shamt.setWidth 64)).toNat = n) : WritesReg i s rd n s.pcPlus4 :=
  writesReg_of_writeBack i s rd _ n hf (he.trans (whenDecodable_of_wf i s _ hw)) hv

/-- A `*W` instruction whose 32-bit function gives the signed value `z` writes `z` modulo `2^64`. -/
theorem writesReg_of_opWord (i : Instr) (s : State) (f : (w : Nat) → BitVec w → BitVec w → BitVec w)
    (rd rs1 : RegId) (b : BitVec 32) (z : Int) (hf : s.notFull) (hx : s.params.xlen = .rv64)
    (hw : i.wf .rv64 = true) (he : exec i s = whenDecodable i s (opWord f rd rs1 b s))
    (hv : (f 32 ((s.x rs1).setWidth 32) b).toInt = z) : WritesReg i s rd (wrap .rv64 z) s.pcPlus4 := by
  refine writesReg_of_writeBack i s rd _ _ hf (he.trans (whenDecodable_of_wf i s _ (hx ▸ hw))) ?_
  rw [hx]
  exact toNat_sext32 _ z hv

/-! ### `LUI` and `AUIPC` -/

/-- Settles O29: `LUI`'s value is the sign-extended field, `AUIPC`'s its sum with `pc`. -/
theorem upperImmediates : Obligations.UpperImmediates := fun rd imm =>
  ⟨encodedAs_of_rowMatches _ _ rfl (Laws.RowMatches.lui rd imm),
    encodedAs_of_rowMatches _ _ rfl (Laws.RowMatches.auipc rd imm),
    fun s hf => ⟨writesReg_of_writeBack _ s rd (s.immU imm) _ hf rfl (toNat_sext_wrap _ _),
      writesReg_of_writeBack _ s rd (s.add s.pc (s.immU imm)) _ hf rfl (s.toNat_add_sext s.pc _)⟩⟩

/-! ### `ADDI` to `ANDI` -/

/-- Settles O30: each function in numbers (`toNat_lift_add` and its like), its operands read by the lemmas above. -/
theorem immediateArithmetic : Obligations.ImmediateArithmetic := by
  intro rd rs1 imm
  refine ⟨encodedAs_of_rowMatches _ _ rfl (Laws.RowMatches.addi rd rs1 imm),
    encodedAs_of_rowMatches _ _ rfl (Laws.RowMatches.slti rd rs1 imm),
    encodedAs_of_rowMatches _ _ rfl (Laws.RowMatches.sltiu rd rs1 imm),
    encodedAs_of_rowMatches _ _ rfl (Laws.RowMatches.xori rd rs1 imm),
    encodedAs_of_rowMatches _ _ rfl (Laws.RowMatches.ori rd rs1 imm),
    encodedAs_of_rowMatches _ _ rfl (Laws.RowMatches.andi rd rs1 imm), fun s hf => ⟨?_, ?_, ?_, ?_, ?_, ?_⟩⟩
  · refine writesReg_of_opImm _ s aluAdd rd rs1 imm _ hf rfl ?_
    rw [toNat_lift_add, s.toInt_x_low, s.toInt_imm12_low]
  · refine writesReg_of_opImm _ s aluSlt rd rs1 imm _ hf rfl ?_
    rw [toNat_lift_slt, s.toInt_x_low, s.toInt_imm12_low]
  · refine writesReg_of_opImm _ s aluSltu rd rs1 imm _ hf rfl ?_
    rw [toNat_lift_sltu, s.toNat_x_low, s.toNat_imm12_low]
  · refine writesReg_of_opImm _ s aluXor rd rs1 imm _ hf rfl ?_
    rw [toNat_lift_xor, s.toNat_x_low, s.toNat_imm12_low]
  · refine writesReg_of_opImm _ s aluOr rd rs1 imm _ hf rfl ?_
    rw [toNat_lift_or, s.toNat_x_low, s.toNat_imm12_low]
  · refine writesReg_of_opImm _ s aluAnd rd rs1 imm _ hf rfl ?_
    rw [toNat_lift_and, s.toNat_x_low, s.toNat_imm12_low]

/-! ### `SLLI`, `SRLI`, `SRAI` -/

/-- Settles O31: an amount below `XLEN` is used as it is; one of 32 or more sets bit 25 of the word, which the
shift rows of `XLEN = 32` have clear. -/
theorem immediateShifts : Obligations.ImmediateShifts := by
  intro rd rs1 shamt
  refine ⟨encodedAs_of_rowMatches _ _ rfl (Laws.RowMatches.slli rd rs1 shamt),
    encodedAs_of_rowMatches _ _ rfl (Laws.RowMatches.srli rd rs1 shamt),
    encodedAs_of_rowMatches _ _ rfl (Laws.RowMatches.srai rd rs1 shamt), fun h => ⟨?_, ?_, ?_⟩, fun s hf h => ?_⟩
  · exact decode_noRow_of_excluded .rv32 _ _ _ (encodeShift6_masked32_of_le _ _ _ _ _ _ h) (by decide +kernel)
  · exact decode_noRow_of_excluded .rv32 _ _ _ (encodeShift6_masked32_of_le _ _ _ _ _ _ h) (by decide +kernel)
  · exact decode_noRow_of_excluded .rv32 _ _ _ (encodeShift6_masked32_of_le _ _ _ _ _ _ h) (by decide +kernel)
  · have fits : shamtFits s.params.xlen shamt = true := decide_eq_true h
    refine ⟨writesReg_of_opShift _ s aluSll rd rs1 shamt _ hf fits rfl ?_,
      writesReg_of_opShift _ s aluSrl rd rs1 shamt _ hf fits rfl ?_,
      writesReg_of_opShift _ s aluSra rd rs1 shamt _ hf fits rfl ?_⟩
    · rw [toNat_lift_sll, s.toNat_x_low, toNat_shamt _ _ h]
    · rw [toNat_lift_srl, s.toNat_x_low, toNat_shamt _ _ h]
    · rw [toNat_lift_sra, s.toInt_x_low, toNat_shamt _ _ h]

/-! ### `ADDIW`, `SLLIW`, `SRLIW`, `SRAIW` -/

/-- `aluAdd` at 32 bits, on operands known as integers (R152). -/
theorem toInt_aluAdd32 (a b : Int) :
    (aluAdd 32 (BitVec.ofInt 32 a) (BitVec.ofInt 32 b)).toInt = (a + b).bmod (2 ^ 32) := by
  rw [aluAdd, ← BitVec.ofInt_add, BitVec.toInt_ofInt]

theorem toInt_aluSll32 (a b : BitVec 32) :
    (aluSll 32 a b).toInt = ((a.toNat * 2 ^ (b.toNat % 32) : Nat) : Int).bmod (2 ^ 32) := by
  rw [aluSll, BitVec.toInt_eq_toNat_bmod, BitVec.toNat_shiftLeft, Nat.shiftLeft_eq, Int.natCast_emod,
    Int.emod_bmod]

theorem toInt_aluSrl32 (a b : BitVec 32) :
    (aluSrl 32 a b).toInt = ((a.toNat / 2 ^ (b.toNat % 32) : Nat) : Int).bmod (2 ^ 32) := by
  rw [aluSrl, BitVec.toInt_eq_toNat_bmod, BitVec.toNat_ushiftRight, Nat.shiftRight_eq_div_pow]

theorem toInt_aluSra32 (a b : BitVec 32) : (aluSra 32 a b).toInt = a.toInt / 2 ^ (b.toNat % 32) := by
  rw [aluSra, BitVec.toInt_sshiftRight, Int.shiftRight_eq_div_pow]
  norm_cast

/-- A 5-bit shift amount is used as it is (R109). -/
theorem toNat_shamt5 (shamt : BitVec 5) : (shamt.setWidth 32).toNat % 32 = shamt.toNat := by
  rw [BitVec.toNat_setWidth]; omega

/-- Settles O32: each 32-bit function in numbers, on the low 32 bits of `x[rs1]`; no row of `XLEN = 32` has the
opcode 0x1B. -/
theorem wordImmediates : Obligations.WordImmediates := by
  intro rd rs1 imm shamt
  refine ⟨encodedAs_of_rowMatches _ _ rfl (Laws.RowMatches.addiw rd rs1 imm),
    encodedAs_of_rowMatches _ _ rfl (Laws.RowMatches.slliw rd rs1 shamt),
    encodedAs_of_rowMatches _ _ rfl (Laws.RowMatches.srliw rd rs1 shamt),
    encodedAs_of_rowMatches _ _ rfl (Laws.RowMatches.sraiw rd rs1 shamt),
    decode_noRow_of_excluded .rv32 _ _ _ (encodeI_masked _ _ _ _ _) (by decide +kernel),
    decode_noRow_of_excluded .rv32 _ _ _ (encodeShift5_masked _ _ _ _ _ _) (by decide +kernel),
    decode_noRow_of_excluded .rv32 _ _ _ (encodeShift5_masked _ _ _ _ _ _) (by decide +kernel),
    decode_noRow_of_excluded .rv32 _ _ _ (encodeShift5_masked _ _ _ _ _ _) (by decide +kernel), fun s hf hx => ?_⟩
  refine ⟨writesReg_of_opWord _ s aluAdd rd rs1 (imm.signExtend 32) _ hf hx rfl rfl ?_,
    writesReg_of_opWord _ s aluSll rd rs1 (shamt.setWidth 32) _ hf hx rfl rfl ?_,
    writesReg_of_opWord _ s aluSrl rd rs1 (shamt.setWidth 32) _ hf hx rfl rfl ?_,
    writesReg_of_opWord _ s aluSra rd rs1 (shamt.setWidth 32) _ hf hx rfl rfl ?_⟩
  · rw [s.x_low32_eq_ofInt, BitVec.signExtend, toInt_aluAdd32]
  · rw [toInt_aluSll32, s.toNat_x_low32, toNat_shamt5]
  · rw [toInt_aluSrl32, s.toNat_x_low32, toNat_shamt5]
  · rw [toInt_aluSra32, s.toInt_x_low32, toNat_shamt5]

end Sys2Proof.Machine
end

section
/-! Integer instructions with two register operands (R170 to R185): their words, the values they compute, and what
they leave. -/

namespace Sys2Proof.Machine

/-- A register-register instruction whose function gives `n` on the sources as they stand before the write writes
`n`, `rd` among the sources or not (R170). -/
theorem writesReg_of_opReg (i : Instr) (s : State) (f : (w : Nat) → BitVec w → BitVec w → BitVec w)
    (rd rs1 rs2 : RegId) (n : Nat) (hf : s.notFull) (he : exec i s = opReg f rd rs1 rs2 s)
    (hv : (s.params.xlen.lift2 f (s.x rs1) (s.x rs2)).toNat = n) : WritesReg i s rd n s.pcPlus4 :=
  writesReg_of_writeBack i s rd _ n hf he hv

/-! ### `ADD`, `SUB`, `SLT`, `SLTU`, `XOR`, `OR`, `AND` -/

/-- Settles O33: each function in numbers (`toNat_lift_add` and its like), both operands read as registers. -/
theorem registerArithmetic : Obligations.RegisterArithmetic := by
  intro rd rs1 rs2
  refine ⟨encodedAs_of_rowMatches _ _ rfl (Laws.RowMatches.add rd rs1 rs2),
    encodedAs_of_rowMatches _ _ rfl (Laws.RowMatches.sub rd rs1 rs2),
    encodedAs_of_rowMatches _ _ rfl (Laws.RowMatches.slt rd rs1 rs2),
    encodedAs_of_rowMatches _ _ rfl (Laws.RowMatches.sltu rd rs1 rs2),
    encodedAs_of_rowMatches _ _ rfl (Laws.RowMatches.xor rd rs1 rs2),
    encodedAs_of_rowMatches _ _ rfl (Laws.RowMatches.or rd rs1 rs2),
    encodedAs_of_rowMatches _ _ rfl (Laws.RowMatches.and rd rs1 rs2), fun s hf => ⟨?_, ?_, ?_, ?_, ?_, ?_, ?_⟩⟩
  · refine writesReg_of_opReg _ s aluAdd rd rs1 rs2 _ hf rfl ?_
    rw [toNat_lift_add, s.toInt_x_low, s.toInt_x_low]
  · refine writesReg_of_opReg _ s aluSub rd rs1 rs2 _ hf rfl ?_
    rw [toNat_lift_sub, s.toInt_x_low, s.toInt_x_low]
  · refine writesReg_of_opReg _ s aluSlt rd rs1 rs2 _ hf rfl ?_
    rw [toNat_lift_slt, s.toInt_x_low, s.toInt_x_low]
  · refine writesReg_of_opReg _ s aluSltu rd rs1 rs2 _ hf rfl ?_
    rw [toNat_lift_sltu, s.toNat_x_low, s.toNat_x_low]
  · refine writesReg_of_opReg _ s aluXor rd rs1 rs2 _ hf rfl ?_
    rw [toNat_lift_xor, s.toNat_x_low, s.toNat_x_low]
  · refine writesReg_of_opReg _ s aluOr rd rs1 rs2 _ hf rfl ?_
    rw [toNat_lift_or, s.toNat_x_low, s.toNat_x_low]
  · refine writesReg_of_opReg _ s aluAnd rd rs1 rs2 _ hf rfl ?_
    rw [toNat_lift_and, s.toNat_x_low, s.toNat_x_low]

/-! ### `SLL`, `SRL`, `SRA` -/

/-- Settles O34: each shift function in numbers; it takes the amount modulo `XLEN` itself. -/
theorem registerShifts : Obligations.RegisterShifts := by
  intro rd rs1 rs2
  refine ⟨encodedAs_of_rowMatches _ _ rfl (Laws.RowMatches.sll rd rs1 rs2),
    encodedAs_of_rowMatches _ _ rfl (Laws.RowMatches.srl rd rs1 rs2),
    encodedAs_of_rowMatches _ _ rfl (Laws.RowMatches.sra rd rs1 rs2), fun s hf => ⟨?_, ?_, ?_⟩⟩
  · refine writesReg_of_opReg _ s aluSll rd rs1 rs2 _ hf rfl ?_
    rw [toNat_lift_sll, s.toNat_x_low, s.toNat_x_low]
  · refine writesReg_of_opReg _ s aluSrl rd rs1 rs2 _ hf rfl ?_
    rw [toNat_lift_srl, s.toNat_x_low, s.toNat_x_low]
  · refine writesReg_of_opReg _ s aluSra rd rs1 rs2 _ hf rfl ?_
    rw [toNat_lift_sra, s.toInt_x_low, s.toNat_x_low]

/-! ### `ADDW`, `SUBW`, `SLLW`, `SRLW`, `SRAW` -/

theorem opcode_encodeR (f7 : BitVec 7) (r2 r1 : RegId) (f3 : BitVec 3) (rd : RegId) (op : BitVec 7) :
    (encodeR f7 r2 r1 f3 rd op).extractLsb' 0 7 = op := by
  apply BitVec.eq_of_getLsbD_eq; intro i hi
  simp only [encodeR, BitVec.getLsbD_extractLsb', BitVec.getLsbD_append]
  interval_cases i <;> simp

/-- The rows of the `OP-32` opcode are not in the table of `XLEN = 32` (R181 to R185). -/
theorem opcodeTable_op32 : ∀ r ∈ opcodeTable, r.pattern.extractLsb' 0 7 = 0x3B#7 → r.has .rv32 = false := by
  decide +kernel

/-- A word with the `OP-32` opcode is a decode error at `XLEN = 32`. -/
theorem decode_rv32_of_op32 (w : InstrWord) (ho : w.extractLsb' 0 7 = 0x3B#7) :
    decode .rv32 w = .error (.noRow w) := by
  refine decode_noRow_of_not_hits .rv32 w fun r hr hit => ?_
  have absent := opcodeTable_op32 r hr ((opcode_of_hits .rv32 w r hr hit).trans ho)
  exact Bool.eq_false_iff.mp absent ((r.hits_iff .rv32 w).mp hit).1

/-- `aluSub` at 32 bits, on operands known as integers (R182). -/
theorem toInt_aluSub32 (a b : Int) :
    (aluSub 32 (BitVec.ofInt 32 a) (BitVec.ofInt 32 b)).toInt = (a - b).bmod (2 ^ 32) := by
  rw [aluSub, BitVec.toInt_sub, BitVec.toInt_ofInt, BitVec.toInt_ofInt, Int.sub_bmod_bmod, Int.bmod_sub_bmod]

/-- The low five bits of a register are its unsigned value modulo 32 (R183). -/
theorem State.toNat_x_low5 (s : State) (r : RegId) : ((s.x r).setWidth 32).toNat % 32 = s.u r % 32 := by
  rw [s.toNat_x_low32, Nat.mod_mod_of_dvd _ (by decide)]

/-- Settles O35: each 32-bit function in numbers, on the low 32 bits of both sources; no row of `XLEN = 32` has the
opcode 0x3B. -/
theorem wordRegister : Obligations.WordRegister := by
  intro rd rs1 rs2
  refine ⟨encodedAs_of_rowMatches _ _ rfl (Laws.RowMatches.addw rd rs1 rs2),
    encodedAs_of_rowMatches _ _ rfl (Laws.RowMatches.subw rd rs1 rs2),
    encodedAs_of_rowMatches _ _ rfl (Laws.RowMatches.sllw rd rs1 rs2),
    encodedAs_of_rowMatches _ _ rfl (Laws.RowMatches.srlw rd rs1 rs2),
    encodedAs_of_rowMatches _ _ rfl (Laws.RowMatches.sraw rd rs1 rs2),
    decode_rv32_of_op32 _ (opcode_encodeR ..), decode_rv32_of_op32 _ (opcode_encodeR ..),
    decode_rv32_of_op32 _ (opcode_encodeR ..), decode_rv32_of_op32 _ (opcode_encodeR ..),
    decode_rv32_of_op32 _ (opcode_encodeR ..), fun s hf hx => ?_⟩
  refine ⟨writesReg_of_opWord _ s aluAdd rd rs1 ((s.x rs2).setWidth 32) _ hf hx rfl rfl ?_,
    writesReg_of_opWord _ s aluSub rd rs1 ((s.x rs2).setWidth 32) _ hf hx rfl rfl ?_,
    writesReg_of_opWord _ s aluSll rd rs1 ((s.x rs2).setWidth 32) _ hf hx rfl rfl ?_,
    writesReg_of_opWord _ s aluSrl rd rs1 ((s.x rs2).setWidth 32) _ hf hx rfl rfl ?_,
    writesReg_of_opWord _ s aluSra rd rs1 ((s.x rs2).setWidth 32) _ hf hx rfl rfl ?_⟩
  · rw [s.x_low32_eq_ofInt, s.x_low32_eq_ofInt, toInt_aluAdd32]
  · rw [s.x_low32_eq_ofInt, s.x_low32_eq_ofInt, toInt_aluSub32]
  · rw [toInt_aluSll32, s.toNat_x_low32, s.toNat_x_low5]
  · rw [toInt_aluSrl32, s.toNat_x_low32, s.toNat_x_low5]
  · rw [toInt_aluSra32, s.toInt_x_low32, s.toNat_x_low5]

end Sys2Proof.Machine
end

section
/-! Jumps and conditional branches (R200 to R211): their words, their targets, and what they leave. -/

namespace Sys2Proof.Machine

/-! ### Control transfers -/

theorem transferTo_of_aligned (target : Word) (t s : State) (h : target.toNat % 4 = 0) :
    transferTo target t s = complete target t := if_neg (not_not_intro h)

theorem transferTo_of_misaligned (target : Word) (t s : State) (h : target.toNat % 4 ≠ 0) :
    transferTo target t s = takeFault (.instrAddrMisaligned s.pc target) s := if_pos h

/-- A transfer to a target that is no multiple of 4 raises, whatever its other effect would have been (R201). -/
theorem raises_of_transferTo (i : Instr) (s t : State) (target : Word) (n : Nat)
    (he : exec i s = transferTo target t s) (ht : target.toNat = n) (hn : n % 4 ≠ 0) :
    Raises i s (.instrAddrMisaligned s.pc (BitVec.ofNat 64 n)) := by
  subst ht
  rw [BitVec.ofNat_toNat, BitVec.setWidth_eq]
  exact raises_of_takeFault i s _ (he.trans (transferTo_of_misaligned target t s hn))

/-! ### `JAL` and `JALR` -/

/-- A jump to an aligned target writes `pc + 4` to `rd` and goes there; to any other it raises (R201). -/
theorem jump_writesReg_or_raises (i : Instr) (s : State) (rd : RegId) (target : Word) (n : Nat)
    (he : exec i s = transferTo target (s.setX rd s.seqPc) s) (ht : target.toNat = n) :
    (n % 4 = 0 → s.notFull → WritesReg i s rd s.pcPlus4 n)
      ∧ (n % 4 ≠ 0 → Raises i s (.instrAddrMisaligned s.pc (BitVec.ofNat 64 n))) := by
  refine ⟨fun aligned hf => ?_, raises_of_transferTo i s _ target n he ht⟩
  have completes := he.trans (transferTo_of_aligned target _ s (ht ▸ aligned))
  exact writesReg_of_complete i s rd s.seqPc target _ n hf completes s.toNat_seqPc ht

/-- Settles O36: both are jumps in the sense above, each with its own target. -/
theorem jumps : Obligations.Jumps := fun rd rs1 off imm =>
  ⟨fun _ => encodedAs_of_rowMatches _ _ rfl (Laws.RowMatches.jal rd off),
    encodedAs_of_rowMatches _ _ rfl (Laws.RowMatches.jalr rd rs1 imm), fun s target =>
    ⟨fun h => jump_writesReg_or_raises (.jal rd off) s rd (s.relTarget off) target rfl
        ((s.toNat_relTarget off).trans h.symm),
      fun h => jump_writesReg_or_raises (.jalr rd rs1 imm) s rd (s.jalrTarget rs1 imm) target rfl
        ((s.toNat_jalrTarget rs1 imm).trans h.symm)⟩⟩

/-! ### `BEQ` to `BGEU` -/

section
/-! Each comparison of two registers, in their unsigned or signed values (R206 to R211). -/

variable (s : State) (rs1 rs2 : RegId)

theorem State.compare_cmpEq_iff :
    s.params.xlen.compare cmpEq (s.x rs1) (s.x rs2) = true ↔ s.u rs1 = s.u rs2 := by
  rw [Xlen.compare_eq, cmpEq, beq_iff_eq, ← BitVec.toNat_inj, s.toNat_x_low, s.toNat_x_low]

theorem State.compare_cmpNe_iff :
    s.params.xlen.compare cmpNe (s.x rs1) (s.x rs2) = true ↔ s.u rs1 ≠ s.u rs2 := by
  rw [Xlen.compare_eq, cmpNe, bne_iff_ne, BitVec.toNat_ne, s.toNat_x_low, s.toNat_x_low]

theorem State.compare_cmpLtS_iff :
    s.params.xlen.compare cmpLtS (s.x rs1) (s.x rs2) = true ↔ s.i rs1 < s.i rs2 := by
  rw [Xlen.compare_eq, cmpLtS, BitVec.slt_iff_toInt_lt, s.toInt_x_low, s.toInt_x_low]

theorem State.compare_cmpGeS_iff :
    s.params.xlen.compare cmpGeS (s.x rs1) (s.x rs2) = true ↔ s.i rs2 ≤ s.i rs1 := by
  rw [Xlen.compare_eq, cmpGeS, BitVec.sle_iff_toInt_le, s.toInt_x_low, s.toInt_x_low]

theorem State.compare_cmpLtU_iff :
    s.params.xlen.compare cmpLtU (s.x rs1) (s.x rs2) = true ↔ s.u rs1 < s.u rs2 := by
  rw [Xlen.compare_eq, cmpLtU, BitVec.ult_iff_lt, BitVec.lt_def, s.toNat_x_low, s.toNat_x_low]

theorem State.compare_cmpGeU_iff :
    s.params.xlen.compare cmpGeU (s.x rs1) (s.x rs2) = true ↔ s.u rs2 ≤ s.u rs1 := by
  rw [Xlen.compare_eq, cmpGeU, BitVec.ule_iff_le, BitVec.le_def, s.toNat_x_low, s.toNat_x_low]

end

/-- A branch transfers control when its comparison holds and goes on to `pc + 4` otherwise (R205). -/
theorem branchRule_of_opBranch (i : Instr) (s : State) (cond : (w : Nat) → BitVec w → BitVec w → Bool)
    (rs1 rs2 : RegId) (off : BitVec 13) (taken : Prop) (he : exec i s = opBranch cond rs1 rs2 off s)
    (hc : s.params.xlen.compare cond (s.x rs1) (s.x rs2) = true ↔ taken) : BranchRule i s off taken := by
  have transfers (h : taken) : exec i s = transferTo (s.relTarget off) s s := he.trans (if_pos (hc.mpr h))
  have target := s.toNat_relTarget off
  refine ⟨fun h aligned hf => ?_, fun h => raises_of_transferTo i s s _ _ (transfers h) target, fun h hf => ?_⟩
  · have completes := (transfers h).trans (transferTo_of_aligned _ s s (target ▸ aligned))
    exact goesTo_of_complete i s _ _ hf completes target
  · have completes : exec i s = complete s.seqPc s := he.trans (if_neg (h ∘ hc.mp))
    exact goesTo_of_complete i s _ _ hf completes s.toNat_seqPc

/-- Settles O37: each of the six is a branch by its own comparison, read in numbers by the lemmas above. -/
theorem conditionalBranches : Obligations.ConditionalBranches := fun rs1 rs2 off =>
  ⟨fun _ => ⟨encodedAs_of_rowMatches _ _ rfl (Laws.RowMatches.beq rs1 rs2 off),
      encodedAs_of_rowMatches _ _ rfl (Laws.RowMatches.bne rs1 rs2 off),
      encodedAs_of_rowMatches _ _ rfl (Laws.RowMatches.blt rs1 rs2 off),
      encodedAs_of_rowMatches _ _ rfl (Laws.RowMatches.bge rs1 rs2 off),
      encodedAs_of_rowMatches _ _ rfl (Laws.RowMatches.bltu rs1 rs2 off),
      encodedAs_of_rowMatches _ _ rfl (Laws.RowMatches.bgeu rs1 rs2 off)⟩,
    fun s => ⟨branchRule_of_opBranch _ s cmpEq rs1 rs2 off _ rfl (s.compare_cmpEq_iff rs1 rs2),
      branchRule_of_opBranch _ s cmpNe rs1 rs2 off _ rfl (s.compare_cmpNe_iff rs1 rs2),
      branchRule_of_opBranch _ s cmpLtS rs1 rs2 off _ rfl (s.compare_cmpLtS_iff rs1 rs2),
      branchRule_of_opBranch _ s cmpGeS rs1 rs2 off _ rfl (s.compare_cmpGeS_iff rs1 rs2),
      branchRule_of_opBranch _ s cmpLtU rs1 rs2 off _ rfl (s.compare_cmpLtU_iff rs1 rs2),
      branchRule_of_opBranch _ s cmpGeU rs1 rs2 off _ rfl (s.compare_cmpGeU_iff rs1 rs2)⟩⟩

end Sys2Proof.Machine
end

section
/-! Loads and stores (R220 to R233): their words, the value a load writes, the bytes a store leaves, and the alignment
fault of both. -/

namespace Sys2Proof.Machine

/-! ### Extensions of the value read -/

/-- The low `k` bits of a value, sign-extended (R223 to R225). -/
theorem toNat_sext_setWidth (x : Xlen) (k : Nat) (v : Word) :
    (x.sext (v.setWidth k)).toNat = wrap x ((v.toNat : Int).bmod (2 ^ k)) := by
  rw [toNat_sext_wrap, BitVec.toInt_setWidth]

/-- Zero-extension keeps a value of at most `k` bits (R226 to R228). -/
theorem toNat_zext_setWidth_of_lt (x : Xlen) (k : Nat) (v : Word) (hk : k ≤ x.bits) (hv : v.toNat < 2 ^ k) :
    (x.zext (v.setWidth k)).toNat = v.toNat := by
  rw [x.toNat_zext, BitVec.toNat_setWidth, Nat.mod_eq_of_lt hv,
    Nat.mod_eq_of_lt (hv.trans_le (Nat.pow_le_pow_right (by decide) hk))]

theorem State.readBytes_lt (s : State) (a : Nat) (w : Width) :
    (composeLE (s.mem.readBytes s.params.xlen a w.bytes)).toNat < 256 ^ w.bytes := by
  simpa using (composeLE_toNat (s.mem.readBytes s.params.xlen a w.bytes) (by simpa using Width.bytes_le_eight w)).2

/-! ### The two shapes -/

section

variable (s : State) (w : Width) (rs1 : RegId) (imm : BitVec 12)

theorem opLoad_of_allowed (extend : Word → Word) (rd : RegId) (h : s.allowed (s.eaNat rs1 imm) w.bytes) :
    opLoad w extend rd rs1 imm s
      = writeBack rd (extend (composeLE (s.mem.readBytes s.params.xlen (s.eaNat rs1 imm) w.bytes))) s := by
  rw [← s.toNat_ea_eaNat] at h ⊢
  rw [opLoad, s.memRead_allowed _ w h]

theorem opLoad_of_not_allowed (extend : Word → Word) (rd : RegId) (h : ¬ s.allowed (s.eaNat rs1 imm) w.bytes) :
    opLoad w extend rd rs1 imm s = takeFault (.alignmentError (BitVec.ofNat 64 (s.eaNat rs1 imm)) w false) s := by
  rw [← s.toNat_ea_eaNat] at h
  rw [opLoad, s.memRead_not_allowed _ w h, s.ea_eq]

theorem opStore_of_allowed (rs2 : RegId) (h : s.allowed (s.eaNat rs1 imm) w.bytes) :
    opStore w rs2 rs1 imm s
      = complete s.seqPc (s.writeData (s.eaNat rs1 imm) (bytesLE w.bytes (s.x rs2))) := by
  rw [← s.toNat_ea_eaNat] at h ⊢
  rw [opStore, s.memWrite_allowed _ _ w h]

theorem opStore_of_not_allowed (rs2 : RegId) (h : ¬ s.allowed (s.eaNat rs1 imm) w.bytes) :
    opStore w rs2 rs1 imm s = takeFault (.alignmentError (BitVec.ofNat 64 (s.eaNat rs1 imm)) w true) s := by
  rw [← s.toNat_ea_eaNat] at h
  rw [opStore, s.memWrite_not_allowed _ _ w h, s.ea_eq]

/-- A load whose extension gives `value` on every number of `w.bytes` bytes (R221). -/
theorem loadRule_of_opLoad (i : Instr) (extend : Word → Word) (rd : RegId) (value : Nat → Nat)
    (he : exec i s = opLoad w extend rd rs1 imm s)
    (hv : ∀ v : Word, v.toNat < 256 ^ w.bytes → (extend v).toNat = value v.toNat) :
    LoadRule i s rd rs1 imm w w.bytes value := by
  refine ⟨fun hf ha => ?_, fun ha => ?_⟩
  · refine writesReg_of_writeBack i s rd _ _ hf (he.trans (opLoad_of_allowed s w rs1 imm extend rd ha)) ?_
    rw [hv _ (s.readBytes_lt _ w), s.toNat_readBytes _ _ (Width.bytes_le_eight w)]
  · exact raises_of_takeFault i s _ (he.trans (opLoad_of_not_allowed s w rs1 imm extend rd ha))

/-- A store of the low `w.bytes` bytes of `x[rs2]` (R222). -/
theorem storeRule_of_opStore (i : Instr) (rs2 : RegId) (he : exec i s = opStore w rs2 rs1 imm s) :
    StoreRule i s rs2 rs1 imm w w.bytes := by
  refine ⟨fun hf hw ha => ?_, fun ha => ?_⟩
  · exact storesBytes_of_complete i s _ _ _ _ hf hw (he.trans (opStore_of_allowed s w rs1 imm rs2 ha))
      (bytesLE_length ..) (Width.bytes_le_pow_bits w _) (bytesLE_getElem _ _)
  · exact raises_of_takeFault i s _ (he.trans (opStore_of_not_allowed s w rs1 imm rs2 ha))

end

/-! ### `LB` to `LD`, `SB` to `SD` -/

/-- Settles O38: each load is `opLoad` at its width and extension; at `XLEN = 32` no row of the opcode 0x03 has the
`funct3` of `LWU` or `LD`. -/
theorem loads : Obligations.Loads := by
  intro rd rs1 imm
  refine ⟨encodedAs_of_rowMatches _ _ rfl (Laws.RowMatches.lb rd rs1 imm),
    encodedAs_of_rowMatches _ _ rfl (Laws.RowMatches.lh rd rs1 imm),
    encodedAs_of_rowMatches _ _ rfl (Laws.RowMatches.lw rd rs1 imm),
    encodedAs_of_rowMatches _ _ rfl (Laws.RowMatches.lbu rd rs1 imm),
    encodedAs_of_rowMatches _ _ rfl (Laws.RowMatches.lhu rd rs1 imm),
    encodedAs_of_rowMatches _ _ rfl (Laws.RowMatches.lwu rd rs1 imm),
    encodedAs_of_rowMatches _ _ rfl (Laws.RowMatches.ld rd rs1 imm),
    decode_noRow_of_excluded .rv32 _ _ _ (encodeI_masked _ _ _ _ _) (by decide +kernel),
    decode_noRow_of_excluded .rv32 _ _ _ (encodeI_masked _ _ _ _ _) (by decide +kernel), fun s => ?_⟩
  have fits : 32 ≤ s.params.xlen.bits := thirtyTwo_le_bits _
  refine ⟨loadRule_of_opLoad s .byte rs1 imm _ _ rd _ rfl fun v _ => toNat_sext_setWidth _ 8 v,
    loadRule_of_opLoad s .half rs1 imm _ _ rd _ rfl fun v _ => toNat_sext_setWidth _ 16 v,
    loadRule_of_opLoad s .word rs1 imm _ _ rd _ rfl fun v _ => toNat_sext_setWidth _ 32 v,
    loadRule_of_opLoad s .byte rs1 imm _ _ rd _ rfl fun v => toNat_zext_setWidth_of_lt _ 8 v (by omega),
    loadRule_of_opLoad s .half rs1 imm _ _ rd _ rfl fun v => toNat_zext_setWidth_of_lt _ 16 v (by omega),
    fun hx => ?_⟩
  have wide : needsRv64 s.params.xlen = true := beq_iff_eq.mpr hx
  exact ⟨loadRule_of_opLoad s .word rs1 imm _ _ rd _ (whenDecodable_of_wf (.lwu rd rs1 imm) s _ wide)
      fun v => toNat_zext_setWidth_of_lt _ 32 v fits,
    loadRule_of_opLoad s .long rs1 imm _ _ rd _ (whenDecodable_of_wf (.ld rd rs1 imm) s _ wide) fun _ _ => rfl⟩

/-- Settles O39: each store is `opStore` at its width; at `XLEN = 32` no row of the opcode 0x23 has the `funct3`
of `SD`. -/
theorem stores : Obligations.Stores := by
  intro rs2 rs1 imm
  refine ⟨encodedAs_of_rowMatches _ _ rfl (Laws.RowMatches.sb rs2 rs1 imm),
    encodedAs_of_rowMatches _ _ rfl (Laws.RowMatches.sh rs2 rs1 imm),
    encodedAs_of_rowMatches _ _ rfl (Laws.RowMatches.sw rs2 rs1 imm),
    encodedAs_of_rowMatches _ _ rfl (Laws.RowMatches.sd rs2 rs1 imm),
    decode_noRow_of_excluded .rv32 _ _ _ (encodeS_masked _ _ _ _ _) (by decide +kernel), fun s => ?_⟩
  refine ⟨storeRule_of_opStore s .byte rs1 imm _ rs2 rfl, storeRule_of_opStore s .half rs1 imm _ rs2 rfl,
    storeRule_of_opStore s .word rs1 imm _ rs2 rfl, fun hx => ?_⟩
  have wide : needsRv64 s.params.xlen = true := beq_iff_eq.mpr hx
  exact storeRule_of_opStore s .long rs1 imm _ rs2 (whenDecodable_of_wf (.sd rs2 rs1 imm) s _ wide)

end Sys2Proof.Machine
end

section
/-! System instructions and `FENCE` (R250 to R256): the no-operation, the call that ends the program, and the calls
that nothing serves. -/

namespace Sys2Proof.Machine

/-! ### `FENCE` -/

/-- Settles O40: `FENCE` reads none of its fields and completes in sequence. -/
theorem fenceIsNoOperation : Obligations.FenceIsNoOperation := fun fm pred succ rs1 rd =>
  ⟨encodedAs_of_rowMatches _ _ rfl (Laws.RowMatches.fence fm pred succ rs1 rd),
    fun s hf => goesTo_of_complete (.fence fm pred succ rs1 rd) s _ _ hf rfl s.toNat_seqPc⟩

/-! ### `ECALL` that ends the program -/

/-- The terminating call completes and leaves the engine Halted (R253). -/
theorem execEcall_of_exit (s : State) (hx : s.x 10 = s.params.exitA0) (hf : s.notFull) :
    execEcall s = .next (s.halt.advance s.seqPc) :=
  (if_pos hx).trans (complete_of_notFull s.seqPc s.halt hf)

/-- A Halted engine counts no cycle and stays Halted, whatever the host asks for but `RESET` (R320). -/
theorem step_halted_frame (s t : State) (hs : s.runState = .halted) (ht : step s = .next t)
    (hr : s.requests.head? ≠ some .reset) : t.cycles = s.cycles ∧ t.runState = .halted := by
  rw [step_of_halted s hs] at ht
  obtain ⟨-, cycles, -, halted⟩ := serveHost_frame s t ht hr (by simp [State.isRunning, hs])
  exact ⟨cycles, halted hs⟩

/-- Settles O42: the call leaves `s.halt.advance s.seqPc`, which differs from `s` in `pc`, `cycles` and the run state
alone; a Halted engine stays where it is. -/
theorem exitCallHalts : Obligations.ExitCallHalts := by
  intro s hx hf
  have counted : Counted s (s.halt.advance s.seqPc) s.pcPlus4 :=
    ⟨s.toNat_seqPc, s.halt.advance_cycles_toNat s.seqPc hf⟩
  exact ⟨s.halt.advance s.seqPc, execEcall_of_exit s hx hf, fun _ => rfl, counted, ⟨fun _ => rfl, rfl, rfl⟩,
    ⟨rfl, rfl, rfl, rfl⟩, rfl, rfl, rfl, rfl, rfl, rfl, rfl,
    fun u => step_halted_frame _ u rfl⟩

/-! ### `ECALL` that nothing serves -/

/-- A call that is neither the terminating one nor the service's is unsupported (R252). -/
theorem execEcall_of_no_service (s : State) (hx : s.x 10 ≠ s.params.exitA0)
    (h : s.params.hasAllocService = false ∨ s.x 10 ≠ s.params.allocMarker) : execEcall s = unsupportedCall s := by
  have notServed : (s.params.hasAllocService && s.x 10 == s.params.allocMarker) = false := by
    rcases h with absent | other
    · rw [absent, Bool.false_and]
    · rw [beq_false_of_ne other, Bool.and_false]
  rw [execEcall, if_neg hx, notServed, if_neg Bool.false_ne_true]

/-- A selector that names no operation makes the call unsupported, with the marker or without it (R256). -/
theorem execEcall_of_no_operation (s : State) (hx : s.x 10 ≠ s.params.exitA0)
    (h : AllocOp.ofSelector (s.x 16) = none) : execEcall s = unsupportedCall s := by
  rw [execEcall, if_neg hx, h, ite_self]

/-- Settles O43: an unsupported call takes its fault, for want of the service or the marker, or of an operation. -/
theorem unservedCallsRaise : Obligations.UnservedCallsRaise := by
  intro s hx h
  have unsupported : execEcall s = unsupportedCall s := by
    rcases h with absent | other | selector
    · exact execEcall_of_no_service s hx (.inl absent)
    · exact execEcall_of_no_service s hx (.inr other)
    · exact execEcall_of_no_operation s hx (ofSelector_none _ selector)
  exact raises_of_takeFault .ecall s _ unsupported

end Sys2Proof.Machine
end

section
/-! The command loop at its edges: the step guard (R323, R361), the breakpoint pause (R315), and Halted (R320). -/

namespace Sys2Proof.Machine

/-! ### Breakpoints -/

theorem loopHead_of_honoured_ebreak (s : State) (c : Command) (hu : s.underLimit) (hf : s.Fetches 0x00100073#32)
    (hh : s.Honours c) : loopHead c false s = .stop (.next { s with runState := .atBreakpoint }) := by
  have decoded : decode s.params.xlen 0x00100073#32 = .ok .ebreak :=
    (systemWordsAreEcallAndEbreak s.params.xlen).2.1
  simp [loopHead, s.stepLimitReached_of_underLimit hu, s.fetch_of_fetches _ hf, decoded, (s.honours_iff c).mpr hh]

/-- Settles O14: such a pass of the loop ends at its head, in the pause. -/
theorem breakpointPauses : Obligations.BreakpointPauses := by
  intro s c hr hu hf hh
  simp only [step, hr, loopHead_of_honoured_ebreak s c hu hf hh]

/-! ### Requests of the host -/

theorem State.accept_of_halted (s : State) (c : Command) (h : s.runState = .halted) : s.accept c = s := by
  rw [State.accept, h]

/-- Only `RESET` changes the fault latch while the engine is not Running. -/
theorem step_err_of_not_running (s t : State) (hn : s.isRunning = false) (hr : s.requests.head? ≠ some .reset)
    (ht : step s = .next t) : t.err = s.err := by
  rw [step_of_not_running s hn] at ht
  exact (serveHost_frame s t ht hr hn).1

/-- Settles O17: Halted accepts no command, and no request but `RESET` changes the run state or the latch. -/
theorem haltedIsAbsorbing : Obligations.HaltedIsAbsorbing := by
  refine ⟨fun s c rest hs hq => ?_, fun s t hs ht hr => ?_⟩
  · rw [step_of_halted s hs, serveHost_cons s _ rest hq]
    exact congrArg Host.Outcome.next (State.accept_of_halted { s with requests := rest } c hs)
  · exact ⟨(step_halted_frame s t hs ht hr).2, step_err_of_not_running s t (by simp [State.isRunning, hs]) hr ht⟩

/-! ### The step guard -/

theorem State.stepLimitReached_of_le (s : State) (m : Nat) (hm : s.params.maxSteps = some m)
    (hc : m ≤ s.cycles.toNat) : s.stepLimitReached = true := by
  simp [State.stepLimitReached, hm, hc]

/-- The guard's fault is latched before anything is fetched (R362). -/
theorem step_of_stepLimitReached (s : State) (c : Command) (resume : Bool) (hr : s.runState = .running c resume)
    (hl : s.stepLimitReached = true) :
    step s = .next { s with err := .stepLimitExceeded s.cycles, runState := .halted } := by
  simp [step, hr, loopHead, hl, takeFault_eq]

/-- With no fault latched before it, a host's step latches none, `RESET` included. -/
theorem step_err_none_of_not_running (s t : State) (hn : s.isRunning = false) (he : s.err = .none)
    (ht : step s = .next t) : t.err = .none := by
  by_cases hr : s.requests.head? = some .reset
  · obtain ⟨rest, hq⟩ := List.head?_eq_some_iff.mp hr
    rw [step_of_reset s rest hn hq] at ht
    cases ht
    rfl
  · exact (step_err_of_not_running s t hn hr ht).trans he

/-- No instruction raises the guard's fault itself. -/
theorem exec_err_ne_stepLimitExceeded (i : Instr) (s t : State) (he : s.err = .none) (h : exec i s = .next t)
    (n : BitVec 64) : t.err ≠ .stepLimitExceeded n := by
  rcases exec_next_cases i s t h with ⟨e, -, other, rfl⟩ | ⟨next, u, -, rfl, kept, -⟩
  · exact other n
  · simp [kept.err, he]

/-- Settles O20: the guard comes first in the loop; without it, no fault of the loop, no instruction and no request
of the host is a `StepLimitExceeded`. -/
theorem stepGuardStopsTheEngine : Obligations.StepGuardStopsTheEngine := by
  refine ⟨fun s c resume m hr hm hc => ?_, fun s t hm he ht n => ?_⟩
  · exact step_of_stepLimitReached s c resume hr (s.stepLimitReached_of_le m hm hc)
  cases hn : s.isRunning with
  | false => simp [step_err_none_of_not_running s t hn he ht]
  | true =>
    obtain ⟨c, resume, hr⟩ := s.exists_running hn
    rcases step_running_cases s t c resume hr ht with ⟨e, -, other | guarded, rfl⟩ | rfl | ⟨i, u, hu, rfl⟩
    · exact other n
    · exact absurd hm guarded
    · simp [he]
    · exact exec_err_ne_stepLimitExceeded i s u he hu n

end Sys2Proof.Machine
end

section
/-! Precise faults (R352): at whatever stage of the loop a fault is latched, the instruction at `pc` has had no effect. -/

namespace Sys2Proof.Machine

/-- What follows an instruction in the loop leaves a raised fault as it is (R317). -/
theorem State.settle_raise (s : State) (e : Err) (c : Command) : (s.raise e).settle c = s.raise e := rfl

/-- A pass of the loop that latches a fault does nothing else: the pause and a completed instruction latch none. -/
theorem step_eq_raise (s t : State) (hn : s.isRunning = true) (he : s.err = .none) (ht : step s = .next t)
    (hf : t.err ≠ .none) : t = s.raise t.err := by
  obtain ⟨c, resume, hr⟩ := s.exists_running hn
  rcases step_running_cases s t c resume hr ht with ⟨e, -, -, rfl⟩ | rfl | ⟨i, u, hu, rfl⟩
  · rfl
  · exact absurd he hf
  · rcases exec_next_cases i s u hu with ⟨e, -, -, rfl⟩ | ⟨next, v, -, rfl, kept, -⟩
    · rw [State.settle_raise, State.raise_err]
    · exact absurd (kept.err.trans he) hf

/-- Settles O22: a command's step that latches a fault is `raise`; a host's step leaves the latch but for `RESET`. -/
theorem faultsHaveNoOtherEffect : Obligations.FaultsHaveNoOtherEffect :=
  ⟨step_eq_raise, fun s t hn ht hr => step_err_of_not_running s t hn hr ht⟩

end Sys2Proof.Machine
end

section
/-! Invalid pointers (R296, R359): `free` and `realloc` of an address that is no allocated payload. -/

namespace Sys2Proof.Machine

/-- A pointer that is not NULL and names no allocated block is invalid. -/
theorem State.pointerArg_invalid (s : State) (op : AllocOp) (ho : op = .realloc ∨ op = .free) (hx : s.x 11 ≠ 0)
    (h : ∀ b ∈ s.blocks, b.free = false → b.base + s.params.hdrSize ≠ (s.x 11).toNat) :
    s.pointerArg op = .invalid := by
  have missing : s.lookup (s.x 11).toNat = none := s.lookup_none _ h
  rcases ho with rfl | rfl <;> simp only [State.pointerArg, if_neg hx, missing]

/-- The pointer is tested before the service's metadata accesses (R362). -/
theorem allocatorCall_of_invalid (s : State) (op : AllocOp) (ht : s.headersTouched = false)
    (hp : s.pointerArg op = .invalid) : allocatorCall op s = takeFault (.invalidFree s.pc (s.x 11)) s := by
  simp [allocatorCall, ht, hp]

/-- Settles O52: both selectors name an operation with a pointer argument, and it is invalid. -/
theorem invalidPointersRaise : Obligations.InvalidPointersRaise := by
  intro s hs hm hx hsel ht hnull hb
  obtain ⟨op, named, pointed⟩ : ∃ op, AllocOp.ofSelector (s.x 16) = some op ∧ (op = .realloc ∨ op = .free) := by
    rcases hsel with h3 | h4
    · exact ⟨.realloc, ofSelector_eq _ _ 3 h3 (by decide) rfl, .inl rfl⟩
    · exact ⟨.free, ofSelector_eq _ _ 4 h4 (by decide) rfl, .inr rfl⟩
  refine raises_of_takeFault .ecall s _ ((execEcall_of_call s op hs hm hx named).trans ?_)
  exact allocatorCall_of_invalid s op ht (s.pointerArg_invalid op pointed hnull hb)

end Sys2Proof.Machine
end

section
/-! The host's memory port (R332, R369): loads and stores under the alignment rule, whose violation is answered and
not latched. -/

namespace Sys2Proof.Machine

/-! ### One load or store -/

theorem widthServed_of (x : Xlen) (w : Width) (h : w = .long → x = .rv64) : widthServed x w = true := by
  cases w with
  | long => exact beq_iff_eq.mpr (h rfl)
  | byte | half | word => rfl

theorem hostLoad_of_allowed (s : State) (w : Width) (a : Word) (h : s.allowed a.toNat w.bytes) :
    hostLoad w a s = s.reply (.data (composeLE (s.mem.readBytes s.params.xlen a.toNat w.bytes))) := by
  rw [hostLoad, s.memRead_allowed a w h]

theorem hostLoad_of_not_allowed (s : State) (w : Width) (a : Word) (h : ¬ s.allowed a.toNat w.bytes) :
    hostLoad w a s = s.reply (.alignmentError a w false) := by
  simp only [hostLoad, s.memRead_not_allowed a w h, State.replyErr]

theorem hostStore_of_allowed (s : State) (w : Width) (a v : Word) (h : s.allowed a.toNat w.bytes) :
    hostStore w a v s = s.writeData a.toNat (bytesLE w.bytes v) := by
  rw [hostStore, s.memWrite_allowed a v w h]

theorem hostStore_of_not_allowed (s : State) (w : Width) (a v : Word) (h : ¬ s.allowed a.toNat w.bytes) :
    hostStore w a v s = s.reply (.alignmentError a w true) := by
  simp only [hostStore, s.memWrite_not_allowed a v w h, State.replyErr]

/-! ### The step that serves it -/

section

variable (s : State) (w : Width) (a v : Word) (rest : List PortRequest)

/-- A load of a width that the `XLEN` has, at an `XLEN`-bit address (R62). -/
theorem step_of_load (hn : s.isRunning = false) (ha : a.toNat < 2 ^ s.params.xlen.bits)
    (hw : w = .long → s.params.xlen = .rv64) (hq : s.requests = .load w a :: rest) :
    step s = .next (hostLoad w a { s with requests := rest }) := by
  rw [step_of_not_running s hn, serveHost_cons s _ rest hq]
  simp only [servePort, s.params.xlen.narrow_of_lt a ha, widthServed_of _ w hw, if_true]

/-- A store likewise. -/
theorem step_of_store (hn : s.isRunning = false) (ha : a.toNat < 2 ^ s.params.xlen.bits)
    (hw : w = .long → s.params.xlen = .rv64) (hq : s.requests = .store w a v :: rest) :
    step s = .next (hostStore w a v { s with requests := rest }) := by
  rw [step_of_not_running s hn, serveHost_cons s _ rest hq]
  simp only [servePort, s.params.xlen.narrow_of_lt a ha, widthServed_of _ w hw, if_true]

end

/-! ### The other requests -/

/-- Every request but a load or a store is served, with at most one answer, which is no alignment fault (R369). -/
theorem servePort_replies (s : State) (q : PortRequest) (hl : ∀ w a, q ≠ .load w a) (hs : ∀ w a v, q ≠ .store w a v) :
    ∃ t, servePort q s = .next t
      ∧ (t.replies = s.replies ∨ ∃ r, (∀ a w st, r ≠ .alignmentError a w st) ∧ t.replies = s.replies ++ [r]) := by
  cases q with
  | load w a => exact absurd rfl (hl w a)
  | store w a v => exact absurd rfl (hs w a v)
  | command c =>
    refine ⟨_, rfl, .inl ?_⟩
    cases hr : s.runState <;> simp [State.accept, hr]
  | reset | removeByte _ | setAlignedAddresses _ | setAlwaysCalloc _ => exact ⟨_, rfl, .inl rfl⟩
  | getReg _ | getPC | getCycles | getState | getErr | getNumActiveBlocks | getAlignedAddresses | getAlwaysCalloc
  | wordOffsetMask _ => exact ⟨_, rfl, .inr ⟨_, by simp, rfl⟩⟩

/-- Settles O58: a load answers the bytes read, a store is `State.writeData`, and the alignment rule is the one thing
that makes a request fail. -/
theorem hostMemoryPort : Obligations.HostMemoryPort := by
  intro s w a v rest hn hwf ha hw
  refine ⟨fun hq => ⟨fun h => ?_, fun h => ?_⟩, fun hq => ⟨fun h => ?_, fun h => ?_⟩, fun q hq hl hs => ?_⟩
  · exact ⟨_, s.toNat_readBytes a.toNat w.bytes (Width.bytes_le_eight w),
      (step_of_load s w a rest hn ha hw hq).trans (congrArg _ (hostLoad_of_allowed { s with requests := rest } w a h))⟩
  · exact (step_of_load s w a rest hn ha hw hq).trans
      (congrArg _ (hostLoad_of_not_allowed { s with requests := rest } w a h))
  · have stored := (step_of_store s w a v rest hn ha hw hq).trans
      (congrArg _ (hostStore_of_allowed { s with requests := rest } w a v h))
    exact ⟨_, stored, rfl,
      State.notes_writeData { s with requests := rest } a.toNat _ _ (bytesLE_length ..),
      State.records_writeData { s with requests := rest } a.toNat _ _ (bytesLE_length ..),
      s.read_writeData_bytesLE a.toNat w.bytes v hwf (Width.bytes_le_pow_bits w _),
      fun c hc => Memory.read_writeBytes_other s.mem s.params.xlen a.toNat c _ hwf fun k hk => hc k (by simpa using hk)⟩
  · exact (step_of_store s w a v rest hn ha hw hq).trans
      (congrArg _ (hostStore_of_not_allowed { s with requests := rest } w a v h))
  · obtain ⟨t, served, replies⟩ := servePort_replies { s with requests := rest } q hl hs
    refine ⟨t, ?_, fun b u st hm => ?_⟩
    · rw [step_of_not_running s hn, serveHost_cons s q rest hq, served]
    · rcases replies with same | ⟨r, other, answered⟩
      · rwa [same] at hm
      · rw [answered, List.mem_append, List.mem_singleton] at hm
        exact hm.resolve_right fun e => other b u st e.symm

end Sys2Proof.Machine
end

section
/-! The round trip of encoding and decoding (R101 to R121): every well-formed instruction comes back from its word,
every word that decodes comes back from its instruction, and the instructions of `XLEN = 64` alone are no
instructions of `XLEN = 32`. -/

namespace Sys2Proof

/-! ### Decoding the word of an instruction -/

/-- Every instruction's word matches its row of the table (R116). -/
theorem rowMatches : (i : Instr) → Laws.RowMatches.Statement i
  | .lui rd imm => Laws.RowMatches.lui rd imm
  | .auipc rd imm => Laws.RowMatches.auipc rd imm
  | .jal rd off => Laws.RowMatches.jal rd off
  | .jalr rd rs1 imm => Laws.RowMatches.jalr rd rs1 imm
  | .beq rs1 rs2 off => Laws.RowMatches.beq rs1 rs2 off
  | .bne rs1 rs2 off => Laws.RowMatches.bne rs1 rs2 off
  | .blt rs1 rs2 off => Laws.RowMatches.blt rs1 rs2 off
  | .bge rs1 rs2 off => Laws.RowMatches.bge rs1 rs2 off
  | .bltu rs1 rs2 off => Laws.RowMatches.bltu rs1 rs2 off
  | .bgeu rs1 rs2 off => Laws.RowMatches.bgeu rs1 rs2 off
  | .lb rd rs1 imm => Laws.RowMatches.lb rd rs1 imm
  | .lh rd rs1 imm => Laws.RowMatches.lh rd rs1 imm
  | .lw rd rs1 imm => Laws.RowMatches.lw rd rs1 imm
  | .ld rd rs1 imm => Laws.RowMatches.ld rd rs1 imm
  | .lbu rd rs1 imm => Laws.RowMatches.lbu rd rs1 imm
  | .lhu rd rs1 imm => Laws.RowMatches.lhu rd rs1 imm
  | .lwu rd rs1 imm => Laws.RowMatches.lwu rd rs1 imm
  | .sb rs2 rs1 imm => Laws.RowMatches.sb rs2 rs1 imm
  | .sh rs2 rs1 imm => Laws.RowMatches.sh rs2 rs1 imm
  | .sw rs2 rs1 imm => Laws.RowMatches.sw rs2 rs1 imm
  | .sd rs2 rs1 imm => Laws.RowMatches.sd rs2 rs1 imm
  | .addi rd rs1 imm => Laws.RowMatches.addi rd rs1 imm
  | .slti rd rs1 imm => Laws.RowMatches.slti rd rs1 imm
  | .sltiu rd rs1 imm => Laws.RowMatches.sltiu rd rs1 imm
  | .xori rd rs1 imm => Laws.RowMatches.xori rd rs1 imm
  | .ori rd rs1 imm => Laws.RowMatches.ori rd rs1 imm
  | .andi rd rs1 imm => Laws.RowMatches.andi rd rs1 imm
  | .slli rd rs1 shamt => Laws.RowMatches.slli rd rs1 shamt
  | .srli rd rs1 shamt => Laws.RowMatches.srli rd rs1 shamt
  | .srai rd rs1 shamt => Laws.RowMatches.srai rd rs1 shamt
  | .add rd rs1 rs2 => Laws.RowMatches.add rd rs1 rs2
  | .sub rd rs1 rs2 => Laws.RowMatches.sub rd rs1 rs2
  | .sll rd rs1 rs2 => Laws.RowMatches.sll rd rs1 rs2
  | .slt rd rs1 rs2 => Laws.RowMatches.slt rd rs1 rs2
  | .sltu rd rs1 rs2 => Laws.RowMatches.sltu rd rs1 rs2
  | .xor rd rs1 rs2 => Laws.RowMatches.xor rd rs1 rs2
  | .srl rd rs1 rs2 => Laws.RowMatches.srl rd rs1 rs2
  | .sra rd rs1 rs2 => Laws.RowMatches.sra rd rs1 rs2
  | .or rd rs1 rs2 => Laws.RowMatches.or rd rs1 rs2
  | .and rd rs1 rs2 => Laws.RowMatches.and rd rs1 rs2
  | .fence fm pred succ rs1 rd => Laws.RowMatches.fence fm pred succ rs1 rd
  | .ecall => Laws.RowMatches.ecall
  | .ebreak => Laws.RowMatches.ebreak
  | .addiw rd rs1 imm => Laws.RowMatches.addiw rd rs1 imm
  | .slliw rd rs1 shamt => Laws.RowMatches.slliw rd rs1 shamt
  | .srliw rd rs1 shamt => Laws.RowMatches.srliw rd rs1 shamt
  | .sraiw rd rs1 shamt => Laws.RowMatches.sraiw rd rs1 shamt
  | .addw rd rs1 rs2 => Laws.RowMatches.addw rd rs1 rs2
  | .subw rd rs1 rs2 => Laws.RowMatches.subw rd rs1 rs2
  | .sllw rd rs1 rs2 => Laws.RowMatches.sllw rd rs1 rs2
  | .srlw rd rs1 rs2 => Laws.RowMatches.srlw rd rs1 rs2
  | .sraw rd rs1 rs2 => Laws.RowMatches.sraw rd rs1 rs2

theorem decode_encode (x : Xlen) (i : Instr) (h : i.wf x = true) : decode x (encode i) = .ok i :=
  decode_encode_of_rowMatches x i h (rowMatches i)

/-- The four bytes of a word, the least significant first, make up the word (R83). -/
theorem wordOfBytes_extractLsb' (w : InstrWord) :
    wordOfBytes (w.extractLsb' 0 8) (w.extractLsb' 8 8) (w.extractLsb' 16 8) (w.extractLsb' 24 8) = w := by
  apply BitVec.eq_of_getLsbD_eq; intro i hi
  simp only [wordOfBytes, BitVec.getLsbD_append, BitVec.getLsbD_extractLsb']
  interval_cases i <;> simp

theorem decodeBytes_bytesOfWord (x : Xlen) (w : InstrWord) (i : Instr) (rest : List Byte) (h : decode x w = .ok i) :
    decodeBytes x (bytesOfWord w ++ rest) = .ok (i, rest) := by
  simp only [bytesOfWord, List.cons_append, List.nil_append, decodeBytes, wordOfBytes_extractLsb', h]

/-- Settles O2: each instruction's word matches a row that builds the instruction, and rows conflict pairwise. -/
theorem decodeOfEncodeIsIdentity : Obligations.DecodeOfEncodeIsIdentity := fun x i h =>
  ⟨decode_encode x i h, fun rest => decodeBytes_bytesOfWord x _ i rest (decode_encode x i h)⟩

/-! ### Encoding the instruction of a word -/

/-- What a row builds from a word it matches is well-formed there and has that word (R114). -/
def OpcodeRow.Sound (r : OpcodeRow) : Prop :=
  ∀ x w, r.hits x w = true → (r.build w).wf x = true ∧ encode (r.build w) = w

/-- The row fixes the field at `start` to `v`. -/
def OpcodeRow.fixes (r : OpcodeRow) (start : Nat) (len : Nat) (v : BitVec len) : Bool :=
  r.mask.extractLsb' start len == BitVec.allOnes len && r.pattern.extractLsb' start len == v

theorem OpcodeRow.field_of_fixes (r : OpcodeRow) {x : Xlen} {w : InstrWord} {start len : Nat} {v : BitVec len}
    (h : r.hits x w = true) (hf : r.fixes start len v = true) : w.extractLsb' start len = v := by
  rw [OpcodeRow.fixes, Bool.and_eq_true, beq_iff_eq, beq_iff_eq] at hf
  exact (r.field_of_hits x w start len hf.1 h).trans hf.2

theorem OpcodeRow.needsRv64_of_hits {r : OpcodeRow} {x : Xlen} {w : InstrWord} (only : r.rv32 = false)
    (h : r.hits x w = true) : needsRv64 x = true := by
  have has := ((r.hits_iff x w).mp h).1
  cases x with
  | rv32 => exact absurd (only.symm.trans has) Bool.false_ne_true
  | rv64 => rfl

section
/-! A matched word is put together again from its fields and the bits its row fixes, format by format. -/

variable {r : OpcodeRow} {x : Xlen} {w : InstrWord} {f7 : BitVec 7} {f3 : BitVec 3} {op : BitVec 7}

theorem OpcodeRow.encodeU_of_hits (h : r.hits x w = true) (hop : r.fixes 0 7 op = true) :
    encodeU (fieldImmU w) (fieldRd w) op = w :=
  encodeU_fields w _ (r.field_of_fixes h hop)

theorem OpcodeRow.encodeJ_of_hits (h : r.hits x w = true) (hop : r.fixes 0 7 op = true) :
    encodeJ (fieldOffJ w) (fieldRd w) op = w :=
  encodeJ_fields w _ (r.field_of_fixes h hop)

theorem OpcodeRow.encodeI_of_hits (h : r.hits x w = true) (hop : r.fixes 0 7 op = true)
    (h3 : r.fixes 12 3 f3 = true) : encodeI (fieldImmI w) (fieldRs1 w) f3 (fieldRd w) op = w :=
  encodeI_fields w _ _ (r.field_of_fixes h h3) (r.field_of_fixes h hop)

theorem OpcodeRow.encodeB_of_hits (h : r.hits x w = true) (hop : r.fixes 0 7 op = true)
    (h3 : r.fixes 12 3 f3 = true) : encodeB (fieldOffB w) (fieldRs2 w) (fieldRs1 w) f3 op = w :=
  encodeB_fields w _ _ (r.field_of_fixes h h3) (r.field_of_fixes h hop)

theorem OpcodeRow.encodeS_of_hits (h : r.hits x w = true) (hop : r.fixes 0 7 op = true)
    (h3 : r.fixes 12 3 f3 = true) : encodeS (fieldImmS w) (fieldRs2 w) (fieldRs1 w) f3 op = w :=
  encodeS_fields w _ _ (r.field_of_fixes h h3) (r.field_of_fixes h hop)

theorem OpcodeRow.encodeR_of_hits (h : r.hits x w = true) (hop : r.fixes 0 7 op = true)
    (h3 : r.fixes 12 3 f3 = true) (h7 : r.fixes 25 7 f7 = true) :
    encodeR f7 (fieldRs2 w) (fieldRs1 w) f3 (fieldRd w) op = w :=
  encodeR_fields w _ _ _ (r.field_of_fixes h h7) (r.field_of_fixes h h3) (r.field_of_fixes h hop)

theorem OpcodeRow.encodeShift5_of_hits (h : r.hits x w = true) (hop : r.fixes 0 7 op = true)
    (h3 : r.fixes 12 3 f3 = true) (h7 : r.fixes 25 7 f7 = true) :
    encodeShift5 f7 (fieldShamt5 w) (fieldRs1 w) f3 (fieldRd w) op = w :=
  encodeShift5_fields w _ _ _ (r.field_of_fixes h h7) (r.field_of_fixes h h3) (r.field_of_fixes h hop)

theorem OpcodeRow.encodeShift6_of_hits {u : BitVec 6} (h : r.hits x w = true) (hop : r.fixes 0 7 op = true)
    (h3 : r.fixes 12 3 f3 = true) (hu : r.fixes 26 6 u = true) :
    encodeShift6 u (fieldShamt6 w) (fieldRs1 w) f3 (fieldRd w) op = w :=
  encodeShift6_fields w _ _ _ (r.field_of_fixes h hu) (r.field_of_fixes h h3) (r.field_of_fixes h hop)

/-- At `XLEN = 32` the row fixes bit 25 to 0, at `XLEN = 64` every 6-bit amount is below `XLEN` (R109). -/
theorem OpcodeRow.shamtFits_of_hits (h : r.hits x w = true) (rv32 : r.rv32 = true → r.fixes 25 1 0#1 = true) :
    shamtFits x (fieldShamt6 w) = true := by
  rw [shamtFits, decide_eq_true_eq]
  cases x with
  | rv64 => exact (fieldShamt6 w).isLt
  | rv32 =>
    exact fieldShamt6_lt w (r.field_of_fixes h (rv32 ((r.hits_iff .rv32 w).mp h).1))

end

theorem rowsUpper_sound : ∀ r ∈ rowsUpper, r.Sound := by
  simp only [rowsUpper, List.forall_mem_cons, List.not_mem_nil, false_implies, implies_true, and_true]
  exact ⟨fun x w h => ⟨rfl, OpcodeRow.encodeU_of_hits h (by decide)⟩,
    fun x w h => ⟨rfl, OpcodeRow.encodeU_of_hits h (by decide)⟩,
    fun x w h => ⟨offsetEven_fieldOffJ w, OpcodeRow.encodeJ_of_hits h (by decide)⟩,
    fun x w h => ⟨rfl, OpcodeRow.encodeI_of_hits h (by decide) (by decide)⟩⟩

theorem rowsBranch_sound : ∀ r ∈ rowsBranch, r.Sound := by
  simp only [rowsBranch, List.forall_mem_cons, List.not_mem_nil, false_implies, implies_true, and_true]
  refine ⟨?_, ?_, ?_, ?_, ?_, ?_⟩ <;>
    exact fun x w h => ⟨offsetEven_fieldOffB w, OpcodeRow.encodeB_of_hits h (by decide) (by decide)⟩

theorem rowsLoad_sound : ∀ r ∈ rowsLoad, r.Sound := by
  simp only [rowsLoad, List.forall_mem_cons, List.not_mem_nil, false_implies, implies_true, and_true]
  refine ⟨?lb, ?lh, ?lw, ?ld, ?lbu, ?lhu, ?lwu⟩
  case ld | lwu =>
    exact fun x w h => ⟨OpcodeRow.needsRv64_of_hits rfl h, OpcodeRow.encodeI_of_hits h (by decide) (by decide)⟩
  all_goals exact fun x w h => ⟨rfl, OpcodeRow.encodeI_of_hits h (by decide) (by decide)⟩

theorem rowsStore_sound : ∀ r ∈ rowsStore, r.Sound := by
  simp only [rowsStore, List.forall_mem_cons, List.not_mem_nil, false_implies, implies_true, and_true]
  refine ⟨?sb, ?sh, ?sw, ?sd⟩
  case sd =>
    exact fun x w h => ⟨OpcodeRow.needsRv64_of_hits rfl h, OpcodeRow.encodeS_of_hits h (by decide) (by decide)⟩
  all_goals exact fun x w h => ⟨rfl, OpcodeRow.encodeS_of_hits h (by decide) (by decide)⟩

theorem rowsImm_sound : ∀ r ∈ rowsImm, r.Sound := by
  simp only [rowsImm, List.forall_mem_cons, List.not_mem_nil, false_implies, implies_true, and_true]
  refine ⟨?addi, ?slti, ?sltiu, ?xori, ?ori, ?andi, ?slli32, ?srli32, ?srai32, ?slli64, ?srli64, ?srai64⟩
  case slli32 | srli32 | srai32 =>
    exact fun x w h => ⟨OpcodeRow.shamtFits_of_hits h (by decide),
      OpcodeRow.encodeShift6_of_hits h (by decide) (by decide) (by decide)⟩
  case slli64 | srli64 | srai64 =>
    exact fun x w h => ⟨OpcodeRow.shamtFits_of_hits h (by decide),
      OpcodeRow.encodeShift6_of_hits h (by decide) (by decide) (by decide)⟩
  all_goals exact fun x w h => ⟨rfl, OpcodeRow.encodeI_of_hits h (by decide) (by decide)⟩

theorem rowsReg_sound : ∀ r ∈ rowsReg, r.Sound := by
  simp only [rowsReg, List.forall_mem_cons, List.not_mem_nil, false_implies, implies_true, and_true]
  refine ⟨?_, ?_, ?_, ?_, ?_, ?_, ?_, ?_, ?_, ?_⟩ <;>
    exact fun x w h => ⟨rfl, OpcodeRow.encodeR_of_hits h (by decide) (by decide) (by decide)⟩

/-- The rows of `ECALL` and `EBREAK` fix the whole word (R124). -/
theorem rowsSystem_sound : ∀ r ∈ rowsSystem, r.Sound := by
  simp only [rowsSystem, List.forall_mem_cons, List.not_mem_nil, false_implies, implies_true, and_true]
  refine ⟨fun x w h => ⟨rfl, ?_⟩, fun x w h => ⟨rfl, ?_⟩, fun x w h => ⟨rfl, ?_⟩⟩
  · rw [encode, fenceFields_append]
    exact OpcodeRow.encodeI_of_hits h (by decide) (by decide)
  · exact (((OpcodeRow.hits_iff _ x w).mp h).2.symm.trans BitVec.and_allOnes)
  · exact (((OpcodeRow.hits_iff _ x w).mp h).2.symm.trans BitVec.and_allOnes)

theorem rowsWord32_sound : ∀ r ∈ rowsWord32, r.Sound := by
  simp only [rowsWord32, List.forall_mem_cons, List.not_mem_nil, false_implies, implies_true, and_true]
  refine ⟨?addiw, ?slliw, ?srliw, ?sraiw, ?addw, ?subw, ?sllw, ?srlw, ?sraw⟩
  case addiw =>
    exact fun x w h => ⟨OpcodeRow.needsRv64_of_hits rfl h, OpcodeRow.encodeI_of_hits h (by decide) (by decide)⟩
  case slliw | srliw | sraiw =>
    exact fun x w h => ⟨OpcodeRow.needsRv64_of_hits rfl h,
      OpcodeRow.encodeShift5_of_hits h (by decide) (by decide) (by decide)⟩
  all_goals
    exact fun x w h => ⟨OpcodeRow.needsRv64_of_hits rfl h,
      OpcodeRow.encodeR_of_hits h (by decide) (by decide) (by decide)⟩

theorem opcodeTable_sound : ∀ r ∈ opcodeTable, r.Sound := by
  simp only [opcodeTable, List.forall_mem_append]
  exact ⟨⟨⟨⟨⟨⟨⟨rowsUpper_sound, rowsBranch_sound⟩, rowsLoad_sound⟩, rowsStore_sound⟩, rowsImm_sound⟩,
    rowsReg_sound⟩, rowsSystem_sound⟩, rowsWord32_sound⟩

/-- Settles O3: the row that the word matched is sound. -/
theorem encodeOfDecodeIsIdentity : Obligations.EncodeOfDecodeIsIdentity := by
  intro x w i h
  obtain ⟨r, hr, hit, rfl⟩ := row_of_decode x w i h
  exact opcodeTable_sound r hr x w hit

/-! ### Instructions that `XLEN = 32` does not have -/

/-- Whatever `XLEN = 32` has, `XLEN = 64` has too. -/
theorem Instr.wf_rv64_of_wf_rv32 (i : Instr) (h : i.wf .rv32 = true) : i.wf .rv64 = true := by
  cases i
  case slli rd rs1 shamt | srli rd rs1 shamt | srai rd rs1 shamt => exact decide_eq_true shamt.isLt
  case ld | lwu | sd | addiw | slliw | srliw | sraiw | addw | subw | sllw | srlw | sraw => rfl
  all_goals exact h

/-- The decoder rejects in one way only (R114, R121). -/
theorem decode_error_eq (x : Xlen) (w : InstrWord) (h : ∀ i, decode x w ≠ .ok i) : decode x w = .error (.noRow w) :=
  decode_noRow_of_not_hits x w fun r hr hit => h _ (decode_of_hits x w r hr hit)

/-- What `XLEN = 32` read from the word, `XLEN = 64` would read from it too. -/
theorem decode_rv32_of_not_wf (i : Instr) (h64 : i.wf .rv64 = true) (h32 : i.wf .rv32 = false) :
    decode .rv32 (encode i) = .error (.noRow (encode i)) := by
  refine decode_error_eq _ _ fun j hj => ?_
  obtain ⟨wf32, same⟩ := encodeOfDecodeIsIdentity .rv32 _ j hj
  have read : decode .rv64 (encode i) = .ok j := same ▸ decode_encode .rv64 j (j.wf_rv64_of_wf_rv32 wf32)
  obtain rfl : i = j := Except.ok.inj ((decode_encode .rv64 i h64).symm.trans read)
  exact absurd (h32.symm.trans wf32) Bool.false_ne_true

end Sys2Proof

namespace Sys2Proof.Machine

/-- Executing an instruction that the other `XLEN` has and this one has not raises (notes/assumptions/14.md). -/
theorem exec_of_not_wf (i : Instr) (s : State) (h64 : i.wf .rv64 = true) (h : i.wf s.params.xlen = false) :
    exec i s = takeFault (.decodeError s.pc (encode i)) s := by
  cases i
  case ld | lwu | sd | slli | srli | srai | addiw | slliw | srliw | sraiw | addw | subw | sllw | srlw | sraw =>
    exact whenDecodable_of_not_wf _ s _ h
  all_goals exact absurd (h.symm.trans h64) Bool.false_ne_true

/-- Settles O8: a word that decoded at both `XLEN`s would be two instructions at `XLEN = 64`. -/
theorem rv64EncodingsFailOnRv32 : Obligations.Rv64EncodingsFailOnRv32 := fun i h64 h32 =>
  ⟨decode_rv32_of_not_wf i h64 h32, fun s hx => raises_of_takeFault i s _ (exec_of_not_wf i s h64 (hx ▸ h32))⟩

end Sys2Proof.Machine

namespace Sys2Proof

theorem decode_of_encode_eq {x : Xlen} {i : Instr} {w : InstrWord} (he : encode i = w) (hw : i.wf x = true) :
    decode x w = .ok i := he ▸ decode_encode x i hw

/-- Settles O1: each word is the encoding of a well-formed instruction; the last is the word of a `SLLI` that
`XLEN = 32` does not have. -/
theorem sampleWordsDecode : Obligations.SampleWordsDecode :=
  ⟨decode_of_encode_eq (by decide) (by decide), decode_of_encode_eq (by decide) (by decide),
    decode_of_encode_eq (by decide) (by decide), decode_of_encode_eq (by decide) (by decide),
    decode_of_encode_eq (by decide) (by decide), decode_of_encode_eq (by decide) (by decide),
    decode_of_encode_eq (by decide) (by decide), decode_of_encode_eq (by decide) (by decide),
    decode_of_encode_eq (by decide) (by decide), decode_of_encode_eq (by decide) (by decide),
    decode_of_encode_eq (by decide) (by decide), decode_of_encode_eq (by decide) (by decide),
    decode_rv32_of_not_wf (.slli 10 10 32) (by decide) (by decide)⟩

end Sys2Proof
end

section
/-! The machine's invariant (R20, R27, R36, R37, R273, R274): it holds after reset, and every step keeps it. -/

namespace Sys2Proof.Machine

/-! ### What the invariant rests on -/

/-- The invariant names these fields alone. -/
theorem Invariant.of_same {s t : State} (h : Invariant s) (hp : t.params = s.params) (hm : t.mem = s.mem)
    (hb : t.blocks = s.blocks) (hh : t.hwm = s.hwm) (hn : t.numActiveBlocks = s.numActiveBlocks)
    (hy : t.history = s.history) (hr : t.regs = s.regs) (hpc : t.pc = s.pc)
    (he : t.runState = .halted ∨ t.err = .none) : Invariant t where
  toHeapSound := h.toHeapSound.of_same hp hm hb hh hn hy
  canonical := by
    have c := h.canonical
    rwa [State.canonical, ← hp, ← hr, ← hpc] at c
  err := he

theorem Invariant.raise {s : State} (h : Invariant s) (e : Err) : Invariant (s.raise e) :=
  h.of_same rfl rfl rfl rfl rfl rfl rfl rfl (.inl rfl)

theorem Invariant.halt {s : State} (h : Invariant s) : Invariant s.halt :=
  h.of_same rfl rfl rfl rfl rfl rfl rfl rfl (.inl rfl)

theorem Invariant.settle {s : State} (h : Invariant s) (c : Command) : Invariant (s.settle c) := by
  refine h.of_same rfl rfl rfl rfl rfl rfl rfl rfl ?_
  rcases h.err with halted | none
  · exact .inl (by rw [State.settle_runState, halted])
  · exact .inr none

theorem Invariant.withRequests {s : State} (h : Invariant s) (rest : List PortRequest) :
    Invariant { s with requests := rest } := h.of_same rfl rfl rfl rfl rfl rfl rfl rfl h.err

theorem Invariant.reply {s : State} (h : Invariant s) (a : PortReply) : Invariant (s.reply a) :=
  h.of_same rfl rfl rfl rfl rfl rfl rfl rfl h.err

theorem Invariant.writeData {s : State} (h : Invariant s) (a : Nat) (bs : List Byte) : Invariant (s.writeData a bs) :=
  ⟨h.toHeapSound.writeData a bs, h.canonical, h.err⟩

/-- An `XLEN`-bit value written to a register (R20). -/
theorem Invariant.setX {s : State} (h : Invariant s) (r : RegId) {v : Word} (hv : v.toNat < 2 ^ s.params.xlen.bits) :
    Invariant (s.setX r v) where
  toHeapSound := h.toHeapSound.of_same (by simp) (by simp) (by simp) (by simp) (by simp) (by simp)
  canonical := by
    refine canonical_of s _ h.canonical (by simp) (fun i hi => ?_) ?_
    · unfold State.setX
      split
      · exact .inl rfl
      · rw [Vector.getElem_set]
        split
        · exact .inr hv
        · exact .inl rfl
    · rw [State.setX_pc]
      exact (s.canonical_iff.mp h.canonical).2
  err := by simpa using h.err

/-- An aligned `XLEN`-bit address written to `pc` (R27). -/
theorem Invariant.advance {s : State} (h : Invariant s) {next : Word} (hn : next.toNat < 2 ^ s.params.xlen.bits)
    (ha : next.toNat % 4 = 0) : Invariant (s.advance next) where
  toHeapSound := h.toHeapSound.of_same rfl rfl rfl rfl rfl rfl
  canonical := canonical_of s _ h.canonical rfl (fun _ _ => .inl rfl) ⟨hn, ha⟩
  err := h.err

/-- `pc + 4` is an aligned `XLEN`-bit address when `pc` is one (R26, R27). -/
theorem Invariant.seqPc {s : State} (h : Invariant s) :
    s.seqPc.toNat < 2 ^ s.params.xlen.bits ∧ s.seqPc.toNat % 4 = 0 := by
  obtain ⟨-, -, aligned⟩ := s.canonical_iff.mp h.canonical
  have four : 4 ∣ 2 ^ s.params.xlen.bits := by cases s.params.xlen <;> decide
  rw [s.toNat_seqPc, Nat.mod_mod_of_dvd _ four]
  exact ⟨Nat.mod_lt _ s.params.xlen.pow_bits_pos, by omega⟩

/-! ### After reset -/

theorem entry_of_valid (p : Params) (h : p.valid = true) :
    p.entry.toNat < 2 ^ p.xlen.bits ∧ p.entry.toNat % 4 = 0 := by
  simp only [Params.valid, Bool.and_eq_true, beq_iff_eq, decide_eq_true_eq, and_assoc] at h
  obtain ⟨-, -, aligned, low, -⟩ := h
  exact ⟨low, aligned⟩

/-- The registers after reset hold 0 but for the two that the parameters give, taken modulo `2^XLEN` (R45). -/
theorem State.ofParams_canonical (p : Params) (h : p.valid = true) : (State.ofParams p).canonical = true := by
  refine (State.canonical_iff _).mpr ⟨fun i hi => ?_, entry_of_valid p h⟩
  simp only [State.ofParams, Vector.getElem_set, Vector.getElem_replicate]
  split
  · exact Xlen.narrow_lt ..
  · split
    · exact Xlen.narrow_lt ..
    · exact p.xlen.pow_bits_pos

theorem Invariant.ofParams {p : Params} (h : p.valid = true) : Invariant (State.ofParams p) where
  valid := h
  wf := Memory.wf_initial p
  within := Memory.within_initial p
  heap := ⟨(tiles_nil ..).mpr rfl, le_rfl, (heapParams_of_valid p h).1, List.isChain_nil, rfl⟩
  history := rfl
  metadata := nofun
  canonical := State.ofParams_canonical p h
  err := .inr rfl

/-- Settles O10: the parameters of `State.reset` are valid. -/
theorem invariantHoldsAfterReset : Obligations.InvariantHoldsAfterReset := by
  have reset (p : Params) (h : p.valid = true) : (State.ofParams p).inv = true :=
    (State.inv_iff _).mpr (Invariant.ofParams h)
  exact ⟨reset, reset Params.atReset (by decide)⟩

/-! ### Executing an instruction -/

/-- Whatever next state there is meets the invariant. -/
def LeavesInvariant (o : Outcome) : Prop := ∀ t, o = .next t → Invariant t

theorem LeavesInvariant.of_next {s : State} (h : Invariant s) : LeavesInvariant (.next s) := by
  rintro _ ⟨⟩
  exact h

theorem LeavesInvariant.of_refused (r : Refusal) : LeavesInvariant (.refused r) := by
  rintro _ ⟨⟩

theorem LeavesInvariant.complete {s : State} (h : Invariant s) {next : Word}
    (hn : next.toNat < 2 ^ s.params.xlen.bits) (ha : next.toNat % 4 = 0) : LeavesInvariant (complete next s) := by
  rcases complete_cases next s with ⟨-, done⟩ | ⟨-, refused⟩
  · rw [done]
    exact .of_next (h.advance hn ha)
  · rw [refused]
    exact .of_refused _

/-- An instruction that the machine's `XLEN` does not have raises. -/
theorem LeavesInvariant.whenDecodable {s : State} (h : Invariant s) (i : Instr) {o : Outcome}
    (ho : i.wf s.params.xlen = true → LeavesInvariant o) : LeavesInvariant (whenDecodable i s o) := by
  cases hw : i.wf s.params.xlen with
  | true => rw [whenDecodable_of_wf i s o hw]; exact ho hw
  | false => rw [whenDecodable_of_not_wf i s o hw]; exact .of_next (h.raise _)

section

variable {s : State} (h : Invariant s)
include h

theorem Invariant.completes : LeavesInvariant (complete s.seqPc s) := .complete h h.seqPc.1 h.seqPc.2

theorem Invariant.writeBack (rd : RegId) {v : Word} (hv : v.toNat < 2 ^ s.params.xlen.bits) :
    LeavesInvariant (writeBack rd v s) :=
  .complete (h.setX rd hv) (by rw [State.setX_params]; exact h.seqPc.1) h.seqPc.2

theorem Invariant.opLoad (w : Width) (extend : Word → Word) (rd rs1 : RegId) (imm : BitVec 12)
    (hv : ∀ v, (extend v).toNat < 2 ^ s.params.xlen.bits) : LeavesInvariant (opLoad w extend rd rs1 imm s) := by
  rcases s.memRead_cases (s.ea rs1 imm) w with held | read
  · rw [Machine.opLoad, held]; exact .of_next (h.raise _)
  · rw [Machine.opLoad, read]; exact h.writeBack rd (hv _)

theorem Invariant.opStore (w : Width) (rs2 rs1 : RegId) (imm : BitVec 12) :
    LeavesInvariant (opStore w rs2 rs1 imm s) := by
  rcases s.memWrite_cases (s.ea rs1 imm) (s.x rs2) w with held | written
  · rw [Machine.opStore, held]; exact .of_next (h.raise _)
  · rw [Machine.opStore, written]; exact .complete (h.writeData _ _) h.seqPc.1 h.seqPc.2

/-- A transfer to a target that is no multiple of 4 raises (R201). -/
theorem Invariant.transferTo {u : State} {target : Word} (hu : Invariant u)
    (ht : target.toNat < 2 ^ u.params.xlen.bits) : LeavesInvariant (Machine.transferTo target u s) := by
  by_cases aligned : target.toNat % 4 = 0
  · rw [transferTo_of_aligned target u s aligned]; exact .complete hu ht aligned
  · rw [transferTo_of_misaligned target u s aligned]; exact .of_next (h.raise _)

theorem Invariant.jump (rd : RegId) {target : Word} (ht : target.toNat < 2 ^ s.params.xlen.bits) :
    LeavesInvariant (Machine.transferTo target (s.setX rd s.seqPc) s) :=
  h.transferTo (h.setX rd h.seqPc.1) (by rw [State.setX_params]; exact ht)

theorem Invariant.opBranch (cond : (w : Nat) → BitVec w → BitVec w → Bool) (rs1 rs2 : RegId) (off : BitVec 13) :
    LeavesInvariant (opBranch cond rs1 rs2 off s) := by
  unfold Machine.opBranch
  split
  · exact h.transferTo h (Xlen.lift2_lt ..)
  · exact h.completes

/-- An allocator operation leaves a sound heap and writes no register before it returns. -/
theorem Invariant.of_service {u : State} (hk : ServiceKept s u) (hs : ServiceSafe s u) : Invariant u where
  toHeapSound := hs.sound
  canonical := by
    have c := h.canonical
    rwa [State.canonical, ← hk.params, ← hk.regs, ← hk.pc] at c
  err := by rw [hk.runState, hk.err]; exact h.err

theorem Invariant.ecall : LeavesInvariant (execEcall s) := by
  intro t ht
  rcases execEcall_next s t h ht with ⟨e, -, rfl⟩ | rfl | ⟨u, kept, safe, returned⟩
  · exact h.raise e
  · exact h.halt.advance h.seqPc.1 h.seqPc.2
  · have hu := h.of_service kept safe
    have next := kept.seqPc ▸ hu.seqPc
    rcases returned with rfl | ⟨v, hv, rfl⟩
    · exact hu.advance next.1 next.2
    · exact (hu.setX 10 (by rw [kept.params]; exact hv)).advance (by rw [State.setX_params]; exact next.1) next.2

/-- Every instruction, shape by shape. -/
theorem Invariant.exec (i : Instr) : LeavesInvariant (exec i s) := by
  cases i
  case fence | ebreak => exact h.completes
  case ecall => exact h.ecall
  case jal | jalr => exact h.jump _ (Xlen.lift2_lt ..)
  case beq | bne | blt | bge | bltu | bgeu => exact h.opBranch _ _ _ _
  case lui => exact h.writeBack _ (Xlen.sext_lt ..)
  case auipc | addi | slti | sltiu | xori | ori | andi | add | sub | sll | slt | sltu | xor | srl | sra | or | and =>
    exact h.writeBack _ (Xlen.lift2_lt ..)
  case slli | srli | srai => exact .whenDecodable h _ fun _ => h.writeBack _ (Xlen.lift2_lt ..)
  case addiw | slliw | srliw | sraiw | addw | subw | sllw | srlw | sraw =>
    exact .whenDecodable h _ fun _ => h.writeBack _ (Xlen.sext_lt ..)
  case lb | lh | lw => exact h.opLoad _ _ _ _ _ fun _ => Xlen.sext_lt ..
  case lbu | lhu => exact h.opLoad _ _ _ _ _ fun _ => Xlen.zext_lt ..
  case lwu => exact .whenDecodable h _ fun _ => h.opLoad _ _ _ _ _ fun _ => Xlen.zext_lt ..
  case ld =>
    refine .whenDecodable h _ fun wide => h.opLoad _ _ _ _ _ fun v => ?_
    rw [beq_iff_eq.mp wide]
    exact v.isLt
  case sb | sh | sw => exact h.opStore _ _ _ _
  case sd => exact .whenDecodable h _ fun _ => h.opStore _ _ _ _

/-! ### Serving the host -/

theorem Invariant.accept (c : Command) (hn : s.isRunning = false) : Invariant (s.accept c) := by
  have latch := h.err
  cases hr : s.runState <;> simp only [hr, State.isRunning, State.accept, reduceCtorEq, false_or] at hn latch ⊢
  case halted => exact h
  all_goals exact h.of_same rfl rfl rfl rfl rfl rfl rfl rfl (.inr latch)

theorem Invariant.replyErr (e : Err) : Invariant (s.replyErr e) := by
  cases e
  case alignmentError => exact h.reply _
  all_goals exact h

theorem Invariant.hostLoad (w : Width) (a : Word) : Invariant (hostLoad w a s) := by
  unfold Machine.hostLoad
  split
  · exact h.reply _
  · exact h.replyErr _

theorem Invariant.hostStore (w : Width) (a v : Word) : Invariant (hostStore w a v s) := by
  rcases s.memWrite_cases a v w with held | written
  · rw [Machine.hostStore, held]; exact h.replyErr _
  · rw [Machine.hostStore, written]; exact h.writeData _ _

/-- Every request, while the engine is not Running. -/
theorem Invariant.servePort (q : PortRequest) (hn : s.isRunning = false) : LeavesInvariant (servePort q s) := by
  cases q
  case reset =>
    exact .of_next ((Invariant.ofParams h.valid).of_same rfl rfl rfl rfl rfl rfl rfl rfl (.inr rfl))
  case command c => exact .of_next (h.accept c hn)
  case load w a =>
    simp only [Machine.servePort]
    split
    · exact .of_next (h.hostLoad _ _)
    · exact .of_refused _
  case store w a v =>
    simp only [Machine.servePort]
    split
    · exact .of_next (h.hostStore _ _ _)
    · exact .of_refused _
  case removeByte a => exact .of_next (h.writeData _ _)
  case setAlignedAddresses b => exact .of_next (h.of_same rfl rfl rfl rfl rfl rfl rfl rfl h.err)
  case setAlwaysCalloc b => exact .of_next (h.of_same rfl rfl rfl rfl rfl rfl rfl rfl h.err)
  all_goals exact .of_next (h.reply _)

theorem Invariant.serveHost (hn : s.isRunning = false) : LeavesInvariant (serveHost s) := by
  cases hq : s.requests with
  | nil => rw [serveHost_nil s hq]; exact .of_next h
  | cons q rest => rw [serveHost_cons s q rest hq]; exact (h.withRequests rest).servePort q hn

end

/-- Settles O11: a command's step raises, pauses or executes an instruction; any other step serves the host. -/
theorem stepKeepsInvariant : Obligations.StepKeepsInvariant := by
  intro s t hs ht
  rw [State.inv_iff] at hs ⊢
  cases hn : s.isRunning with
  | false =>
    rw [step_of_not_running s hn] at ht
    exact hs.serveHost hn t ht
  | true =>
    obtain ⟨c, resume, hr⟩ := s.exists_running hn
    rcases step_running_cases s t c resume hr ht with ⟨e, -, -, rfl⟩ | rfl | ⟨i, u, hu, rfl⟩
    · exact hs.raise e
    · exact hs.of_same rfl rfl rfl rfl rfl rfl rfl rfl (.inr (hs.err.resolve_left (by simp [hr])))
    · exact (hs.exec i u hu).settle c

end Sys2Proof.Machine
end

section
/-! What every instruction, and every step, changes and keeps: the counter (R28), the configuration (R32), memory (R34),
`pc` (R26) and the registers (R21), all from the one case analysis of `exec_next_cases`. -/

namespace Sys2Proof.Machine

/-! ### The counter -/

/-- A fault leaves the counter, an instruction that completes adds one (R28). -/
theorem exec_cycles (i : Instr) (s t : State) (he : s.err = .none) (h : exec i s = .next t) :
    (t.err ≠ .none ∧ t.cycles = s.cycles) ∨ (t.err = .none ∧ t.cycles.toNat = s.cycles.toNat + 1) := by
  rcases exec_next_cases i s t h with ⟨e, fault, -, rfl⟩ | ⟨next, u, notFull, rfl, kept, -⟩
  · exact .inl ⟨fault, rfl⟩
  · have counted := u.advance_cycles_toNat next (by rwa [State.notFull, kept.cycles])
    exact .inr ⟨kept.err.trans he, by rw [counted, kept.cycles]⟩

/-- No instruction leaves the engine in the pause, and what follows it does neither (R317). -/
theorem State.settle_runState_ne_atBreakpoint (s : State) (c : Command) : (s.settle c).runState ≠ .atBreakpoint := by
  rw [State.settle_runState]
  cases s.runState <;> cases c <;> simp

/-- Settles O23: an instruction is counted when it completes; a pause, a fault and a request of the host count
nothing. -/
theorem cyclesCountExecutedInstructions : Obligations.CyclesCountExecutedInstructions := by
  refine ⟨exec_cycles, fun s t ht hn => ?_, fun s t ht hn hr => ?_⟩
  · obtain ⟨c, resume, hr⟩ := s.exists_running hn
    rcases step_running_cases s t c resume hr ht with ⟨e, fault, -, rfl⟩ | rfl | ⟨i, u, hu, rfl⟩
    · exact ⟨fun _ => rfl, fun _ _ => rfl, fun _ none => absurd none fault⟩
    · exact ⟨fun _ => rfl, fun _ _ => rfl, fun _ _ paused => absurd rfl paused⟩
    · refine ⟨fun paused => absurd paused (u.settle_runState_ne_atBreakpoint c), fun he fault => ?_,
        fun he none _ => ?_⟩
      · exact ((exec_cycles i s u he hu).resolve_right fun done => fault done.1).2
      · exact ((exec_cycles i s u he hu).resolve_left fun raised => raised.1 none).2
  · rw [step_of_not_running s hn] at ht
    obtain ⟨-, cycles, -⟩ := serveHost_frame s t ht hr hn
    exact cycles

/-! ### Memory and the allocator -/

/-- Settles O25: within the permissions of an instruction that is no store and not `ECALL`, or not `ECALL`. -/
theorem onlyStoresAndEcallWriteMemory : Obligations.OnlyStoresAndEcallWriteMemory := by
  refine ⟨fun i s t hm h => ?_, fun i s t hi h => ?_⟩
  · rcases exec_next_cases i s t h with ⟨e, -, -, rfl⟩ | ⟨next, u, -, rfl, -, -, -, -, data, -⟩
    · exact ⟨rfl, rfl, rfl⟩
    · obtain ⟨mem, touched, history⟩ := data hm
      exact ⟨mem, touched, history⟩
  · rcases exec_next_cases i s t h with ⟨e, -, -, rfl⟩ | ⟨next, u, -, rfl, -, -, -, -, -, same⟩
    · exact ⟨rfl, rfl, rfl, rfl⟩
    · exact same hi

/-! ### Configuration and parameters -/

theorem exec_configuration (i : Instr) (s t : State) (h : exec i s = .next t) :
    t.alignedAddresses = s.alignedAddresses ∧ t.alwaysCalloc = s.alwaysCalloc ∧ t.params = s.params
      ∧ t.requests = s.requests ∧ t.replies = s.replies := by
  rcases exec_next_cases i s t h with ⟨e, -, -, rfl⟩ | ⟨next, u, -, rfl, kept, -⟩
  · exact ⟨rfl, rfl, rfl, rfl, rfl⟩
  · exact ⟨kept.alignedAddresses, kept.alwaysCalloc, kept.params, kept.requests, kept.replies⟩

/-- No step changes a parameter, `RESET` included (R6, R336). -/
theorem step_params (s t : State) (ht : step s = .next t) : t.params = s.params := by
  cases hn : s.isRunning with
  | true =>
    obtain ⟨c, resume, hr⟩ := s.exists_running hn
    rcases step_running_cases s t c resume hr ht with ⟨e, -, -, rfl⟩ | rfl | ⟨i, u, hu, rfl⟩
    · rfl
    · rfl
    · obtain ⟨-, -, params, -⟩ := exec_configuration i s u hu
      exact params
  | false =>
    by_cases hr : s.requests.head? = some .reset
    · obtain ⟨rest, hq⟩ := List.head?_eq_some_iff.mp hr
      rw [step_of_reset s rest hn hq] at ht
      cases ht
      rfl
    · rw [step_of_not_running s hn] at ht
      obtain ⟨-, -, params, -⟩ := serveHost_frame s t ht hr hn
      exact params

/-- Settles O26: these fields are among those that no instruction's effect writes. -/
theorem instructionsKeepConfiguration : Obligations.InstructionsKeepConfiguration :=
  ⟨exec_configuration, step_params⟩

/-! ### `pc` -/

/-- A branch whose comparison does not hold goes on to `pc + 4` (R205). -/
theorem pc_of_branch_not_taken (i : Instr) (s t : State) (cond : (w : Nat) → BitVec w → BitVec w → Bool)
    (rs1 rs2 : RegId) (off : BitVec 13) (taken : Prop) (he : exec i s = opBranch cond rs1 rs2 off s)
    (hc : s.params.xlen.compare cond (s.x rs1) (s.x rs2) = true ↔ taken) (h : exec i s = .next t) (hf : s.notFull)
    (not : ¬ taken) : t.pc.toNat = s.pcPlus4 := by
  obtain ⟨-, -, notTaken⟩ := branchRule_of_opBranch i s cond rs1 rs2 off taken he hc
  obtain ⟨u, hu, -, ⟨pc, -⟩, -⟩ := notTaken not hf
  rw [hu] at h
  cases h
  exact pc

/-- An instruction that completes without a transfer goes on to `pc + 4` (R26). -/
theorem pc_of_not_transfers (i : Instr) (s t : State) (h : exec i s = .next t) (hf : s.notFull)
    (seq : i.isTransfer = false → t.pc = s.seqPc) (not : ¬ s.Transfers i) : t.pc.toNat = s.pcPlus4 := by
  have branch := fun i => pc_of_branch_not_taken i s t
  cases i
  case jal | jalr => exact absurd trivial not
  case beq rs1 rs2 off => exact branch _ cmpEq rs1 rs2 off _ rfl (s.compare_cmpEq_iff rs1 rs2) h hf not
  case bne rs1 rs2 off => exact branch _ cmpNe rs1 rs2 off _ rfl (s.compare_cmpNe_iff rs1 rs2) h hf not
  case blt rs1 rs2 off => exact branch _ cmpLtS rs1 rs2 off _ rfl (s.compare_cmpLtS_iff rs1 rs2) h hf not
  case bge rs1 rs2 off => exact branch _ cmpGeS rs1 rs2 off _ rfl (s.compare_cmpGeS_iff rs1 rs2) h hf not
  case bltu rs1 rs2 off => exact branch _ cmpLtU rs1 rs2 off _ rfl (s.compare_cmpLtU_iff rs1 rs2) h hf not
  case bgeu rs1 rs2 off => exact branch _ cmpGeU rs1 rs2 off _ rfl (s.compare_cmpGeU_iff rs1 rs2) h hf not
  all_goals rw [seq rfl, s.toNat_seqPc, State.pcPlus4]

/-- Settles O27: a fault leaves `pc`; a completed instruction that is no transfer, or a branch not taken, goes on. -/
theorem onlyTransfersLeaveSequence : Obligations.OnlyTransfersLeaveSequence := by
  intro i s t he h
  rcases exec_next_cases i s t h with ⟨e, fault, -, rfl⟩ | ⟨next, u, notFull, rfl, kept, -, -, seq, -⟩
  · exact ⟨fun none => absurd none fault, fun _ => rfl⟩
  · exact ⟨fun _ => pc_of_not_transfers i s _ h notFull seq, fun fault => absurd (kept.err.trans he) fault⟩

/-! ### Registers -/

/-- Settles O28: an instruction's effect writes its destination alone, and `x0` has no storage. -/
theorem onlyTheDestinationRegisterChanges : Obligations.OnlyTheDestinationRegisterChanges := by
  intro i s t h
  refine ⟨fun r hr => ?_, t.x_zero⟩
  rcases exec_next_cases i s t h with ⟨e, -, -, rfl⟩ | ⟨next, u, -, rfl, -, -, regs, -⟩
  · rfl
  · exact regs r hr

end Sys2Proof.Machine
end

section
/-! Commands and requests (R314 to R319, R330 to R336): how a command starts, what one pass of its loop does, and what
the inspection and configuration ports answer. -/

namespace Sys2Proof.Machine

/-! ### Requests that a step serves -/

/-- A step of an engine that is not Running serves the next request (R314, R337). -/
theorem step_of_request (s : State) (q : PortRequest) (rest : List PortRequest) (hn : s.isRunning = false)
    (hq : s.requests = q :: rest) : step s = servePort q { s with requests := rest } := by
  rw [step_of_not_running s hn, serveHost_cons s q rest hq]

/-- Settles O12: `RESET` is the request served. -/
theorem hostResetRestores : Obligations.HostResetRestores := step_of_reset

/-- A command accepted in Ready starts, not resuming (R314). -/
theorem step_of_command_ready (s : State) (c : Command) (rest : List PortRequest) (hr : s.runState = .ready)
    (hq : s.requests = .command c :: rest) :
    step s = .next { s with requests := rest, runState := .running c false } := by
  rw [step_of_request s _ rest (by simp [State.isRunning, hr]) hq]
  simp only [servePort, State.accept, hr]

/-- A command accepted in AtBreakpoint resumes (R316). -/
theorem step_of_command_atBreakpoint (s : State) (c : Command) (rest : List PortRequest)
    (hr : s.runState = .atBreakpoint) (hq : s.requests = .command c :: rest) :
    step s = .next { s with requests := rest, runState := .running c true } := by
  rw [step_of_request s _ rest (by simp [State.isRunning, hr]) hq]
  simp only [servePort, State.accept, hr]

/-- Settles O16: with nothing asked, the step serves nothing. -/
theorem readyAcceptsCommands : Obligations.ReadyAcceptsCommands :=
  ⟨step_of_command_ready, fun s hn hq => (step_of_not_running s hn).trans (serveHost_nil s hq)⟩

/-- Settles O60: each port answers its field, each configuration write sets its own, and the codes are `Err.code`'s. -/
theorem hostInspectionAndConfiguration : Obligations.HostInspectionAndConfiguration := by
  refine ⟨fun s rest q a hn hq ask => ?_, fun s b rest hn => ⟨fun hq => ?_, fun hq => ?_⟩,
    fun _ _ _ _ _ _ _ _ => ⟨rfl, rfl, rfl, rfl, rfl, rfl, rfl, rfl⟩⟩
  · rw [step_of_request s q rest hn hq]
    rcases ask with ⟨r, rfl, rfl⟩ | ⟨rfl, rfl⟩ | ⟨rfl, rfl⟩ | ⟨rfl, rfl⟩ | ⟨rfl, rfl⟩ | ⟨rfl, rfl⟩ | ⟨rfl, rfl⟩
      | ⟨rfl, rfl⟩ <;> rfl
  · exact step_of_request s _ rest hn hq
  · exact step_of_request s _ rest hn hq

/-! ### One pass of the loop -/

/-- The head of the loop lets a fetched instruction run unless it is an `EBREAK` to pause on (R317). -/
theorem loopHead_of_fetches (s : State) (c : Command) (resume : Bool) (w : InstrWord) (i : Instr) (hu : s.underLimit)
    (hf : s.Fetches w) (hd : decode s.params.xlen w = .ok i) (hp : i = .ebreak → s.Honours c → resume = true) :
    loopHead c resume s = .run i := by
  have noPause : ¬ (i = .ebreak ∧ s.honours c = true ∧ resume = false) := by
    rintro ⟨ebreak, honours, fresh⟩
    exact absurd (hp ebreak ((s.honours_iff c).mp honours)) (by simp [fresh])
  simp only [loopHead, s.stepLimitReached_of_underLimit hu, s.fetch_of_fetches w hf, hd, if_neg noPause,
    Bool.false_eq_true, if_false]

theorem step_of_loopHead_run (s : State) (c : Command) (resume : Bool) (i : Instr)
    (hr : s.runState = .running c resume) (hl : loopHead c resume s = .run i) : step s = finish c (exec i s) := by
  simp only [step, hr, hl]

theorem State.settle_eq (s : State) (c : Command) :
    s.settle c = { s with runState := runStateAfter c s.runState } := by
  cases hr : s.runState <;> cases c <;> simp [State.settle, runStateAfter, hr]

/-- Settles O13: the instruction runs, and then the run state settles. -/
theorem stepRunsTheDecodedInstruction : Obligations.StepRunsTheDecodedInstruction := by
  intro s c resume w i hr hu hf hd hp
  rw [step_of_loopHead_run s c resume i hr (loopHead_of_fetches s c resume w i hu hf hd hp)]
  cases exec i s with
  | next t => exact congrArg Host.Outcome.next (t.settle_eq c)
  | fault r => rfl
  | refused r => rfl

/-- An `EBREAK` that is not paused on completes, and the command settles (R255 b, R317). -/
theorem step_of_executed_ebreak (s : State) (c : Command) (resume : Bool) (hr : s.runState = .running c resume)
    (hu : s.underLimit) (hf : s.notFull) (hw : s.Fetches 0x00100073#32) (hp : s.Honours c → resume = true) :
    step s = .next ((s.advance s.seqPc).settle c) := by
  have decoded : decode s.params.xlen 0x00100073#32 = .ok .ebreak :=
    (systemWordsAreEcallAndEbreak s.params.xlen).2.1
  rw [step_of_loopHead_run s c resume .ebreak hr (loopHead_of_fetches s c resume _ _ hu hw decoded fun _ => hp)]
  exact congrArg (finish c) (complete_of_notFull s.seqPc s hf)

/-- The run state that an executed `EBREAK` leaves: `STEP` ends, the others go on, no longer resuming (R317). -/
theorem State.settle_advance_runState (s : State) (c : Command) (next : Word) (c' : Command) (resume : Bool)
    (hr : s.runState = .running c' resume) :
    ((s.advance next).settle c).runState = if c = .step then .ready else .running c false := by
  rw [State.settle_eq]
  simp [runStateAfter, hr]

/-- Settles O15: the command's acceptance, and the first pass of its loop. -/
theorem commandAfterPauseExecutesBreakpoint : Obligations.CommandAfterPauseExecutesBreakpoint := by
  intro s c rest hr hq hu hf hw
  refine ⟨_, _, step_of_command_atBreakpoint s c rest hr hq, rfl,
    step_of_executed_ebreak { s with requests := rest, runState := .running c true } c true rfl hu hf hw fun _ => rfl,
    s.toNat_seqPc, s.advance_cycles_toNat s.seqPc hf, ?_, rfl⟩
  exact State.settle_advance_runState { s with requests := rest, runState := .running c true } c _ c true rfl

/-- Settles O19: `RUN` without the option does not honour breakpoints. -/
theorem runPassesBreakpoints : Obligations.RunPassesBreakpoints := by
  intro s resume hr option hu hf hw
  have passes : s.Honours .run → resume = true := fun honours =>
    absurd ((s.honours_iff .run).mpr honours) (by simp [State.honours, option])
  refine ⟨_, step_of_executed_ebreak s .run resume hr hu hf hw passes, s.toNat_seqPc,
    s.advance_cycles_toNat s.seqPc hf, ?_⟩
  rw [State.settle_eq, State.advance_runState, hr]
  rfl

/-- Settles O41: executed, `EBREAK` completes in sequence and has no other effect. -/
theorem executedEbreakIsNoOperation : Obligations.ExecutedEbreakIsNoOperation :=
  ⟨encodedAs_of_rowMatches .ebreak _ rfl Laws.RowMatches.ebreak,
    fun s hf => goesTo_of_complete .ebreak s _ _ hf rfl s.toNat_seqPc⟩

/-- A completed instruction of `STEP` ends in Ready or Halted (R317, R318). -/
theorem State.settle_step_runState (s : State) :
    (s.settle .step).runState = .ready ∨ (s.settle .step).runState = .halted := by
  rw [State.settle_runState]
  cases s.runState <;> simp

/-- Settles O18: a fault and the pause change nothing else; an instruction that completes is counted. -/
theorem stepCommandRunsOneInstruction : Obligations.StepCommandRunsOneInstruction := by
  intro s t resume hr he ht
  rcases step_running_cases s t .step resume hr ht with ⟨e, fault, -, rfl⟩ | paused | ⟨i, u, hu, rfl⟩
  · exact .inr (.inr (.inr ⟨fault, rfl⟩))
  · exact .inr (.inr (.inl paused))
  · rcases exec_cycles i s u he hu with ⟨fault, -⟩ | ⟨none, counted⟩
    · exact .inr (.inr (.inr ⟨fault, step_eq_raise s _ (by simp [State.isRunning, hr]) he ht fault⟩))
    · rcases u.settle_step_runState with ready | halted
      · exact .inl ⟨ready, none, counted⟩
      · exact .inr (.inl ⟨halted, none, counted⟩)

end Sys2Proof.Machine
end

section
/-! Allocator calls (R252, R254, R270 to R290): what an `ECALL` of each operation leaves, from what the operations
themselves do. -/

namespace Sys2Proof.Machine

/-! ### The operation that a call runs -/

theorem State.AllocCall.notFull {s : State} {sel : Nat} (h : s.AllocCall sel) : s.notFull := by
  obtain ⟨-, -, -, -, -, notFull, -⟩ := h
  exact notFull

/-- `malloc` is operation 1, `calloc` operation 2 (R254). -/
theorem exec_ecall_of_request (s : State) (sel : Nat) (h : s.AllocCall sel) (hsel : sel = 1 ∨ sel = 2) :
    exec .ecall s = returnA0 s (s.request (s.x 11).toNat (sel == 2)) := by
  rcases hsel with rfl | rfl
  · exact h.runs .malloc rfl .null rfl nofun
  · exact h.runs .calloc rfl .null rfl nofun

theorem State.request_of_pos (s : State) (n : Nat) (z : Bool) (h : 0 < n) : s.request n z = s.allocate n z :=
  if_neg (by omega)

/-- Every block has a header (R6). -/
theorem HeapSound.hdrSize_pos {s : State} (h : HeapSound s) : 0 < s.params.hdrSize := by
  obtain ⟨-, -, -, positive, -⟩ := heapParams_of_valid s.params h.valid
  exact positive

section

variable (s : State) (before after : List Block) (b : Block)

/-- The payload address of an allocated block names that block (R276). -/
theorem State.pointerArg_block (h : HeapSound s) (hs : s.blocks = before ++ b :: after) (hb : b.free = false)
    (hx : (s.x 11).toNat = b.base + s.params.hdrSize) (op : AllocOp) (ho : op = .realloc ∨ op = .free) :
    s.pointerArg op = .block ⟨before, b, after⟩ := by
  have hp := h.hdrSize_pos
  have notNull : s.x 11 ≠ 0 := fun e => by rw [e] at hx; simp at hx; omega
  have found : s.lookup (s.x 11).toNat = some ⟨before, b, after⟩ := by
    rw [hx]; exact s.lookup_of_split h.heap before after b hs hb hp
  rcases ho with rfl | rfl <;> simp only [State.pointerArg, if_neg notNull, found]

theorem exec_ecall_of_free (h : HeapSound s) (hc : s.AllocCall 4) (hs : s.blocks = before ++ b :: after)
    (hb : b.free = false) (hx : (s.x 11).toNat = b.base + s.params.hdrSize) :
    exec .ecall s = complete s.seqPc (s.freeBlock ⟨before, b, after⟩) :=
  hc.runs .free rfl _ (s.pointerArg_block before after b h hs hb hx .free (.inr rfl)) nofun

theorem exec_ecall_of_resize (h : HeapSound s) (hc : s.AllocCall 3) (hs : s.blocks = before ++ b :: after)
    (hb : b.free = false) (hx : (s.x 11).toNat = b.base + s.params.hdrSize) :
    exec .ecall s = returnA0 s (s.resize ⟨before, b, after⟩ (s.x 12).toNat) :=
  hc.runs .realloc rfl _ (s.pointerArg_block before after b h hs hb hx .realloc (.inl rfl)) nofun

end

/-! ### What a returning call leaves -/

/-- The allocator's list, mark and count, memory and its history are the same in both states. -/
structure SameService (u t : State) : Prop where
  params : t.params = u.params
  mem : t.mem = u.mem
  blocks : t.blocks = u.blocks
  hwm : t.hwm = u.hwm
  count : t.numActiveBlocks = u.numActiveBlocks
  history : t.history = u.history

/-- A call that returns a value leaves the operation's own state but for `a0`, `pc` and the counter. -/
theorem returnA0_leaves (s : State) (r : State × Nat) (v : Nat) (hk : ServiceKept s r.1) (hf : s.notFull)
    (he : exec .ecall s = returnA0 s r) (hv : r.2 % 2 ^ s.params.xlen.bits = v) :
    ∃ t, CallReturns s t v ∧ SameService r.1 t := by
  obtain ⟨t, returns, mem, blocks, hwm, count, -, params, history⟩ := returnA0_returns s r v hk hf he hv
  exact ⟨t, returns, params.trans hk.params.symm, mem, blocks, hwm, count, history⟩

/-- A call that answers NULL with the state it was given changes nothing (R277, R285). -/
theorem returnA0_null (s : State) (hf : s.notFull) (he : exec .ecall s = returnA0 s (s, 0)) :
    ∃ t, CallReturns s t 0 ∧ SameMem s t ∧ SameHeap s t := by
  obtain ⟨t, returns, mem, blocks, hwm, count, drawn, -, history⟩ :=
    returnA0_returns s (s, 0) 0 (ServiceKept.refl s) hf he (Nat.zero_mod _)
  have ⟨_, _, _, _, touched, _⟩ := returns
  exact ⟨t, returns, ⟨fun a => by rw [mem], touched, history⟩, blocks, hwm, count, drawn⟩

theorem SameService.metadataByte_iff {u t : State} (e : SameService u t) (a : Nat) :
    t.MetadataByte a ↔ u.MetadataByte a := by
  rw [State.MetadataByte, State.origin, e.history]
  rfl

theorem HeapSound.of_sameService {u t : State} (h : HeapSound u) (e : SameService u t) : HeapSound t :=
  h.of_same e.params e.mem e.blocks e.hwm e.count e.history

theorem SameButMetadata.of_sameService {s u t : State} (h : SameButMetadata s u) (e : SameService u t) :
    SameButMetadata s t := ⟨e.history.trans h.1, by rw [e.mem]; exact h.2⟩

theorem KeepsOtherBlocks.of_sameService {s u t : State} {base : Nat} (h : KeepsOtherBlocks s u base)
    (e : SameService u t) : KeepsOtherBlocks s t base := by
  rw [KeepsOtherBlocks, e.blocks, e.mem]
  exact h

theorem HandsOut.of_sameService {s u t : State} {b : Block} {z r : Bool} (h : HandsOut s u b z r)
    (e : SameService u t) : HandsOut s t b z r := by
  obtain ⟨recorded, bytes, zeroed⟩ := h
  refine ⟨recorded.of_eq e.history e.blocks e.params, fun a ha => ?_, ?_⟩
  · rw [e.mem]; exact bytes a fun m => ha ((e.metadataByte_iff a).mpr m)
  · rw [e.mem]; exact zeroed

/-! ### Allocation (R277) -/

section

variable (s : State) (h : HeapSound s) (n rs : Nat) (z : Bool) (hn : roundUp s.params.allocAlign n = rs)
include h hn

/-- With a first fitting free block, `alloc` takes the block handed out from that one. -/
theorem State.alloc_takes (before after : List Block) (b : Block) (hs : s.blocks = before ++ b :: after)
    (hb : b.free = true) (hr : rs ≤ b.size) (hbef : ∀ c ∈ before, c.free = true → c.size < rs) :
    ∃ u, s.alloc n z = some (u, (takenFrom s.params.hdrSize rs b).1)
      ∧ Granted s u (takenFrom s.params.hdrSize rs b).1 (z || s.alwaysCalloc) true ∧ u.hwm = s.hwm
      ∧ u.blocks = before ++ (takenFrom s.params.hdrSize rs b).1
          :: ((takenFrom s.params.hdrSize rs b).2 ++ after) := by
  subst hn
  obtain ⟨-, blocks, hwm, -⟩ := State.grant_frame (s.relist (before ++ (carve s.params.hdrSize _ b).1
    :: ((carve s.params.hdrSize _ b).2 ++ after))) (carve s.params.hdrSize _ b).1 z true
  exact ⟨_, s.alloc_first_fit n z before after b hs hb hr hbef, s.grant_carved h before after b _ z hs hb hr, hwm,
    blocks⟩

/-- With no fit and room for the block, `alloc` carves it at the high-water mark. -/
theorem State.alloc_extends (hfit : s.NoFit rs) (hl : s.hwm + s.params.hdrSize + rs ≤ s.params.heapLimit) :
    ∃ u, s.alloc n z = some (u, ⟨s.hwm, rs, false⟩) ∧ Granted s u ⟨s.hwm, rs, false⟩ (z || s.alwaysCalloc) false
      ∧ u.hwm = s.hwm + s.params.hdrSize + rs ∧ u.blocks = s.blocks ++ [⟨s.hwm, rs, false⟩] := by
  subst hn
  rcases s.alloc_cases n z with ⟨before, b, after, hs, hb, hr, -⟩ | ⟨-, -, e⟩ | ⟨-, full, -⟩
  · have := hfit b (by rw [hs]; simp) hb
    omega
  · obtain ⟨-, blocks, hwm, -⟩ := State.grant_frame { s.relist (s.blocks ++ [⟨s.hwm, _, false⟩]) with
      hwm := s.hwm + s.params.hdrSize + roundUp s.params.allocAlign n } ⟨s.hwm, _, false⟩ z false
    exact ⟨_, e, s.grant_extended h _ z hl, hwm, blocks⟩
  · omega

omit h in
theorem State.alloc_eq_none (hfit : s.NoFit rs) (hl : s.params.heapLimit < s.hwm + s.params.hdrSize + rs) :
    s.alloc n z = none := by
  subst hn
  rcases s.alloc_cases n z with ⟨before, b, after, hs, hb, hr, -⟩ | ⟨-, room, -⟩ | ⟨-, -, e⟩
  · have := hfit b (by rw [hs]; simp) hb
    omega
  · omega
  · exact e

end

/-- The address of a block of the list with a byte of payload is an `XLEN`-bit address. -/
theorem Granted.payload_mod {s u : State} {b : Block} {z r : Bool} (hu : Granted s u b z r) (hp : 0 < b.size) :
    (b.base + s.params.hdrSize) % 2 ^ s.params.xlen.bits = b.base + s.params.hdrSize := by
  have top := hu.sound.hwm_le
  have within := tiles_mem _ _ _ _ hu.sound.heap.tiled b hu.listed
  rw [hu.params] at top within
  exact Nat.mod_eq_of_lt (by omega)

/-- A call whose allocation handed out a block with a byte of payload returns its address. -/
theorem callReturns_of_granted (s u : State) (b : Block) (n : Nat) (z zero r : Bool) (hf : s.notFull)
    (he : exec .ecall s = returnA0 s (s.allocate n z)) (ha : s.alloc n z = some (u, b)) (hu : Granted s u b zero r)
    (hp : 0 < b.size) :
    ∃ t, CallReturns s t (b.base + s.params.hdrSize) ∧ t.blocks = u.blocks ∧ t.hwm = u.hwm
      ∧ t.numActiveBlocks = s.numActiveBlocks + 1 ∧ HandsOut s t b zero r := by
  have kept := ServiceKept.allocate s n z
  rw [s.allocate_some u b n z ha] at he kept
  obtain ⟨t, returns, same⟩ := returnA0_leaves s _ _ kept hf he (hu.payload_mod hp)
  exact ⟨t, returns, same.blocks, same.hwm, same.count.trans hu.count, hu.handsOut.of_sameService same⟩

/-- A positive request rounds up to a positive size (R276). -/
theorem State.RoundedUp.pos {s : State} {size rs : Nat} (h : s.RoundedUp size rs) (hp : 0 < size) : 0 < rs := by
  obtain ⟨-, le, -⟩ := h
  omega

/-- Settles O44: the call is `allocate`, which takes the block from the first fit, whole or split. -/
theorem mallocTakesTheFirstFit : Obligations.MallocTakesTheFirstFit := by
  intro s sel size rs before after b hi hc hsel hx hpos hrs hs hb hr hbef
  have h := ((s.inv_iff).mp hi).toHeapSound
  have rounded := s.roundUp_eq size rs hrs
  have call := exec_ecall_of_request s sel hc hsel
  rw [hx, s.request_of_pos size _ hpos] at call
  obtain ⟨u, ha, hu, hwm, blocks⟩ := s.alloc_takes h size rs (sel == 2) rounded before after b hs hb hr hbef
  obtain ⟨-, base, large, -⟩ := carve_spec s.params.hdrSize rs b hr
  obtain ⟨t, returns, tBlocks, tHwm, count, handsOut⟩ := callReturns_of_granted s u _ size _ _ _ hc.notFull call ha hu
    ((hrs.pos hpos).trans_le large)
  refine ⟨t, base ▸ returns, tHwm.trans hwm, count, fun split => ?_, fun whole => ?_⟩
  · rw [tBlocks, blocks]
    rw [takenFrom, if_pos split] at handsOut ⊢
    exact ⟨rfl, handsOut⟩
  · rw [tBlocks, blocks]
    rw [takenFrom, if_neg (by omega)] at handsOut ⊢
    exact ⟨rfl, handsOut⟩

/-- Settles O45: with no fit the call extends the heap, or is out of space. -/
theorem mallocExtendsOrReturnsNull : Obligations.MallocExtendsOrReturnsNull := by
  intro s sel size rs hi hc hsel hx hpos hrs hfit
  have h := ((s.inv_iff).mp hi).toHeapSound
  have rounded := s.roundUp_eq size rs hrs
  have call := exec_ecall_of_request s sel hc hsel
  rw [hx, s.request_of_pos size _ hpos] at call
  refine ⟨fun room => ?_, fun full => ?_⟩
  · obtain ⟨u, ha, hu, hwm, blocks⟩ := s.alloc_extends h size rs (sel == 2) rounded hfit room
    obtain ⟨t, returns, tBlocks, tHwm, count, handsOut⟩ := callReturns_of_granted s u _ size _ _ _ hc.notFull call ha
      hu (hrs.pos hpos)
    exact ⟨t, returns, tBlocks.trans blocks, tHwm.trans hwm, count, handsOut⟩
  · rw [s.allocate_none size _ (s.alloc_eq_none size rs _ rounded hfit full)] at call
    exact returnA0_null s hc.notFull call

/-! ### Freeing (R286) -/

/-- What `free` of the block `b` leaves: `b` merged with its free neighbours and gone from the allocated blocks, the
others still in the list, and every byte that is not metadata. -/
structure Freed (s t : State) (before after : List Block) (b : Block) : Prop where
  sound : HeapSound t
  params : t.params = s.params
  blocks : t.blocks = freedList s.params.hdrSize before b after
  hwm : t.hwm = s.hwm
  count : t.numActiveBlocks + 1 = s.numActiveBlocks
  recorded : Recorded s t (fun _ => False)
  bytes : ∀ a, ¬ t.MetadataByte a → t.mem.read a = s.mem.read a
  keeps : ∀ c ∈ s.blocks, c.free = false → c.base ≠ b.base → c ∈ t.blocks
  gone : ∀ c ∈ t.blocks, c.free = false → c.base ≠ b.base

theorem Freed.of_sameService {s u t : State} {before after : List Block} {b : Block} (h : Freed s u before after b)
    (e : SameService u t) : Freed s t before after b where
  sound := h.sound.of_sameService e
  params := e.params.trans h.params
  blocks := e.blocks.trans h.blocks
  hwm := e.hwm.trans h.hwm
  count := by rw [e.count]; exact h.count
  recorded := h.recorded.of_eq e.history e.blocks e.params
  bytes a ha := by rw [e.mem]; exact h.bytes a fun m => ha ((e.metadataByte_iff a).mpr m)
  keeps := by rw [e.blocks]; exact h.keeps
  gone := by rw [e.blocks]; exact h.gone

/-- In a tiled list with headers no two blocks have one address. -/
theorem HeapSound.base_ne_of_split {s : State} (h : HeapSound s) (before after : List Block) (b : Block)
    (hs : s.blocks = before ++ b :: after) (c : Block) (hc : c ∈ before ∨ c ∈ after) : c.base ≠ b.base := by
  have hp := h.hdrSize_pos
  have tiled := h.heap.tiled
  rw [hs, tiles_split] at tiled
  rcases hc with hc | hc
  · have := (tiles_mem _ _ _ _ tiled.1 c hc).2
    omega
  · have := (tiles_mem _ _ _ _ tiled.2 c hc).1
    omega

theorem State.freeBlock_freed (s : State) (h : HeapSound s) (before after : List Block) (b : Block)
    (hs : s.blocks = before ++ b :: after) (hb : b.free = false) :
    Freed s (s.freeBlock ⟨before, b, after⟩) before after b := by
  obtain ⟨sound, recorded, count, keeps, rest⟩ := s.release_does h before after b hs hb
  exact {
    sound := sound.refresh keepNone
    params := rfl
    blocks := s.release_blocks before after b
    hwm := rfl
    count := count
    recorded := recorded
    bytes := s.read_freeBlock h before after b hs hb
    keeps := keeps
    gone := fun c hc hf => h.base_ne_of_split before after b hs c (rest c hc hf) }

/-- Settles O47: the call frees the block that its pointer names. -/
theorem freeMarksAndCoalesces : Obligations.FreeMarksAndCoalesces := by
  intro s before after b hi hc hs hb hx
  have h := ((s.inv_iff).mp hi).toHeapSound
  have kept := ServiceKept.freeBlock s ⟨before, b, after⟩
  obtain ⟨t, returns, mem, blocks, hwm, count, params, history⟩ :=
    free_returns s _ kept hc.notFull (exec_ecall_of_free s before after b h hc hs hb hx)
  have freed := (s.freeBlock_freed h before after b hs hb).of_sameService
    ⟨params.trans kept.params.symm, mem, blocks, hwm, count, history⟩
  exact ⟨t, returns, freed.blocks, freed.hwm, freed.count, freed.recorded, freed.bytes⟩

/-- Settles O48: neither call runs an operation that changes anything. -/
theorem freeOfNullAndCount : Obligations.FreeOfNullAndCount := by
  refine ⟨fun s hc hx => ?_, fun s hc => ?_⟩
  · have null : s.pointerArg .free = .null := if_pos hx
    exact goesTo_of_complete .ecall s s.seqPc _ hc.notFull (hc.runs .free rfl .null null nofun) s.toNat_seqPc
  · refine writesReg_of_complete .ecall s 10 _ s.seqPc _ _ hc.notFull (hc.runs .count rfl .null rfl nofun) ?_
      s.toNat_seqPc
    rw [Xlen.toNat_narrow, BitVec.toNat_ofNat, Nat.mod_mod_of_dvd _ (Nat.pow_dvd_pow 2 s.params.xlen.bits_le)]

/-- With no free block before it, the freed block stays where it was, at least as large. -/
theorem freedList_of_allocated (hdr : Nat) (before after : List Block) (b : Block) (h : ∀ c ∈ before, c.free = false) :
    freedList hdr before b after
      = before ++ { b with size := roomAt hdr b after, free := true } :: pastRoom after := by
  unfold freedList
  cases hl : before.getLast? with
  | none => rw [List.getLast?_eq_none_iff.mp hl]; rfl
  | some p => simp [h p (List.mem_of_getLast? hl)]

theorem size_le_roomAt (hdr : Nat) (b : Block) (after : List Block) : b.size ≤ roomAt hdr b after := by
  unfold roomAt
  split
  · split <;> omega
  · exact le_rfl

/-- Settles O56: after the free, the freed block is the first free one, and large enough. -/
theorem freedBlocksAreReused : Obligations.FreedBlocksAreReused := by
  intro s t u size rs before after b hi hc hs hb hx hbef ht hui hup hub huc hux hpos hrs hle
  obtain ⟨t', returns, blocks, -⟩ := freeMarksAndCoalesces s before after b hi hc hs hb hx
  obtain ⟨run, -, -, -, -, params, -⟩ := returns
  rw [ht] at run
  cases run
  have uBlocks := hub.trans (blocks.trans (freedList_of_allocated _ before after b hbef))
  obtain ⟨v, again, -⟩ := mallocTakesTheFirstFit u 1 size rs before _ _ hui huc (.inl rfl) hux hpos hrs uBlocks rfl
    (hle.trans (size_le_roomAt ..)) (fun c hcm hcf => absurd ((hbef c hcm).symm.trans hcf) Bool.false_ne_true)
  rw [hup, params] at again
  exact ⟨v, again⟩

end Sys2Proof.Machine
end

section
/-! `realloc` (R281 to R285, U9, U10, U12) and the zero-size requests (U9). -/

namespace Sys2Proof.Machine

/-! ### Resizing in place -/

/-- The resized block of the list after. -/
theorem State.resizeInPlace_listed (s : State) (f : Found) (n : Nat) :
    { f.block with size := s.keptSize f (roundUp s.params.allocAlign n) } ∈ (s.resizeInPlace f n).blocks := by
  rw [s.resizeInPlace_blocks]
  simp

/-- The payloads of the other allocated blocks lie apart from the resized one. -/
theorem State.resizeInPlace_keepsOtherBlocks (s : State) (h : HeapSound s) (f : Found) (n : Nat)
    (hs : s.blocks = f.before ++ f.block :: f.after) (hb : f.block.free = false)
    (hcap : roundUp s.params.allocAlign n ≤ roomAt s.params.hdrSize f.block f.after) :
    KeepsOtherBlocks s (s.resizeInPlace f n) f.block.base := by
  obtain ⟨sound, recorded, keeps, -, bytes⟩ := s.resizeInPlace_does h f n hs hb hcap
  intro c hc hf hne
  have listed := keeps c hc hf hne
  refine ⟨listed, fun a ha hm => bytes a ?_ fun above below => ?_⟩
  · exact recorded.not_metadata a (h.heap.payload_not_header c hc a ha)
      (sound.heap.payload_not_header c listed a ha) hm
  · have apart := sound.heap.apart_of_ne _ c (s.resizeInPlace_listed f n) listed hne
    change c.base + s.params.hdrSize + c.size ≤ f.block.base
      ∨ f.block.base + s.params.hdrSize + s.keptSize f (roundUp s.params.allocAlign n) ≤ c.base at apart
    obtain ⟨low, high⟩ := ha
    omega

/-- The size and header of a free block that follows decide whether a request is resized in place (R282). -/
theorem State.resize_inPlace (s : State) (f : Found) (n : Nat) (hn : n = 0 → Config.freeNull s.freeCount = false)
    (hcap : roundUp s.params.allocAlign n ≤ roomAt s.params.hdrSize f.block f.after) :
    s.resize f n = (s.resizeInPlace f n, f.block.base + s.params.hdrSize) := by
  have notNull : (n = 0 && Config.freeNull s.freeCount) = false := by
    by_cases zero : n = 0
    · simp [hn zero]
    · simp [zero]
  rw [State.resize, notNull, if_neg Bool.false_ne_true, if_pos (by rw [Found.capacity_eq]; exact hcap), Block.payload]

/-- Settles O49: such a call resizes in place, and the size kept is all the capacity or leaves a free block behind. -/
theorem reallocResizesInPlace : Obligations.ReallocResizesInPlace := by
  intro s size rs cap before after b hi hc hs hb hx hx2 hpos hrs hcap hle
  have inv := (s.inv_iff).mp hi
  have h := inv.toHeapSound
  have rounded := s.roundUp_eq size rs hrs
  have fits : roundUp s.params.allocAlign size ≤ roomAt s.params.hdrSize b after := by omega
  have call := exec_ecall_of_resize s before after b h hc hs hb hx
  rw [hx2, s.resize_inPlace ⟨before, b, after⟩ size (by omega) fits] at call
  obtain ⟨sound, recorded, -, kept, bytes⟩ := s.resizeInPlace_does h ⟨before, b, after⟩ size hs hb fits
  have others := s.resizeInPlace_keepsOtherBlocks h ⟨before, b, after⟩ size hs hb fits
  have blocks := s.resizeInPlace_blocks ⟨before, b, after⟩ size
  obtain ⟨t, returns, same⟩ := returnA0_leaves s _ (s.x 11).toNat (ServiceKept.resizeInPlace ..) hc.notFull call
    (by rw [← hx]; exact Nat.mod_eq_of_lt (inv.x_lt 11))
  obtain ⟨large, keeps⟩ := s.keptSize_spec ⟨before, b, after⟩ rs (rounded ▸ fits) h.hdrSize_pos
  rw [rounded] at blocks bytes
  rw [hx]
  refine ⟨t, hx ▸ returns, same.hwm, same.count, fun k hk => ?_, s.keptSize ⟨before, b, after⟩ rs,
    pastRoom after, large, rfl, recorded.of_eq same.history same.blocks same.params, others.of_sameService same,
    fun a ha tail => ?_, ?_⟩
  · rw [same.mem]
    exact kept k hk
  · rw [same.mem]
    exact bytes a (fun m => ha ((same.metadataByte_iff a).mpr m)) fun above below => tail ⟨above, below⟩
  · rw [same.blocks, blocks, hcap]
    rcases keeps with ⟨whole, none⟩ | ⟨split, rest⟩
    · exact .inl ⟨whole, by rw [none, whole]; rfl⟩
    · exact .inr ⟨split, by rw [rest]; rfl⟩

/-! ### Requests of zero bytes (U9) -/

/-- `malloc` or `calloc` of zero bytes: NULL with metadata bytes changed at most, or a block handed out. -/
theorem State.request_zero_cases (s : State) (h : HeapSound s) (z : Bool) :
    ((s.request 0 z).2 = 0 ∧ SameButMetadata s (s.request 0 z).1 ∧ (s.request 0 z).1.blocks = s.blocks
        ∧ (s.request 0 z).1.hwm = s.hwm ∧ (s.request 0 z).1.numActiveBlocks = s.numActiveBlocks)
      ∨ ∃ u b zero r, Granted s.draw u b zero r
        ∧ s.request 0 z = (u.refresh keepNone, b.base + s.params.hdrSize) := by
  cases null : Config.freeNull s.freeCount with
  | true =>
    have e : s.request 0 z = s.answerNull := by simp [State.request, null]
    rw [e]
    exact .inl ⟨rfl, s.answerNull_does h, rfl, rfl, rfl⟩
  | false =>
    have e : s.request 0 z = s.draw.allocate 0 z := by simp [State.request, null]
    rw [e]
    rcases s.draw.alloc_does h.draw 0 z with none | ⟨u, b, r, some, -, granted⟩
    · rw [s.draw.allocate_none 0 z none]
      exact .inl ⟨rfl, ⟨rfl, fun _ _ => rfl⟩, rfl, rfl, rfl⟩
    · exact .inr ⟨u, b, _, r, granted, s.draw.allocate_some u b 0 z some⟩

/-- `realloc` of a block to zero bytes: NULL, or the block resized in place. -/
theorem State.resize_zero_cases (s : State) (f : Found) :
    s.resize f 0 = s.answerNull
      ∨ s.resize f 0 = (s.resizeInPlace f 0, f.block.base + s.params.hdrSize) := by
  cases null : Config.freeNull s.freeCount with
  | true => exact .inl (by simp [State.resize, null])
  | false => exact .inr (s.resize_inPlace f 0 (fun _ => null) (by rw [roundUp_zero]; exact Nat.zero_le _))

/-- Settles O46: a free value says which of the two answers is given. -/
theorem zeroSizeRequestsReturnNullOrABlock : Obligations.ZeroSizeRequestsReturnNullOrABlock := by
  refine ⟨fun s sel hi hc hsel hx => ?_, fun s before after b hi hc hx2 hs hb hx => ?_⟩
  · have h := ((s.inv_iff).mp hi).toHeapSound
    have call := exec_ecall_of_request s sel hc hsel
    rw [hx, show (0 : Word).toNat = 0 from rfl] at call
    obtain ⟨t, returns, same⟩ := returnA0_leaves s _ _ (ServiceKept.request ..) hc.notFull call rfl
    refine ⟨t, _, returns, ?_⟩
    rcases s.request_zero_cases h (sel == 2) with ⟨null, mem, blocks, hwm, count⟩ | ⟨u, b, zero, r, granted, e⟩
    · exact .inl ⟨by rw [null, Nat.zero_mod], mem.of_sameService same, same.blocks.trans blocks, same.hwm.trans hwm,
        same.count.trans count⟩
    · rw [e] at same ⊢
      refine .inr ⟨same.count.trans granted.count, b, same.blocks ▸ granted.listed, granted.allocated, rfl,
        ?_, fun c hcm hf => (granted.keeps c hcm hf).2⟩
      exact (granted.keepsOtherBlocks h.draw b.base).of_sameService same
  · have inv := (s.inv_iff).mp hi
    have h := inv.toHeapSound
    have call := exec_ecall_of_resize s before after b h hc hs hb hx
    rw [hx2, show (0 : Word).toNat = 0 from rfl] at call
    rcases s.resize_zero_cases ⟨before, b, after⟩ with null | inPlace
    · rw [null] at call
      obtain ⟨t, returns, same⟩ := returnA0_leaves s _ 0 (ServiceKept.answerNull s) hc.notFull call (Nat.zero_mod _)
      exact ⟨t, 0, returns, same.count, same.hwm,
        .inl ⟨rfl, (s.answerNull_does h).of_sameService same, same.blocks⟩⟩
    · rw [inPlace] at call
      obtain ⟨t, returns, same⟩ := returnA0_leaves s _ (s.x 11).toNat (ServiceKept.resizeInPlace ..) hc.notFull call
        (by rw [← hx]; exact Nat.mod_eq_of_lt (inv.x_lt 11))
      refine ⟨t, _, returns, same.count, same.hwm, .inr ⟨rfl,
        { b with size := s.keptSize ⟨before, b, after⟩ (roundUp s.params.allocAlign 0) },
        same.blocks ▸ s.resizeInPlace_listed ⟨before, b, after⟩ 0, hb, rfl, ?_⟩⟩
      exact (s.resizeInPlace_keepsOtherBlocks h ⟨before, b, after⟩ 0 hs hb
        (by rw [roundUp_zero]; exact Nat.zero_le _)).of_sameService same

/-! ### `realloc` of NULL (R281) -/

theorem exec_ecall_of_realloc_null (s : State) (hc : s.AllocCall 3) (hx : s.x 11 = 0) :
    exec .ecall s = returnA0 s (s.request (s.x 12).toNat false) := by
  have null : s.pointerArg .realloc = .null := if_pos hx
  exact hc.runs .realloc rfl .null null nofun

/-- A returning call writes `a0` over the operation's registers, `pc` and the counter. -/
theorem returnA0_of_notFull (s : State) (r : State × Nat) (hk : ServiceKept s r.1) (hf : s.notFull) :
    returnA0 s r = .next ((r.1.setX 10 (s.params.xlen.narrow (BitVec.ofNat 64 r.2))).advance s.seqPc) :=
  complete_of_notFull _ _ (by simpa [State.notFull, hk.cycles] using hf)

/-- Settles O51: both calls request the same size, and a request reads and writes no register. -/
theorem reallocOfNullIsMalloc : Obligations.ReallocOfNullIsMalloc := by
  intro s u t hc hx hu huc hux ht
  have callU := exec_ecall_of_request u 1 huc (.inl rfl)
  rw [hux, returnA0_of_notFull u _ (ServiceKept.request ..) huc.notFull, ht] at callU
  have callS := exec_ecall_of_realloc_null s hc hx
  rw [returnA0_of_notFull s _ (ServiceKept.request ..) hc.notFull] at callS
  have request := s.request_regs u.regs (s.x 12).toNat false
  rw [← hu] at request
  have xlen : u.params.xlen = s.params.xlen := by rw [hu]
  have next : u.seqPc = s.seqPc := by rw [hu]; rfl
  rw [show ((1 : Nat) == 2) = false from rfl, request, xlen, next] at callU
  cases callU
  refine ⟨_, callS, ?_, rfl⟩
  rw [State.advance_x, State.advance_x, State.x_setX_same _ _ _ (by decide), State.x_setX_same _ _ _ (by decide)]

end Sys2Proof.Machine
end

section
/-! `realloc` that moves (R284, R285): the new block handed out, the first bytes copied into it, the old block freed. -/

namespace Sys2Proof.Machine

section
/-! The old block is `b`, the new one `p`; `u` is the state once `p` is handed out, `t` the state after the free. -/

variable {s u t : State} {b p : Block} {bef aft : List Block} {n : Nat} {zero reused : Bool}
  (h : HeapSound s) (hb : b ∈ s.blocks) (hf : b.free = false) (hu : Granted s u p zero reused)
  (hn : n ≤ p.size) (hnb : n ≤ b.size)
  (ht : Freed (u.copyPayload (b.base + s.params.hdrSize) (p.base + s.params.hdrSize) n) t bef aft b)

include hu in
/-- The payloads of the new block and of a block allocated before share no byte. -/
theorem Granted.payload_apart (c : Block) (hc : c ∈ s.blocks) (hcf : c.free = false) (a : Nat)
    (ha : c.Has s.params.hdrSize a) : ¬ p.Has s.params.hdrSize a := by
  obtain ⟨listed, other⟩ := hu.keeps c hc hcf
  have apart := hu.sound.heap.apart_of_ne p c hu.listed listed other
  rw [hu.params] at apart
  obtain ⟨low, high⟩ := ha
  rintro ⟨low', high'⟩
  omega

include hu ht in
theorem Freed.params_of_moved : t.params = s.params := ht.params.trans hu.params

include hb hf hu ht in
/-- The new block stays allocated when the old one is freed. -/
theorem Freed.listed_of_moved : p ∈ t.blocks :=
  ht.keeps p hu.listed hu.allocated (hu.keeps b hb hf).2.symm

include hb hf hu ht in
/-- A byte of the new payload lies in no header of any of the three lists. -/
theorem Freed.not_header_of_moved (a : Nat) (ha : p.Has s.params.hdrSize a) :
    ¬ s.HeaderByte a ∧ ¬ u.HeaderByte a ∧ ¬ t.HeaderByte a := by
  refine ⟨(hu.fresh a ha).1, hu.sound.heap.payload_not_header p hu.listed a ?_,
    ht.sound.heap.payload_not_header p (ht.listed_of_moved hb hf hu) a ?_⟩
  · rw [hu.params]; exact ha
  · rw [ht.params_of_moved hu]; exact ha

include hu in
/-- The new payload lies in the address space. -/
theorem Granted.payload_le : p.base + s.params.hdrSize + p.size ≤ 2 ^ s.params.xlen.bits := by
  have top := hu.sound.hwm_le
  have within := tiles_mem _ _ _ _ hu.sound.heap.tiled p hu.listed
  rw [hu.params] at top within
  omega

include hb hf hu hn ht in
/-- The copy, or the zero-fill of the whole payload, writes data; the headers of the three lists are metadata. -/
theorem Freed.recorded_of_moved :
    RecordedAs s t (fun a => s.HeaderByte a ∨ InHeaders s.params.hdrSize u.blocks a ∨ t.HeaderByte a)
      (fun a => p.Has s.params.hdrSize a ∧ (zero = true ∨ a < p.base + s.params.hdrSize + n)) := by
  have copied := u.copyPayload_recorded (b.base + s.params.hdrSize) (p.base + s.params.hdrSize) n
    (by rw [hu.params]; have := hu.payload_le; omega)
  have headers (a : Nat) : u.HeaderByte a ↔ InHeaders s.params.hdrSize u.blocks a := by
    rw [State.HeaderByte, hu.params]
  have headers' (a : Nat) : State.HeaderByte (u.copyPayload (b.base + s.params.hdrSize) (p.base + s.params.hdrSize) n) a
      ↔ InHeaders s.params.hdrSize u.blocks a := headers a
  refine ((hu.recorded.trans copied).trans ht.recorded).congr (fun a _ => ?_) (fun a => ?_)
  · rw [headers', headers]
    tauto
  · have apart := ht.not_header_of_moved hb hf hu a
    rw [headers] at apart
    rw [headers']
    constructor
    · rintro (no | ⟨⟨low, high⟩ | ⟨⟨filled, payload⟩, -⟩, -⟩)
      · exact no.elim
      · exact ⟨⟨low, by omega⟩, .inr high⟩
      · exact ⟨payload, .inl filled⟩
    · rintro ⟨payload, written⟩
      obtain ⟨-, notU, notT⟩ := apart payload
      refine .inr ⟨?_, fun header => header.elim notU notT⟩
      by_cases low : a < p.base + s.params.hdrSize + n
      · exact .inl ⟨payload.1, low⟩
      · exact .inr ⟨⟨written.resolve_right low, payload⟩, id⟩

include hu hn ht in
/-- A byte that is not metadata and that the copy did not write is as the allocation left it. -/
theorem Freed.read_of_not_copied (a : Nat) (ha : ¬ t.MetadataByte a)
    (out : ¬ (p.base + s.params.hdrSize ≤ a ∧ a < p.base + s.params.hdrSize + n)) :
    t.mem.read a = u.mem.read a := by
  refine (ht.bytes a ha).trans (Memory.read_copyBytes_other _ _ _ _ _ _ hu.sound.wf fun i hi => ?_)
  have := hu.payload_le
  rw [Xlen.addrMod_of_lt _ _ (by rw [hu.params]; omega)]
  omega

include hu hn ht in
/-- A byte outside the new payload that is not metadata is as before. -/
theorem Freed.read_outside_of_moved (a : Nat) (out : ¬ p.Has s.params.hdrSize a) (ha : ¬ t.MetadataByte a) :
    t.mem.read a = s.mem.read a :=
  (ht.read_of_not_copied hu hn a ha fun ⟨low, high⟩ => out ⟨low, by omega⟩).trans
    (hu.bytes a fun payload => absurd payload out)

include h hb hf hu hn ht in
/-- The other allocated blocks stay, with their payload bytes but for metadata (U2). -/
theorem Freed.keepsOtherBlocks_of_moved : KeepsOtherBlocks s t b.base := by
  intro c hc hcf hne
  have listed := ht.keeps c (hu.keeps c hc hcf).1 hcf hne
  refine ⟨listed, fun a ha hm => ht.read_outside_of_moved hu hn a (hu.payload_apart c hc hcf a ha) fun held => ?_⟩
  have notS := h.heap.payload_not_header c hc a ha
  have notU : ¬ InHeaders s.params.hdrSize u.blocks a := by
    have := hu.sound.heap.payload_not_header c (hu.keeps c hc hcf).1 a (by rw [hu.params]; exact ha)
    rwa [State.HeaderByte, hu.params] at this
  have notT := ht.sound.heap.payload_not_header c listed a (by rw [ht.params_of_moved hu]; exact ha)
  have origin := ((ht.recorded_of_moved hb hf hu hn a).2 fun written => hu.payload_apart c hc hcf a ha written.1).2
    fun header => header.elim notS fun header => header.elim notU notT
  rw [State.MetadataByte, origin] at held
  exact hm held

include h hb hf hu hn hnb ht in
/-- The first `n` bytes of the new payload are those of the old one (R284). -/
theorem Freed.read_copied_of_moved (k : Nat) (hk : k < n) :
    t.mem.read (p.base + s.params.hdrSize + k) = s.mem.read (b.base + s.params.hdrSize + k) := by
  have top := hu.payload_le
  have old := (tiles_mem _ _ _ _ h.heap.tiled b hb).2
  have limit := h.hwm_le
  have data : ¬ t.MetadataByte (p.base + s.params.hdrSize + k) := by
    rw [State.MetadataByte, (ht.recorded_of_moved hb hf hu hn _).1 ⟨⟨by omega, by omega⟩, .inr (by omega)⟩]
    simp
  obtain ⟨listed, other⟩ := hu.keeps b hb hf
  have apart := hu.sound.heap.apart_of_ne p b hu.listed listed other
  rw [hu.params] at apart
  refine (ht.bytes _ data).trans ((Memory.read_copyBytes u.mem u.params.xlen _ _ n hu.sound.wf ?_ ?_ (by omega) k
    hk).trans (hu.bytes _ fun payload => ?_))
  · rw [hu.params]; omega
  · rw [hu.params]; omega
  · exact absurd payload (hu.payload_apart b hb hf _ ⟨by omega, by omega⟩)

include hb hf hu hn ht in
/-- Behind the copy the new payload is as its allocation left it: zero, or the bytes it had but for those of a reused
block that were written since reset (R279, U12). -/
theorem Freed.read_behind_of_moved (a : Nat) (ha : p.Has s.params.hdrSize a)
    (behind : p.base + s.params.hdrSize + n ≤ a) :
    (zero = true → t.mem.read a = 0)
      ∧ (zero = false → (reused = true → s.NeverWritten a) → t.mem.read a = s.mem.read a) := by
  obtain ⟨written, other⟩ := ht.recorded_of_moved hb hf hu hn a
  refine ⟨fun filled => ?_, fun kept never => ?_⟩
  · have data : ¬ t.MetadataByte a := by
      rw [State.MetadataByte, written ⟨ha, .inl filled⟩]
      simp
    rw [ht.read_of_not_copied hu hn a data (by omega), hu.zeroed filled a ha]
  · have data : ¬ t.MetadataByte a := by
      obtain ⟨notS, notU, notT⟩ := ht.not_header_of_moved hb hf hu a ha
      rw [State.HeaderByte, hu.params] at notU
      have origin := (other fun w => w.2.elim (by simp [kept]) (by omega)).2
        fun header => header.elim notS fun header => header.elim notU notT
      rw [State.MetadataByte, origin]
      cases reused with
      | false => exact (hu.fresh a ha).2 rfl
      | true => rw [never rfl]; simp
    rw [ht.read_of_not_copied hu hn a data (by omega), hu.bytes a fun _ => ⟨kept, never⟩]

end

/-- A request beyond the capacity moves (R284). -/
theorem State.resize_moving (s : State) (f : Found) (n : Nat) (hn : 0 < n)
    (hcap : roomAt s.params.hdrSize f.block f.after < roundUp s.params.allocAlign n) :
    s.resize f n = s.resizeMoving f n := by
  have notNull : (n = 0 && Config.freeNull s.freeCount) = false := by
    simp [show n ≠ 0 by omega]
  rw [State.resize, notNull, if_neg Bool.false_ne_true, if_neg (by rw [Found.capacity_eq]; omega)]

/-- A moving `realloc` whose allocation handed out a large enough block does what `MovesTo` says. -/
theorem movesTo_of_granted (s u : State) (size : Nat) (before after taken : List Block) (b p : Block) (reused : Bool)
    (h : HeapSound s) (hc : s.AllocCall 3) (hs : s.blocks = before ++ b :: after) (hb : b.free = false)
    (he : exec .ecall s = returnA0 s (s.resizeMoving ⟨before, b, after⟩ size)) (ha : s.alloc size false = some (u, p))
    (hu : Granted s u p s.alwaysCalloc reused) (hp : size ≤ p.size) (hpos : 0 < size) (htaken : u.blocks = taken) :
    ∃ t, t.hwm = u.hwm ∧ MovesTo s t b p taken (min b.size size) reused := by
  have listed : b ∈ s.blocks := by rw [hs]; simp
  obtain ⟨bef, aft, split, moved⟩ := s.resizeMoving_some u h before after b p size _ reused hs hb ha hu
  have kept := ServiceKept.resizeMoving s ⟨before, b, after⟩ size
  rw [moved] at he kept
  obtain ⟨t, returns, same⟩ := returnA0_leaves s _ _ kept hc.notFull he (hu.payload_mod (by omega))
  have freed := (State.freeBlock_freed _ (hu.sound.copyPayload ..) bef aft b split hb).of_sameService same
  have copied : min b.size size ≤ p.size := by omega
  have blocks := freed.blocks
  rw [State.copyPayload_params, hu.params] at blocks
  subst htaken
  exact ⟨t, freed.hwm, returns, (hu.keeps b listed hb).2.symm, copied,
    Nat.succ.inj (freed.count.trans hu.count), ⟨bef, aft, split, blocks⟩, freed.listed_of_moved listed hb hu,
    hu.allocated, freed.gone, freed.keepsOtherBlocks_of_moved h listed hb hu copied,
    freed.recorded_of_moved listed hb hu copied, freed.read_outside_of_moved hu copied,
    freed.read_copied_of_moved h listed hb hu copied (Nat.min_le_left ..),
    freed.read_behind_of_moved listed hb hu copied⟩

/-- Settles O50: the new block comes from `alloc` as `malloc`'s does; with none, nothing changes. -/
theorem reallocMovesOrFails : Obligations.ReallocMovesOrFails := by
  intro s size rs cap before after b hi hc hs hb hx hx2 hpos hrs hcap hlt
  have h := ((s.inv_iff).mp hi).toHeapSound
  have rounded := s.roundUp_eq size rs hrs
  have ⟨_, sizeLe, _⟩ := hrs
  have call := exec_ecall_of_resize s before after b h hc hs hb hx
  rw [hx2, s.resize_moving ⟨before, b, after⟩ size hpos (by rw [rounded, ← hcap]; exact hlt)] at call
  refine ⟨fun left right c hl hcf hr hleft => ?_, fun hfit room => ?_, fun hfit full => ?_⟩
  · obtain ⟨u, ha, hu, hwm, blocks⟩ := s.alloc_takes h size rs false rounded left right c hl hcf hr hleft
    obtain ⟨-, -, large, -⟩ := carve_spec s.params.hdrSize rs c hr
    obtain ⟨t, tHwm, moves⟩ := movesTo_of_granted s u size before after _ b _ true h hc hs hb call ha hu
      (sizeLe.trans large) hpos blocks
    exact ⟨t, tHwm.trans hwm, moves⟩
  · obtain ⟨u, ha, hu, hwm, blocks⟩ := s.alloc_extends h size rs false rounded hfit room
    obtain ⟨t, tHwm, moves⟩ := movesTo_of_granted s u size before after _ b _ false h hc hs hb call ha hu sizeLe hpos
      blocks
    exact ⟨t, tHwm.trans hwm, moves⟩
  · rw [s.resizeMoving_none _ size (s.alloc_eq_none size rs false rounded hfit full)] at call
    exact returnA0_null s hc.notFull call

end Sys2Proof.Machine
end

section
/-! Allocator calls that do not run their operation (R275, R290), and the bytes that no call writes (R274). -/

namespace Sys2Proof.Machine

/-- Selectors 1 to 5 name operations (R254). -/
theorem ofSelector_some (v : Word) (h1 : 1 ≤ v.toNat) (h5 : v.toNat ≤ 5) : ∃ op, AllocOp.ofSelector v = some op := by
  obtain e | e | e | e | e : v.toNat = 1 ∨ v.toNat = 2 ∨ v.toNat = 3 ∨ v.toNat = 4 ∨ v.toNat = 5 := by omega
  · exact ⟨.malloc, ofSelector_eq v _ _ e (by decide) rfl⟩
  · exact ⟨.calloc, ofSelector_eq v _ _ e (by decide) rfl⟩
  · exact ⟨.realloc, ofSelector_eq v _ _ e (by decide) rfl⟩
  · exact ⟨.free, ofSelector_eq v _ _ e (by decide) rfl⟩
  · exact ⟨.count, ofSelector_eq v _ _ e (by decide) rfl⟩

/-- Settles O53: the refusal is the call's first check. -/
theorem callsAfterHeaderWritesAreRefused : Obligations.CallsAfterHeaderWritesAreRefused := by
  intro s hs hm hx h1 h5 touched
  obtain ⟨op, named⟩ := ofSelector_some _ h1 h5
  exact (execEcall_of_call s op hs hm hx named).trans (if_pos touched)

/-! ### The metadata fault (R290) -/

/-- A call whose pointer is not invalid takes the fault when the metadata may be misaligned. -/
theorem allocatorCall_of_misaligned (s : State) (op : AllocOp) (ht : s.headersTouched = false)
    (hp : s.pointerArg op ≠ .invalid) (hm : s.metadataMisaligned = true) :
    allocatorCall op s = takeFault s.metadataFault s := by
  unfold allocatorCall
  rw [ht, if_neg Bool.false_ne_true, hm]
  cases hq : s.pointerArg op with
  | invalid => exact absurd hq hp
  | null | block f => rfl

/-- NULL and the payload address of an allocated block are not invalid (R296). -/
theorem State.pointerArg_ne_invalid (s : State) (op : AllocOp)
    (h : s.x 11 = 0 ∨ ∃ b ∈ s.blocks, b.free = false ∧ b.base + s.params.hdrSize = (s.x 11).toNat) :
    s.pointerArg op ≠ .invalid := by
  have found : s.x 11 ≠ 0 → s.lookup (s.x 11).toNat ≠ none := by
    intro notNull none
    obtain ⟨b, hb, hf, address⟩ := h.resolve_left notNull
    have := findBlock_eq_none _ _ none b hb
    simp [Block.payload, address, hf] at this
  cases op with
  | malloc | calloc | count => exact nofun
  | realloc | free =>
    by_cases null : s.x 11 = 0
    · simp [State.pointerArg, null]
    · cases hl : s.lookup (s.x 11).toNat with
      | none => exact absurd hl (found null)
      | some f =>
        simp only [State.pointerArg, if_neg null, hl]
        exact nofun

theorem metadataFaultWidth_spec (x : Xlen) (w : Width) :
    metadataFaultWidth x w ≠ .byte ∧ (metadataFaultWidth x w = .long → x = .rv64) := by
  cases w <;> cases x <;> decide

theorem Width.bytes_of_ne_byte (w : Width) (h : w ≠ .byte) : w.bytes = 2 ∨ w.bytes = 4 ∨ w.bytes = 8 := by
  cases w with
  | byte => exact absurd rfl h
  | half => exact .inl rfl
  | word => exact .inr (.inl rfl)
  | long => exact .inr (.inr rfl)

/-- An address that is a multiple of an even width is even, so the next one still is an `XLEN`-bit address. -/
theorem succ_misaligned (x : Xlen) (a : Word) (w : Width) (hw : w ≠ .byte) (ha : a.toNat < 2 ^ x.bits)
    (aligned : a.toNat % w.bytes = 0) : (a + 1).toNat < 2 ^ x.bits ∧ (a + 1).toNat % w.bytes ≠ 0 := by
  have even : 2 ∣ 2 ^ x.bits := dvd_pow_self 2 x.bits_pos.ne'
  have top := x.pow_bits_le
  have width := Width.bytes_of_ne_byte w hw
  have fits : a.toNat + 1 < 2 ^ x.bits := by rcases width with e | e | e <;> rw [e] at aligned <;> omega
  have next : (a + 1).toNat = a.toNat + 1 := by
    rw [BitVec.toNat_add]
    exact Nat.mod_eq_of_lt (fits.trans_le top)
  rw [next]
  refine ⟨fits, ?_⟩
  rcases width with e | e | e <;> rw [e] at aligned ⊢ <;> omega

/-- The fault is an `AlignmentError` of a 2-, 4- or 8-byte access at a misaligned `XLEN`-bit address. -/
theorem State.metadataFault_spec (s : State) :
    ∃ addr w isStore, s.metadataFault = .alignmentError addr w isStore ∧ w ≠ .byte
      ∧ (w = .long → s.params.xlen = .rv64) ∧ addr.toNat < 2 ^ s.params.xlen.bits ∧ addr.toNat % w.bytes ≠ 0 := by
  obtain ⟨notByte, long⟩ := metadataFaultWidth_spec s.params.xlen (Config.freeFaultWidth s.freeCount)
  refine ⟨_, _, _, rfl, notByte, long, ?_⟩
  generalize metadataFaultWidth s.params.xlen (Config.freeFaultWidth s.freeCount) = w at notByte
  have bound := s.params.xlen.narrow_lt (Config.freeFaultAddr s.freeCount)
  generalize s.params.xlen.narrow (Config.freeFaultAddr s.freeCount) = a at bound
  split
  · next aligned => exact succ_misaligned s.params.xlen a w notByte bound aligned
  · next misaligned => exact ⟨bound, misaligned⟩

/-- Settles O54: the selector names an operation, its pointer is not invalid, and the layout is misaligned. -/
theorem misalignedMetadataRaises : Obligations.MisalignedMetadataRaises := by
  intro s hs hm hx hsel touched enforced layout
  have misaligned : s.metadataMisaligned = true := by
    rw [State.metadataMisaligned, enforced, Bool.true_and, Bool.not_eq_true']
    exact Bool.eq_false_iff.mpr fun aligned => layout (by simpa [and_assoc] using aligned)
  obtain ⟨op, named, pointer⟩ : ∃ op, AllocOp.ofSelector (s.x 16) = some op ∧ s.pointerArg op ≠ .invalid := by
    rcases hsel with e | e | e | ⟨e | e, pointer⟩
    · exact ⟨.malloc, ofSelector_eq _ _ _ e (by decide) rfl, nofun⟩
    · exact ⟨.calloc, ofSelector_eq _ _ _ e (by decide) rfl, nofun⟩
    · exact ⟨.count, ofSelector_eq _ _ _ e (by decide) rfl, nofun⟩
    · exact ⟨.realloc, ofSelector_eq _ _ _ e (by decide) rfl, s.pointerArg_ne_invalid _ pointer⟩
    · exact ⟨.free, ofSelector_eq _ _ _ e (by decide) rfl, s.pointerArg_ne_invalid _ pointer⟩
  obtain ⟨addr, w, isStore, fault, width⟩ := s.metadataFault_spec
  refine ⟨addr, w, isStore, raises_of_takeFault .ecall s _ ?_, width⟩
  rw [← fault]
  exact (execEcall_of_call s op hs hm hx named).trans (allocatorCall_of_misaligned s op touched pointer misaligned)

/-! ### Outside the heap -/

/-- Settles O55: a fault and the exit leave memory and the mark; an operation writes the heap alone. -/
theorem serviceWritesOnlyTheHeap : Obligations.ServiceWritesOnlyTheHeap := by
  intro s t hi ht
  rcases execEcall_next s t ((s.inv_iff).mp hi) ht with ⟨e, -, rfl⟩ | rfl | ⟨u, -, safe, returned⟩
  · exact Outside.refl s
  · exact Outside.refl s
  · obtain ⟨hwm, mem⟩ : t.hwm = u.hwm ∧ t.mem = u.mem := by
      rcases returned with rfl | ⟨v, -, rfl⟩
      · exact ⟨rfl, rfl⟩
      · exact ⟨State.setX_hwm .., State.setX_mem ..⟩
    rw [hwm, mem]
    exact safe.outside

end Sys2Proof.Machine
end
